-- ==== Sys2Proof/Word.lean ====
section
/-! DEFINITION. The values of registers and memory cells are signed mathematical integers, `Int` (00_scope R5, R16); here is
the range that a word width of `bits` gives them. That a value lies in it is an invariant of the machine, not part of the
type (log 5). Encoded bytes are the only bit vectors. -/

namespace Sys2Proof

/-- One byte of an encoding (30_encoding R69). -/
abbrev Byte := BitVec 8

/-- The least value of a word of `bits` bits, `-2^(bits-1)` (00_scope R5). -/
def Word.least (bits : Nat) : Int := -(2 ^ (bits - 1))

/-- The greatest value of a word of `bits` bits, `2^(bits-1) - 1` (00_scope R5). -/
def Word.greatest (bits : Nat) : Int := 2 ^ (bits - 1) - 1

/-- `v` is in the set the spec calls `Word` (00_scope R5). -/
abbrev Word.InRange (bits : Nat) (v : Int) : Prop := Word.least bits ≤ v ∧ v ≤ Word.greatest bits

end Sys2Proof
end

