-- ==== Sys2Proof/Config.lean ====
section
/-! DEFINITION. The implementation parameters of 00_scope R5 to R12 as plain data, their defaults and the constraints
the spec puts on them; and the free values behind the spec's draws (60_exceptions, 93 I8, I9, I11): opaque
constants with no body, so that no proof can see what a draw gives. -/

namespace Sys2Proof

/-- `OVERFLOW` (00_scope R6): what an arithmetic result outside `Word` does. -/
inductive OverflowRule where
  | fault
  | wrap
deriving DecidableEq, Repr

/-- `HEX_CASE` (00_scope R12). -/
inductive HexCase where
  | lower
  | upper
deriving DecidableEq, Repr

/-- `OPCODE_BYTE` (00_scope R10): the byte of each of the eleven opcodes. -/
structure OpcodeBytes where
  load : Byte
  store : Byte
  add : Byte
  sub : Byte
  mul : Byte
  div : Byte
  jmp : Byte
  jz : Byte
  jnz : Byte
  halt : Byte
  mov : Byte
deriving DecidableEq, Repr

/-- The eleven bytes in the source's listing order. -/
def OpcodeBytes.toList (b : OpcodeBytes) : List Byte :=
  [b.load, b.store, b.add, b.sub, b.mul, b.div, b.jmp, b.jz, b.jnz, b.halt, b.mov]

/-- The default of `OPCODE_BYTE`: the source's listing order (00_scope R10, 92 D1). -/
def OpcodeBytes.listingOrder : OpcodeBytes where
  load := 0x01
  store := 0x02
  add := 0x03
  sub := 0x04
  mul := 0x05
  div := 0x06
  jmp := 0x07
  jz := 0x08
  jnz := 0x09
  halt := 0x0A
  mov := 0x0B

/-- The parameters a model takes (92_eei_decisions, "Parameters left open"); `EXEC_BUS` is `Config.execBus`. -/
structure Config where
  /-- `WORD_BITS`, 00_scope R5. -/
  wordBits : Nat
  /-- `OVERFLOW`, 00_scope R6. -/
  overflow : OverflowRule
  /-- `MEM_SIZE`, 00_scope R7. -/
  memSize : Nat
  /-- `GPR_NAMES`, 00_scope R8. -/
  gprNames : List String
  /-- `L1_LINES`, 00_scope R9. -/
  l1Lines : Nat
  /-- `L2_LINES`, 00_scope R9. -/
  l2Lines : Nat
  /-- `L3_LINES`, 00_scope R9. -/
  l3Lines : Nat
  /-- `OPCODE_BYTE`, 00_scope R10. -/
  opcodeBytes : OpcodeBytes
  /-- `STRICT`, 00_scope R11. -/
  strict : Bool
  /-- `HEX_CASE`, 00_scope R12. -/
  hexCase : HexCase
deriving DecidableEq, Repr

namespace Config

/-- Every parameter at the default of its rule (00_scope R5 to R12). -/
def default : Config where
  wordBits := 32
  overflow := .fault
  memSize := 0x10000
  gprNames := ["R0", "R1", "R2", "R3", "R4", "R5", "R6", "R7"]
  l1Lines := 8
  l2Lines := 16
  l3Lines := 32
  opcodeBytes := OpcodeBytes.listingOrder
  strict := false
  hexCase := .lower

/-- The constraints the spec puts on the parameters (00_scope R5, R7, R8, R9, R10; 92, "Parameters left open"). -/
abbrev Wf (c : Config) : Prop :=
  1 ≤ c.wordBits ∧ 0x101 ≤ c.memSize ∧ c.memSize ≤ 0x10000 ∧
  c.gprNames.Nodup ∧ (∀ n ∈ c.gprNames, n ≠ "" ∧ n ≠ "PC" ∧ n ≠ "IR") ∧
  1 ≤ c.l1Lines ∧ 1 ≤ c.l2Lines ∧ 1 ≤ c.l3Lines ∧
  c.opcodeBytes.toList.Nodup ∧ (∀ b ∈ c.opcodeBytes.toList, 1 ≤ b.toNat ∧ b.toNat ≤ 0x0B) ∧
  c.opcodeBytes.load = 0x01

/-- The description text of the register named `name` (10_state R18): fixed configuration that no rule reads and whose text the
spec does not give, so a free value (log 15). -/
opaque registerDescription (name : String) : String

/-- Free value: the integer behind draw number `n`, before it is brought into `Word` (93 I8, I9; log 2, log 16). -/
opaque freeInt (n : Nat) : Int

/-- Free value: the Boolean of draw number `n` (a bus record's active flag, 93 I9; a cleared status, 93 I11; log 2). -/
opaque freeFlag (n : Nat) : Bool

/-- Free value: the timestamp of draw number `n` (93 I9; log 2). -/
opaque freeTime (n : Nat) : Nat

/-- Free value: whether the deferred clear has reached the status of the level numbered `level` when the host makes
observation `obs` (10_state R33; log 13). -/
opaque observedClear (obs level : Nat) : Bool

/-- Free value: the active flag that observation `obs` finds in the bus record with id `id` (10_state R36; log 13). -/
opaque observedBusActive (obs id : Nat) : Bool

end Config

end Sys2Proof
end

