-- ==== Sys2Proof/Syntax.lean ====
section
/-! DEFINITION. Instruction records (30_encoding R65, R66) as the one inductive `Instr`, a constructor for each row of
spec/opcode_table.json. The core executes records, so a constructor carries every field of the record; LOAD's two
forms differ in whether `address` is present (R67). -/

namespace Sys2Proof

/-- The closed set of opcodes (00_scope R2), in the source's listing order. -/
inductive Opcode where
  | load
  | store
  | add
  | sub
  | mul
  | div
  | jmp
  | jz
  | jnz
  | halt
  | mov
deriving DecidableEq, Repr

/-- All opcodes in listing order (00_scope R2). -/
def Opcode.all : List Opcode :=
  [.load, .store, .add, .sub, .mul, .div, .jmp, .jz, .jnz, .halt, .mov]

/-- An operand (30_encoding R66): a whole signed integer, or a register named by its exact string. -/
inductive Operand where
  | literal (n : Int)
  | registerRef (name : String)
deriving DecidableEq, Repr

/-- An instruction record with its opcode as the constructor (30_encoding R65). The last field is the description. -/
inductive Instr where
  /-- LOAD with `address` present (41_load_store R94). -/
  | loadAddress (operand1 operand2 : Option Operand) (destination : Option String) (address : Nat) (description : String)
  /-- LOAD with `address` absent (41_load_store R95). -/
  | loadImmediate (operand1 operand2 : Option Operand) (destination : Option String) (description : String)
  | store (operand1 operand2 : Option Operand) (destination : Option String) (address : Option Nat) (description : String)
  | add (operand1 operand2 : Option Operand) (destination : Option String) (address : Option Nat) (description : String)
  | sub (operand1 operand2 : Option Operand) (destination : Option String) (address : Option Nat) (description : String)
  | mul (operand1 operand2 : Option Operand) (destination : Option String) (address : Option Nat) (description : String)
  | div (operand1 operand2 : Option Operand) (destination : Option String) (address : Option Nat) (description : String)
  | jmp (operand1 operand2 : Option Operand) (destination : Option String) (address : Option Nat) (description : String)
  | jz (operand1 operand2 : Option Operand) (destination : Option String) (address : Option Nat) (description : String)
  | jnz (operand1 operand2 : Option Operand) (destination : Option String) (address : Option Nat) (description : String)
  | halt (operand1 operand2 : Option Operand) (destination : Option String) (address : Option Nat) (description : String)
  | mov (operand1 operand2 : Option Operand) (destination : Option String) (address : Option Nat) (description : String)
deriving DecidableEq, Repr

/-- The record of 30_encoding R65 field by field, as the host writes it. -/
structure InstrRecord where
  opcode : Opcode
  operand1 : Option Operand
  operand2 : Option Operand
  destination : Option String
  address : Option Nat
  description : String
deriving DecidableEq, Repr

/-- The six fields of an instruction. -/
def Instr.record : Instr → InstrRecord
  | .loadAddress o1 o2 d a t => ⟨.load, o1, o2, d, some a, t⟩
  | .loadImmediate o1 o2 d t => ⟨.load, o1, o2, d, none, t⟩
  | .store o1 o2 d a t => ⟨.store, o1, o2, d, a, t⟩
  | .add o1 o2 d a t => ⟨.add, o1, o2, d, a, t⟩
  | .sub o1 o2 d a t => ⟨.sub, o1, o2, d, a, t⟩
  | .mul o1 o2 d a t => ⟨.mul, o1, o2, d, a, t⟩
  | .div o1 o2 d a t => ⟨.div, o1, o2, d, a, t⟩
  | .jmp o1 o2 d a t => ⟨.jmp, o1, o2, d, a, t⟩
  | .jz o1 o2 d a t => ⟨.jz, o1, o2, d, a, t⟩
  | .jnz o1 o2 d a t => ⟨.jnz, o1, o2, d, a, t⟩
  | .halt o1 o2 d a t => ⟨.halt, o1, o2, d, a, t⟩
  | .mov o1 o2 d a t => ⟨.mov, o1, o2, d, a, t⟩

/-- The instruction a record is; LOAD's form is selected by whether `address` is present (30_encoding R67). -/
def InstrRecord.instr (r : InstrRecord) : Instr :=
  match r.opcode with
  | .load =>
    match r.address with
    | some a => .loadAddress r.operand1 r.operand2 r.destination a r.description
    | none => .loadImmediate r.operand1 r.operand2 r.destination r.description
  | .store => .store r.operand1 r.operand2 r.destination r.address r.description
  | .add => .add r.operand1 r.operand2 r.destination r.address r.description
  | .sub => .sub r.operand1 r.operand2 r.destination r.address r.description
  | .mul => .mul r.operand1 r.operand2 r.destination r.address r.description
  | .div => .div r.operand1 r.operand2 r.destination r.address r.description
  | .jmp => .jmp r.operand1 r.operand2 r.destination r.address r.description
  | .jz => .jz r.operand1 r.operand2 r.destination r.address r.description
  | .jnz => .jnz r.operand1 r.operand2 r.destination r.address r.description
  | .halt => .halt r.operand1 r.operand2 r.destination r.address r.description
  | .mov => .mov r.operand1 r.operand2 r.destination r.address r.description

/-- The opcode of an instruction. -/
abbrev Instr.opcode (i : Instr) : Opcode := i.record.opcode

end Sys2Proof
end

