-- ==== Sys2Proof/WellFormed.lean ====
section
/-! DEFINITION. The checks `loadProgram` makes (30_encoding R68), their order (60_exceptions R118) and which record and
check a refusal names. -/

namespace Sys2Proof

/-- The named checks of 30_encoding R68, in the order they run (60_exceptions R118). -/
inductive WfCheck where
  | wfLiteral
  | wfAddress
  | wfNoSpecial
deriving DecidableEq, Repr


/-- `r` is one of the two names a program may not use (30_encoding R68, `WF_NO_SPECIAL`). -/
abbrev IsSpecialName (r : String) : Prop := r = "PC" ∨ r = "IR"

/-- `WF_LITERAL` for one operand: a literal lies in `Word` (30_encoding R68). -/
def Operand.literalOk (c : Config) : Operand → Bool
  | .literal n => decide (Word.InRange c.wordBits n)
  | .registerRef _ => true

/-- `WF_NO_SPECIAL` for one operand (30_encoding R68). -/
def Operand.notSpecial : Operand → Bool
  | .literal _ => true
  | .registerRef r => !decide (IsSpecialName r)

/-- `WF_LITERAL` for a record (30_encoding R68): both operands, whether or not the opcode reads them. -/
def InstrRecord.literalsOk (c : Config) (r : InstrRecord) : Bool :=
  r.operand1.all (Operand.literalOk c) && r.operand2.all (Operand.literalOk c)

/-- `WF_ADDRESS` for a record (30_encoding R68). -/
def InstrRecord.addressOk (c : Config) (r : InstrRecord) : Bool :=
  r.address.all (fun a => decide (a < c.memSize))

/-- `WF_NO_SPECIAL` for a record (30_encoding R68): both operands and the destination. -/
def InstrRecord.noSpecial (r : InstrRecord) : Bool :=
  r.operand1.all Operand.notSpecial && r.operand2.all Operand.notSpecial &&
    r.destination.all (fun d => !decide (IsSpecialName d))

/-- The first check of 30_encoding R68 that an instruction fails, in the order of 60_exceptions R118. -/
def Instr.failedCheck (c : Config) (i : Instr) : Option WfCheck :=
  if !i.record.literalsOk c then some .wfLiteral
  else if !i.record.addressOk c then some .wfAddress
  else if !i.record.noSpecial then some .wfNoSpecial
  else none

/-- The instruction passes every check (30_encoding R68). -/
abbrev Instr.Wf (c : Config) (i : Instr) : Prop := i.failedCheck c = none

/-- The lowest record of a program that fails a check, counted from `k`, with that check (60_exceptions R115, R118). -/
def programFailureFrom (c : Config) : Nat → List Instr → Option (Nat × WfCheck)
  | _, [] => none
  | k, i :: rest =>
    match i.failedCheck c with
    | some check => some (k, check)
    | none => programFailureFrom c (k + 1) rest

/-- What `refuse(IllFormedProgram(k, check))` names for a program, or `none` for a well-formed one (30_encoding R68). -/
def programFailure (c : Config) (p : List Instr) : Option (Nat × WfCheck) := programFailureFrom c 0 p

end Sys2Proof
end

