-- ==== Sys2Proof/Decode.lean ====
section
/-! DEFINITION. The encoder of 30_encoding R69 to R73, as bytes and as hex text, and a decoder of one encoding. The spec
defines no decoder and calls any decoder a partial inverse (R74, 92 D29): `decodeBytes` recovers exactly the opcode and
the two bytes that follow it, if any, and rejects everything else by name; `Decoded.representative` picks one record with
that encoding (log 6). -/

namespace Sys2Proof

/-- The byte of an opcode (30_encoding R70, R77). -/
def Config.opcodeByte (c : Config) : Opcode → Byte
  | .load => c.opcodeBytes.load
  | .store => c.opcodeBytes.store
  | .add => c.opcodeBytes.add
  | .sub => c.opcodeBytes.sub
  | .mul => c.opcodeBytes.mul
  | .div => c.opcodeBytes.div
  | .jmp => c.opcodeBytes.jmp
  | .jz => c.opcodeBytes.jz
  | .jnz => c.opcodeBytes.jnz
  | .halt => c.opcodeBytes.halt
  | .mov => c.opcodeBytes.mov

/-- The operand byte of format FO (30_encoding R72): a literal modulo 256, a register reference as 0x00. -/
def Operand.byte : Operand → Byte
  | .literal n => BitVec.ofInt 8 n
  | .registerRef _ => 0x00

/-- The three encoding formats (30_encoding R69). -/
inductive Format where
  | f0
  | fa
  | fo
deriving DecidableEq, Repr

/-- The format of a record, chosen by the fields present and not by the opcode (30_encoding R69). -/
def InstrRecord.format (r : InstrRecord) : Format :=
  match r.address, r.operand1, r.operand2 with
  | some _, _, _ => .fa
  | none, some _, some _ => .fo
  | none, _, _ => .f0

/-- The bytes after the opcode byte (30_encoding R69, R71, R72): the address with its high byte first, else the two
operand bytes when both operands are present, else nothing. -/
def InstrRecord.fieldBytes (r : InstrRecord) : Option (Byte × Byte) :=
  match r.address, r.operand1, r.operand2 with
  | some a, _, _ => some (BitVec.ofNat 8 (a / 256), BitVec.ofNat 8 (a % 256))
  | none, some x, some y => some (x.byte, y.byte)
  | none, _, _ => none

/-- `encodeBytes` of 30_encoding R72. -/
def Instr.encodeBytes (c : Config) (i : Instr) : List Byte :=
  match i.record.fieldBytes with
  | some (x, y) => [c.opcodeByte i.opcode, x, y]
  | none => [c.opcodeByte i.opcode]

/-- One hexadecimal digit in the configured letter case (30_encoding R73). -/
def hexDigit (h : HexCase) (n : Nat) : Char :=
  if n < 10 then Char.ofNat (48 + n)
  else match h with
    | .lower => Char.ofNat (97 + (n - 10))
    | .upper => Char.ofNat (65 + (n - 10))

/-- The two digits of a byte, high nibble first (30_encoding R73). -/
def hexByte (h : HexCase) (b : Byte) : List Char :=
  [hexDigit h (b.toNat / 16), hexDigit h (b.toNat % 16)]

/-- `encode(instruction)`: the text form of the bytes (30_encoding R73). -/
def Instr.encode (c : Config) (i : Instr) : String :=
  String.ofList ((i.encodeBytes c).flatMap (hexByte c.hexCase))

/-- Why a byte list is no encoding. -/
inductive DecodeError where
  /-- The first byte is no opcode (30_encoding R75). Safe: nothing is decoded. -/
  | unassignedFirstByte (b : Byte)
  /-- The list is neither one byte nor three bytes long (30_encoding R69, R76). Safe: nothing is decoded. -/
  | badLength (n : Nat)
deriving DecidableEq, Repr

/-- All that an encoding determines (30_encoding R74): the opcode, and the two bytes that followed it, if any, which may
be an address (FA) or two operands (FO). -/
structure Decoded where
  opcode : Opcode
  fieldBytes : Option (Byte × Byte)
deriving DecidableEq, Repr

/-- The inverse of `OPCODE_BYTE` on one byte (30_encoding R74, R75). -/
def opcodeOfByte (c : Config) (b : Byte) : Option Opcode :=
  Opcode.all.find? (fun o => c.opcodeByte o == b)

/-- The decoding of one whole encoding, total on byte lists (30_encoding R74, R75, R76). -/
def decodeBytes (c : Config) : List Byte → Except DecodeError Decoded
  | [b] =>
    match opcodeOfByte c b with
    | some o => .ok ⟨o, none⟩
    | none => .error (.unassignedFirstByte b)
  | [b, x, y] =>
    match opcodeOfByte c b with
    | some o => .ok ⟨o, some (x, y)⟩
    | none => .error (.unassignedFirstByte b)
  | bytes => .error (.badLength bytes.length)

/-- The address that two bytes give in format FA (30_encoding R71). -/
def addressOfBytes (x y : Byte) : Nat := x.toNat * 256 + y.toNat

/-- The literal that one byte gives in format FO (30_encoding R72, R74: the low byte is all that is known). -/
def literalOfByte (b : Byte) : Operand := .literal b.toNat

/-- One record with the decoded encoding. DESIGN CHOICE (log 6), since an encoding fixes none of this: the destination is
the first general register, operands are literals, three bytes are FO for the arithmetic opcodes and MOV and FA for the
others, a one-byte LOAD, STORE or MOV has the literal 0 as operand1. Unsafe for a claim that reads the original record off
it. -/
def Decoded.representative (c : Config) (p : Decoded) : Instr :=
  let dest := c.gprNames.head?
  match p.opcode, p.fieldBytes with
  | .load, none => .loadImmediate (some (.literal 0)) none dest ""
  | .load, some (x, y) => .loadAddress none none dest (addressOfBytes x y) ""
  | .store, none => .store (some (.literal 0)) none none none ""
  | .store, some (x, y) => .store (some (.literal 0)) none none (some (addressOfBytes x y)) ""
  | .add, none => .add none none dest none ""
  | .add, some (x, y) => .add (some (literalOfByte x)) (some (literalOfByte y)) dest none ""
  | .sub, none => .sub none none dest none ""
  | .sub, some (x, y) => .sub (some (literalOfByte x)) (some (literalOfByte y)) dest none ""
  | .mul, none => .mul none none dest none ""
  | .mul, some (x, y) => .mul (some (literalOfByte x)) (some (literalOfByte y)) dest none ""
  | .div, none => .div none none dest none ""
  | .div, some (x, y) => .div (some (literalOfByte x)) (some (literalOfByte y)) dest none ""
  | .jmp, none => .jmp none none none none ""
  | .jmp, some (x, y) => .jmp none none none (some (addressOfBytes x y)) ""
  | .jz, none => .jz none none none none ""
  | .jz, some (x, y) => .jz none none none (some (addressOfBytes x y)) ""
  | .jnz, none => .jnz none none none none ""
  | .jnz, some (x, y) => .jnz none none none (some (addressOfBytes x y)) ""
  | .halt, none => .halt none none none none ""
  | .halt, some (x, y) => .halt none none none (some (addressOfBytes x y)) ""
  | .mov, none => .mov (some (.literal 0)) none dest none ""
  | .mov, some (x, y) => .mov (some (literalOfByte x)) (some (literalOfByte y)) dest none ""

/-- The decoder as a function to instructions: the decoded opcode and bytes, as their representative record. -/
def decodeInstr (c : Config) (bytes : List Byte) : Except DecodeError Instr :=
  (decodeBytes c bytes).map (Decoded.representative c)

/-- The bytes of an encoding that spec/opcode_table.json writes as one unsigned number of `nbits` bits, first byte most
significant (30_encoding R69; log 7). Only 8 and 24 bits are lengths of an encoding. -/
def tableBytes (nbits w : Nat) : List Byte :=
  if nbits = 8 then [BitVec.ofNat 8 w]
  else if nbits = 24 then [BitVec.ofNat 8 (w / 65536), BitVec.ofNat 8 (w / 256), BitVec.ofNat 8 w]
  else []

/-- What the decoder reads from a row of spec/opcode_table.json, with the default parameters. -/
def decodeTableWord (nbits w : Nat) : Option Instr :=
  (decodeInstr Config.default (tableBytes nbits w)).toOption

end Sys2Proof
end

