-- ==== Sys2Proof/Machine/State.lean ====
section
/-! DEFINITION. The whole architectural state (10_state), with the parameters and the draw counter beside it; the reasons a
step can stop; the state of a newly built machine. -/

namespace Sys2Proof.Machine

/-- One register: its value and its active flag (10_state R18, R21). -/
structure Reg where
  value : Int
  active : Bool
deriving DecidableEq, Repr

/-- A register after reset: 0 and inactive (10_state R40). -/
def Reg.blank : Reg := ⟨0, false⟩

/-- The general registers, one entry for each name of GPR_NAMES (10_state R18, R20). -/
abbrev Bank := List (String × Reg)

/-- One data memory cell (10_state R30, R31, R32). -/
structure Cell where
  value : Int
  active : Bool
  used : Bool
deriving DecidableEq, Repr

/-- A cell after reset: 0, inactive and unused (10_state R40). -/
def Cell.blank : Cell := ⟨0, false, false⟩

/-- The data memory (10_state R30): the cells that differ from `Cell.blank`, by strictly rising address. -/
abbrev Memory := List (Nat × Cell)

/-- The phases (10_state R25). -/
inductive Phase where
  | idle
  | fetch
  | decode
  | execute
  | store
deriving DecidableEq, Repr

/-- The cache levels (10_state R33). -/
inductive Level where
  | l1
  | l2
  | l3
deriving DecidableEq, Repr

/-- A cache line (10_state R34); `stamp` is the `cycle` of its last access. -/
structure Line where
  address : Nat
  value : Int
  valid : Bool
  dirty : Bool
  stamp : Nat
deriving DecidableEq, Repr

/-- A line after reset (10_state R40). -/
def Line.blank : Line := ⟨0, 0, false, false, 0⟩

/-- The transient status of a level (10_state R33). -/
structure LevelStatus where
  active : Bool
  hit : Bool
  addr : Option Nat
deriving DecidableEq, Repr

/-- The cleared status (20_memory R47, 10_state R40). -/
def LevelStatus.cleared : LevelStatus := ⟨false, false, none⟩

/-- One cache level (10_state R33). -/
structure CacheLevel where
  lines : List Line
  hits : Nat
  misses : Nat
  status : LevelStatus
deriving DecidableEq, Repr

/-- A level after reset, with the given number of lines (10_state R40). -/
def CacheLevel.blank (n : Nat) : CacheLevel := ⟨List.replicate n Line.blank, 0, 0, LevelStatus.cleared⟩

/-- The cache hierarchy (10_state R33). -/
structure Cache where
  l1 : CacheLevel
  l2 : CacheLevel
  l3 : CacheLevel
deriving DecidableEq, Repr

/-- The bus types (10_state R36). -/
inductive BusType where
  | data
  | address
  | control
deriving DecidableEq, Repr

/-- The part of a bus record that a rule fixes: type, source label, destination label (00_scope R13). -/
structure BusTransfer where
  busType : BusType
  source : String
  destination : String
deriving DecidableEq, Repr

/-- A record of the bus event log (10_state R36). The last three fields are draws. -/
structure BusRecord where
  id : Nat
  transfer : BusTransfer
  value : Int
  active : Bool
  timestamp : Nat
deriving DecidableEq, Repr

/-- A register delta of a step record (10_state R38). -/
structure RegDelta where
  name : String
  old : Int
  new : Int
deriving DecidableEq, Repr

/-- A memory delta of a step record (10_state R38). -/
structure MemDelta where
  address : Nat
  old : Int
  new : Int
deriving DecidableEq, Repr

/-- A step record of the history (10_state R38). -/
structure StepRecord where
  cycle : Nat
  phase : Phase
  instr : Option Instr
  regDeltas : List RegDelta
  memDeltas : List MemDelta
deriving DecidableEq, Repr

/-- The state record `S` of 10_state, with the model's own `cfg` (log 1) and `draws` (log 2). -/
structure State where
  /-- The implementation parameters, which no transition writes (log 1). -/
  cfg : Config
  /-- The general registers (10_state R18). -/
  gprs : Bank
  /-- The register "PC" (10_state R22). -/
  pc : Reg
  /-- The register "IR" (10_state R24). -/
  irReg : Reg
  /-- The instruction being processed (10_state R24). -/
  ir : Option Instr
  /-- The index of the next record to fetch (10_state R23). -/
  cursor : Nat
  /-- The instruction store (10_state R27). -/
  program : List Instr
  /-- The last phase performed (10_state R25). -/
  phase : Phase
  /-- The instruction-cycle counter (10_state R26). -/
  cycle : Nat
  /-- The data memory (10_state R30). -/
  mem : Memory
  /-- The cache hierarchy (10_state R33). -/
  cache : Cache
  /-- The bus event log (10_state R37). -/
  bus : List BusRecord
  /-- The step history (10_state R38). -/
  history : List StepRecord
  /-- How many draws have been taken (log 2). -/
  draws : Nat
deriving DecidableEq, Repr

/-- What of a state is no draw (40_cycle R92): all of it but IR's value, the cache status, the values, active flags and
timestamps of bus records, and the draw counter. -/
structure CoreView where
  cfg : Config
  gprs : Bank
  pc : Reg
  irActive : Bool
  ir : Option Instr
  cursor : Nat
  program : List Instr
  phase : Phase
  cycle : Nat
  mem : Memory
  lines : List Line × List Line × List Line
  counters : List Nat
  /-- Id, type and labels of every bus record (10_state R36). -/
  bus : List (Nat × BusTransfer)
  history : List StepRecord
deriving DecidableEq, Repr

/-- The requirements on a record's fields (30_encoding R67), which R114 of 60_exceptions lists in check order. -/
inductive Requirement where
  | destination
  | operand1
  | operand2
  | address
deriving DecidableEq, Repr

/-- The info of `Fault(ArithOverflow)` (60_exceptions R113). -/
inductive OverflowInfo where
  /-- From EXECUTE: the opcode, both operand values, the exact result, the record's index. -/
  | execute (opcode : Opcode) (v1 v2 exact : Int) (index : Nat)
  /-- From FETCH: PC and cursor, as the state before the step holds them (log 11). -/
  | fetch (pc : Int) (cursor : Nat)
deriving DecidableEq, Repr

/-- The reasons the machine stops. The state before the step is kept (60_exceptions R112). -/
inductive Fault where
  /-- `Fault(ArithOverflow)`, code 1 (60_exceptions R113): raised by ADD, SUB, MUL, DIV and by FETCH's PC increment when
  `OVERFLOW = fault`. Safe: the spec gives this outcome where its source gives no value. -/
  | arithOverflow (info : OverflowInfo)
  /-- `Fault(MalformedInstruction)`, code 2 (60_exceptions R114): raised by the EXECUTE of a malformed instruction when
  `STRICT`. Safe: the spec gives this outcome. -/
  | malformedInstruction (index : Nat) (opcode : Opcode) (requirement : Requirement)
  /-- Raised by `step` when EXECUTE is due and `ir` holds no record, which 40_cycle R85 derives cannot happen (log 10).
  Safe: no reachable state raises it. -/
  | noInstruction
deriving DecidableEq, Repr

/-- The reasons the model gives no meaning. -/
inductive Refusal where
  /-- Raised by an arm of `exec` whose instruction has no meaning yet. Safe: nothing is claimed of it. -/
  | notModelled (mnemonic : String)
  /-- `refuse(IllFormedProgram(k, check))`, code 3 (60_exceptions R115): raised by `loadProgram`; and by EXECUTE for a record
  that `loadProgram` would have refused (log 9). Safe: such a program has no meaning. -/
  | illFormedProgram (index : Nat) (check : WfCheck)
deriving DecidableEq, Repr

/-- The codes of 60_exceptions R116; the model's own stop has none. -/
def Fault.code : Fault → Option Nat
  | .arithOverflow _ => some 1
  | .malformedInstruction _ _ _ => some 2
  | .noInstruction => none

/-- The code of 60_exceptions R116; the model's own refusal has none. -/
def Refusal.code : Refusal → Option Nat
  | .notModelled _ => none
  | .illFormedProgram _ _ => some 3

/-- A newly built machine with the given parameters (70_reset R129): the reset state with an empty program. -/
def State.construct (c : Config) : State where
  cfg := c
  gprs := c.gprNames.map (fun n => (n, Reg.blank))
  pc := Reg.blank
  irReg := Reg.blank
  ir := none
  cursor := 0
  program := []
  phase := .idle
  cycle := 0
  mem := []
  cache := ⟨CacheLevel.blank c.l1Lines, CacheLevel.blank c.l2Lines, CacheLevel.blank c.l3Lines⟩
  bus := []
  history := []
  draws := 0

/-- The machine right after reset, newly built with the default parameters (10_state R40, 70_reset R127, R129). -/
def State.reset : State := State.construct Config.default

end Sys2Proof.Machine

namespace Sys2Proof

/-- `EXEC_BUS` (00_scope R13), left OPEN by the spec: the bus transfers that EXECUTE of an instruction appends, a function of
the instruction and of what in the state at EXECUTE entry is no draw, so that every replay appends the same ones (40_cycle
R92), with no body (log 3). -/
opaque Config.execBus (v : Machine.CoreView) (i : Instr) : List Machine.BusTransfer

end Sys2Proof
end

