-- ==== Sys2Proof/Machine/Ops.lean ====
section
/-! DEFINITION. The named operations over registers, data memory and logs, and the arithmetic of 42_arithmetic R97. The core
has no exceptions (60_exceptions R110, R119): the one way a step ends early is the fault outcome of R112, which keeps the
state before the step, so no operation here saves a pc or a status. -/

namespace Sys2Proof.Machine

/-! ### Arithmetic into `Word` -/

/-- `wrap(r)`: `r` modulo `2^bits`, mapped into the signed range (00_scope R6). -/
def wrapWord (bits : Nat) (r : Int) : Int :=
  (r + 2 ^ (bits - 1)) % 2 ^ bits - 2 ^ (bits - 1)

/-- `fit(r)` (42_arithmetic R97): `none` stands for raising `Fault(ArithOverflow)`. -/
def fit (c : Config) (r : Int) : Option Int :=
  if Word.InRange c.wordBits r then some r
  else match c.overflow with
    | .fault => none
    | .wrap => some (wrapWord c.wordBits r)

/-- The quotient of DIV (42_arithmetic R102): 0 for a zero divisor, else the exact quotient rounded toward minus infinity. -/
def floorDiv (v1 v2 : Int) : Int := if v2 = 0 then 0 else v1.fdiv v2

/-- The value in `Word` that draw number `n` gives (10_state R24, R36; 93 I8, I9; log 16). -/
def drawWord (c : Config) (n : Nat) : Int := wrapWord c.wordBits (Config.freeInt n)

/-! ### The register bank -/

/-- The register named `r` of the bank; a name outside it reads as a blank register (no rule reads one: 40_cycle R87). -/
def Bank.get : Bank → String → Reg
  | [], _ => Reg.blank
  | (n, x) :: rest, r => if n = r then x else Bank.get rest r

/-- The bank with the register named `r` replaced; the set of names never changes (10_state R20). -/
def Bank.put (b : Bank) (r : String) (x : Reg) : Bank :=
  b.map (fun p => if p.1 = r then (p.1, x) else p)

/-- The names of the bank. -/
def Bank.names (b : Bank) : List String := b.map Prod.fst

/-- A general register's value, `x[r]` (00_scope R15). -/
def State.gpr (s : State) (r : String) : Int := (s.gprs.get r).value

/-- A general register's active flag, `active[r]` (00_scope R15). -/
def State.gprActive (s : State) (r : String) : Bool := (s.gprs.get r).active

/-! ### The data memory -/

/-- The cell at an address; an unlisted one is blank (10_state R30, R40). -/
def Memory.cell : Memory → Nat → Cell
  | [], _ => Cell.blank
  | (b, x) :: rest, a => if b = a then x else Memory.cell rest a

/-- A cell in front of a list whose addresses are all greater, left out when it is blank. -/
def Memory.push (a : Nat) (x : Cell) (m : Memory) : Memory :=
  if x = Cell.blank then m else (a, x) :: m

/-- The memory with the cell at `a` replaced, in canonical form. -/
def Memory.put : Memory → Nat → Cell → Memory
  | [], a, x => Memory.push a x []
  | (b, y) :: rest, a, x =>
    if a < b then Memory.push a x ((b, y) :: rest)
    else if b = a then Memory.push a x rest
    else (b, y) :: Memory.put rest a x

/-- The canonical form: addresses strictly rising and no blank cell listed. -/
abbrev Memory.wf (m : Memory) : Prop :=
  m.Pairwise (fun p q => p.1 < q.1) ∧ ∀ p ∈ m, p.2 ≠ Cell.blank

/-- `MemRead(a, 1)` (20_memory R41). -/
def Memory.read (m : Memory) (a : Nat) : Int := (m.cell a).value

/-- `MemWrite(a, 1, v)` (20_memory R41): the flags stay. -/
def Memory.write (m : Memory) (a : Nat) (v : Int) : Memory := m.put a { m.cell a with value := v }

/-! ### The logs -/

/-- The records that a list of transfers becomes, ids from `id`, each taking one draw from number `draw` on (10_state R36). -/
def busRecords (c : Config) (id draw : Nat) : List BusTransfer → List BusRecord
  | [] => []
  | t :: rest =>
    ⟨id, t, drawWord c draw, Config.freeFlag draw, Config.freeTime draw⟩ :: busRecords c (id + 1) (draw + 1) rest

/-- The transfers appended to the bus log, ids numbered on from its length (40_cycle R81, R85). -/
def State.appendBus (s : State) (ts : List BusTransfer) : State :=
  { s with
    bus := s.bus ++ busRecords s.cfg s.bus.length s.draws ts
    draws := s.draws + ts.length }

/-- The end of every performed phase (40_cycle R80, R84): `phase` set and one step record appended, with the values after the
phase. -/
def State.endPhase (s : State) (p : Phase) (r : List RegDelta) (m : List MemDelta) : State :=
  { s with
    phase := p
    history := s.history ++ [⟨s.cycle, p, s.ir, r, m⟩] }

/-- What of a state is no draw (40_cycle R92). -/
def State.view (s : State) : CoreView where
  cfg := s.cfg
  gprs := s.gprs
  pc := s.pc
  irActive := s.irReg.active
  ir := s.ir
  cursor := s.cursor
  program := s.program
  phase := s.phase
  cycle := s.cycle
  mem := s.mem
  lines := (s.cache.l1.lines, s.cache.l2.lines, s.cache.l3.lines)
  counters := [s.cache.l1.hits, s.cache.l1.misses, s.cache.l2.hits, s.cache.l2.misses, s.cache.l3.hits, s.cache.l3.misses]
  bus := s.bus.map (fun r => (r.id, r.transfer))
  history := s.history

/-! ### The effects of an EXECUTE body -/

/-- What a body gives: the new state and the deltas `R` and `M` it recorded (40_cycle R85). -/
structure Effect where
  state : State
  regDeltas : List RegDelta
  memDeltas : List MemDelta
deriving DecidableEq, Repr

/-- No effect at all: the no-op body and the skip (44_control R105, 40_cycle R87). -/
def skip (s : State) : Effect := ⟨s, [], []⟩

/-- `writeDest(d, v)` (40_cycle R88): value and active flag set, the delta recorded even when nothing changes. -/
def writeDest (s : State) (d : String) (v : Int) : Effect :=
  ⟨{ s with gprs := s.gprs.put d ⟨v, true⟩ }, [⟨d, s.gpr d, v⟩], []⟩

/-- `writeMem(a, v)` (40_cycle R88): the cell's value set and the delta recorded even when nothing changes. -/
def writeMem (s : State) (a : Nat) (v : Int) : Effect :=
  ⟨{ s with mem := s.mem.write a v }, [], [⟨a, s.mem.read a, v⟩]⟩

end Sys2Proof.Machine
end

