-- ==== Sys2Proof/Machine/Flags.lean ====
section
/-! DEFINITION. Every flag the core holds (10_state R29): the active flags of registers and cells, the used flag of cells, the
status of cache levels. There are no condition codes, so no instruction computes a flag from a result. -/

namespace Sys2Proof.Machine

/-- The used flag of a cell set (10_state R31). -/
def Memory.markUsed (m : Memory) (a : Nat) : Memory := m.put a { m.cell a with used := true }

/-- The active flag of a cell set (10_state R32). -/
def Memory.markActive (m : Memory) (a : Nat) : Memory := m.put a { m.cell a with active := true }

/-- The active flag of every cell cleared, in canonical form (40_cycle R83). -/
def Memory.clearActive : Memory → Memory
  | [] => []
  | (a, x) :: rest => Memory.push a { x with active := false } (Memory.clearActive rest)

/-- The active flag of every general register cleared (40_cycle R83). -/
def Bank.clearActive (b : Bank) : Bank := b.map (fun p => (p.1, { p.2 with active := false }))

/-- The status of every level cleared (20_memory R47). -/
def Cache.clearStatus (c : Cache) : Cache where
  l1 := { c.l1 with status := LevelStatus.cleared }
  l2 := { c.l2 with status := LevelStatus.cleared }
  l3 := { c.l3 with status := LevelStatus.cleared }

/-- A draw between a status and the cleared one (10_state R33). -/
def LevelStatus.drawFrom (kept : Bool) (st : LevelStatus) : LevelStatus :=
  if kept then st else LevelStatus.cleared

/-- The status of each level drawn between what it is and the cleared value, with draws `n`, `n + 1` and `n + 2`
(40_cycle R83). -/
def Cache.drawStatus (c : Cache) (n : Nat) : Cache where
  l1 := { c.l1 with status := c.l1.status.drawFrom (Config.freeFlag n) }
  l2 := { c.l2 with status := c.l2.status.drawFrom (Config.freeFlag (n + 1)) }
  l3 := { c.l3 with status := c.l3.status.drawFrom (Config.freeFlag (n + 2)) }

end Sys2Proof.Machine
end

