-- ==== Sys2Proof/Machine/Cache.lean ====
section
/-! DEFINITION. The cache paths of 20_memory R47 to R51. -/

namespace Sys2Proof.Machine

/-- The lines, counters and status of a level. -/
def Cache.level (c : Cache) : Level → CacheLevel
  | .l1 => c.l1
  | .l2 => c.l2
  | .l3 => c.l3

/-- One level replaced. -/
def Cache.setLevel (c : Cache) (x : CacheLevel) : Level → Cache
  | .l1 => { c with l1 := x }
  | .l2 => { c with l2 := x }
  | .l3 => { c with l3 := x }

/-- The line holds `a` (20_memory R48). -/
def Line.holds (l : Line) (a : Nat) : Bool := l.valid && l.address == a

/-- The index of the line of a level that holds `a` (20_memory R48). -/
def CacheLevel.find (x : CacheLevel) (a : Nat) : Option Nat := x.lines.findIdx? (fun l => l.holds a)

/-- The hit scan (20_memory R48): L1, then L2, then L3, stopping at the first level that holds `a`. -/
def Cache.hitScan (c : Cache) (a : Nat) : Option (Level × Nat) :=
  match c.l1.find a with
  | some j => some (.l1, j)
  | none =>
    match c.l2.find a with
    | some j => some (.l2, j)
    | none =>
      match c.l3.find a with
      | some j => some (.l3, j)
      | none => none

/-- The smallest stamp of a list of lines (20_memory R49); of no lines, 0. -/
def smallestStamp : List Line → Nat
  | [] => 0
  | [l] => l.stamp
  | l :: rest => min l.stamp (smallestStamp rest)

/-- The victim of a miss (20_memory R49): the first invalid line, else the first line with the smallest stamp. -/
def victim (lines : List Line) : Nat :=
  match lines.findIdx? (fun l => !l.valid) with
  | some j => j
  | none => lines.findIdx (fun l => l.stamp == smallestStamp lines)

/-- A level after a hit at line `j` in cycle `now` (20_memory R50, R51): the line changed by `touch`, its stamp `now`, one more
hit, the status active and hit. -/
def CacheLevel.onHit (x : CacheLevel) (j now a : Nat) (touch : Line → Line) : CacheLevel where
  lines := x.lines.modify j (fun l => { touch l with stamp := now })
  hits := x.hits + 1
  misses := x.misses
  status := ⟨true, true, some a⟩

/-- L1 after a miss (20_memory R50, R51): the victim replaced, one more miss, the status active and not hit. -/
def CacheLevel.onMiss (x : CacheLevel) (fill : Line) : CacheLevel where
  lines := x.lines.set (victim x.lines) fill
  hits := x.hits
  misses := x.misses + 1
  status := ⟨true, false, some fill.address⟩

/-- What the read path answers (20_memory R50): the level, whether it hit, the value; and the cache it leaves. -/
structure CacheAnswer where
  level : Level
  hit : Bool
  value : Int
  cache : Cache
deriving DecidableEq, Repr

/-- `checkCache(a)` in cycle `now` (20_memory R50). -/
def Cache.check (c : Cache) (m : Memory) (now a : Nat) : CacheAnswer :=
  let c0 := c.clearStatus
  match c0.hitScan a with
  | some (lv, j) =>
    ⟨lv, true, ((c0.level lv).lines.getD j Line.blank).value,
      c0.setLevel ((c0.level lv).onHit j now a id) lv⟩
  | none =>
    ⟨.l1, false, m.read a, { c0 with l1 := c0.l1.onMiss ⟨a, m.read a, true, false, now⟩ }⟩

/-- `updateCache(a, v)` in cycle `now` (20_memory R51). -/
def Cache.update (c : Cache) (now a : Nat) (v : Int) : Cache :=
  let c0 := c.clearStatus
  match c0.hitScan a with
  | some (lv, j) => c0.setLevel ((c0.level lv).onHit j now a (fun l => { l with value := v, dirty := true })) lv
  | none => { c0 with l1 := c0.l1.onMiss ⟨a, v, true, true, now⟩ }

end Sys2Proof.Machine
end

