-- ==== Sys2Proof/Machine/Operands.lean ====
section
/-! DEFINITION. Every operand form (30_encoding R66) and its resolution (40_cycle R86), the requirements on a record's fields
(30_encoding R67, 40_cycle R87), and the frame that every EXECUTE shares (40_cycle R85). -/

namespace Sys2Proof.Machine

/-- `resolve` (40_cycle R86): a literal gives itself, a register reference the register's value. -/
def resolve (s : State) : Operand → Int
  | .literal n => n
  | .registerRef r => s.gpr r

/-- `okReg` (40_cycle R87): a destination that is a name in GPR_NAMES. -/
def okReg (c : Config) : Option String → Bool
  | some d => decide (d ∈ c.gprNames)
  | none => false

/-- `okOperand` (40_cycle R87): a literal, or a register reference whose name is in GPR_NAMES. -/
def okOperand (c : Config) : Option Operand → Bool
  | some (.literal _) => true
  | some (.registerRef r) => decide (r ∈ c.gprNames)
  | none => false

/-- The first requirement that an instruction fails, in the order of 60_exceptions R114; `none` when it is not malformed
(40_cycle R87). -/
def failedRequirement (c : Config) : Instr → Option Requirement
  | .loadAddress _ _ d _ _ => if !okReg c d then some .destination else none
  | .loadImmediate o1 _ d _ =>
    if !okReg c d then some .destination else if !okOperand c o1 then some .operand1 else none
  | .store o1 _ _ a _ => if !okOperand c o1 then some .operand1 else if a.isNone then some .address else none
  | .add o1 o2 d _ _ | .sub o1 o2 d _ _ | .mul o1 o2 d _ _ | .div o1 o2 d _ _ =>
    if !okReg c d then some .destination else if !okOperand c o1 then some .operand1
    else if !okOperand c o2 then some .operand2 else none
  | .mov o1 _ d _ _ =>
    if !okReg c d then some .destination else if !okOperand c o1 then some .operand1 else none
  | .jmp _ _ _ _ _ | .jz _ _ _ _ _ | .jnz _ _ _ _ _ | .halt _ _ _ _ _ => none

/-- `malformed(i)` (40_cycle R87). -/
def malformed (c : Config) (i : Instr) : Bool := (failedRequirement c i).isSome

/-- A required destination (30_encoding R67). -/
def requireDestination (s : State) : Option String → Except Requirement String
  | some d => if d ∈ s.cfg.gprNames then .ok d else .error .destination
  | none => .error .destination

/-- A required operand, resolved at EXECUTE entry (30_encoding R67, 40_cycle R86). -/
def requireOperand (s : State) (which : Requirement) : Option Operand → Except Requirement Int
  | some o => if okOperand s.cfg (some o) then .ok (resolve s o) else .error which
  | none => .error which

/-- A required address (30_encoding R67). -/
def requireAddress : Option Nat → Except Requirement Nat
  | some a => .ok a
  | none => .error .address

/-- The end of an EXECUTE (40_cycle R80, R84, R85): the bus records of `EXEC_BUS` appended, then the phase and the step record. -/
def finishExecute (transfers : List BusTransfer) (e : Effect) : State :=
  (e.state.appendBus transfers).endPhase .execute e.regDeltas e.memDeltas

/-- The EXECUTE phase of `i` (40_cycle R85). `body` is what the instruction's requirements and body give: a failed
requirement (40_cycle R87), a fault of the body, or its effect. A record that `loadProgram` would have refused has no
meaning here either (log 9). -/
def executePhase (i : Instr) (s : State) (body : Except Requirement (Except Fault Effect)) :
    Host.Outcome State Fault Refusal :=
  match i.failedCheck s.cfg with
  | some check => .refused (.illFormedProgram (s.cursor - 1) check)
  | none =>
    match body with
    | .error r =>
      if s.cfg.strict then .fault (.malformedInstruction (s.cursor - 1) i.opcode r)
      else .next (finishExecute (Config.execBus s.view i) (skip s))
    | .ok (.error f) => .fault f
    | .ok (.ok e) => .next (finishExecute (Config.execBus s.view i) e)

end Sys2Proof.Machine
end

