-- ==== Sys2Proof/Machine/Arithmetic.lean ====
section
/-! DEFINITION. The EXECUTE of ADD, SUB, MUL and DIV (42_arithmetic). -/

namespace Sys2Proof.Machine

/-- `writeDest(d, fit(exact))` (42_arithmetic R97), with the fault of 60_exceptions R113 where `fit` raises it. -/
def writeFit (s : State) (op : Opcode) (d : String) (v1 v2 exact : Int) : Except Fault Effect :=
  match fit s.cfg exact with
  | some v => .ok (writeDest s d v)
  | none => .error (.arithOverflow (.execute op v1 v2 exact (s.cursor - 1)))

/-- The frame of the four arithmetic bodies (42_arithmetic R97): the requirements of 30_encoding R67, both operands resolved,
then the exact integer result of `f` written through `fit`. -/
def arithBody (s : State) (op : Opcode) (o1 o2 : Option Operand) (d : Option String) (f : Int → Int → Int) :
    Except Requirement (Except Fault Effect) := do
  let r ← requireDestination s d
  let v1 ← requireOperand s .operand1 o1
  let v2 ← requireOperand s .operand2 o2
  return writeFit s op r v1 v2 (f v1 v2)

/-- ADD (42_arithmetic R99). -/
def execAdd (o1 o2 : Option Operand) (d : Option String) (a : Option Nat) (t : String) (s : State) :
    Host.Outcome State Fault Refusal :=
  executePhase (.add o1 o2 d a t) s (arithBody s .add o1 o2 d (fun v1 v2 => v1 + v2))

/-- SUB (42_arithmetic R100). -/
def execSub (o1 o2 : Option Operand) (d : Option String) (a : Option Nat) (t : String) (s : State) :
    Host.Outcome State Fault Refusal :=
  executePhase (.sub o1 o2 d a t) s (arithBody s .sub o1 o2 d (fun v1 v2 => v1 - v2))

/-- MUL (42_arithmetic R101). -/
def execMul (o1 o2 : Option Operand) (d : Option String) (a : Option Nat) (t : String) (s : State) :
    Host.Outcome State Fault Refusal :=
  executePhase (.mul o1 o2 d a t) s (arithBody s .mul o1 o2 d (fun v1 v2 => v1 * v2))

/-- DIV (42_arithmetic R102). -/
def execDiv (o1 o2 : Option Operand) (d : Option String) (a : Option Nat) (t : String) (s : State) :
    Host.Outcome State Fault Refusal :=
  executePhase (.div o1 o2 d a t) s (arithBody s .div o1 o2 d floorDiv)

end Sys2Proof.Machine
end

