-- ==== Sys2Proof/Machine/Control.lean ====
section
/-! DEFINITION. The EXECUTE of JMP, JZ, JNZ and HALT (44_control): no-ops that require no field and are never malformed. -/

namespace Sys2Proof.Machine

/-- JMP (44_control R105). -/
def execJmp (o1 o2 : Option Operand) (d : Option String) (a : Option Nat) (t : String) (s : State) :
    Host.Outcome State Fault Refusal :=
  executePhase (.jmp o1 o2 d a t) s (.ok (.ok (skip s)))

/-- JZ (44_control R106). -/
def execJz (o1 o2 : Option Operand) (d : Option String) (a : Option Nat) (t : String) (s : State) :
    Host.Outcome State Fault Refusal :=
  executePhase (.jz o1 o2 d a t) s (.ok (.ok (skip s)))

/-- JNZ (44_control R107). -/
def execJnz (o1 o2 : Option Operand) (d : Option String) (a : Option Nat) (t : String) (s : State) :
    Host.Outcome State Fault Refusal :=
  executePhase (.jnz o1 o2 d a t) s (.ok (.ok (skip s)))

/-- HALT (44_control R108). -/
def execHalt (o1 o2 : Option Operand) (d : Option String) (a : Option Nat) (t : String) (s : State) :
    Host.Outcome State Fault Refusal :=
  executePhase (.halt o1 o2 d a t) s (.ok (.ok (skip s)))

end Sys2Proof.Machine
end

