-- ==== Sys2Proof/Machine/LoadStore.lean ====
section
/-! DEFINITION. The EXECUTE of LOAD, in both forms, and of STORE (41_load_store). -/

namespace Sys2Proof.Machine

/-- The body of LOAD with an address (41_load_store R94). -/
def loadFromCell (s : State) (d : String) (a : Nat) : Effect :=
  let answer := s.cache.check s.mem s.cycle a
  let e := writeDest { s with cache := answer.cache } d answer.value
  { e with state := { e.state with mem := e.state.mem.markUsed a } }

/-- The body of STORE (41_load_store R96): memory first, then the flags, then the write path of the cache. -/
def storeToCell (s : State) (a : Nat) (v : Int) : Effect :=
  let e := writeMem s a v
  { e with state := { e.state with
      mem := (e.state.mem.markUsed a).markActive a
      cache := e.state.cache.update s.cycle a v } }

/-- LOAD, address form (41_load_store R94). -/
def execLoadAddress (o1 o2 : Option Operand) (d : Option String) (a : Nat) (t : String) (s : State) :
    Host.Outcome State Fault Refusal :=
  executePhase (.loadAddress o1 o2 d a t) s do
    let r ← requireDestination s d
    return .ok (loadFromCell s r a)

/-- LOAD, immediate form (41_load_store R95). -/
def execLoadImmediate (o1 o2 : Option Operand) (d : Option String) (t : String) (s : State) :
    Host.Outcome State Fault Refusal :=
  executePhase (.loadImmediate o1 o2 d t) s do
    let r ← requireDestination s d
    let v1 ← requireOperand s .operand1 o1
    return .ok (writeDest s r v1)

/-- STORE (41_load_store R96). -/
def execStore (o1 o2 : Option Operand) (d : Option String) (a : Option Nat) (t : String) (s : State) :
    Host.Outcome State Fault Refusal :=
  executePhase (.store o1 o2 d a t) s do
    let v1 ← requireOperand s .operand1 o1
    let k ← requireAddress a
    return .ok (storeToCell s k v1)

end Sys2Proof.Machine
end

