-- ==== Sys2Proof/Machine/Move.lean ====
section
/-! DEFINITION. The EXECUTE of MOV (43_move). -/

namespace Sys2Proof.Machine

/-- MOV (43_move R103). -/
def execMov (o1 o2 : Option Operand) (d : Option String) (a : Option Nat) (t : String) (s : State) :
    Host.Outcome State Fault Refusal :=
  executePhase (.mov o1 o2 d a t) s do
    let r ← requireDestination s d
    let v1 ← requireOperand s .operand1 o1
    return .ok (writeDest s r v1)

end Sys2Proof.Machine
end

