-- ==== Sys2Proof/Machine/Dispatch.lean ====
section
/-! DEFINITION. The EXECUTE phase of every instruction, one arm per constructor (40_cycle R85). -/

namespace Sys2Proof.Machine

/-- The EXECUTE phase of `i` (40_cycle R85). -/
def exec (i : Instr) (s : State) : Host.Outcome State Fault Refusal :=
  match i with
  | .loadAddress o1 o2 d a t => Sys2Proof.Machine.execLoadAddress o1 o2 d a t s
  | .loadImmediate o1 o2 d t => Sys2Proof.Machine.execLoadImmediate o1 o2 d t s
  | .store o1 o2 d a t => Sys2Proof.Machine.execStore o1 o2 d a t s
  | .add o1 o2 d a t => Sys2Proof.Machine.execAdd o1 o2 d a t s
  | .sub o1 o2 d a t => Sys2Proof.Machine.execSub o1 o2 d a t s
  | .mul o1 o2 d a t => Sys2Proof.Machine.execMul o1 o2 d a t s
  | .div o1 o2 d a t => Sys2Proof.Machine.execDiv o1 o2 d a t s
  | .jmp o1 o2 d a t => Sys2Proof.Machine.execJmp o1 o2 d a t s
  | .jz o1 o2 d a t => Sys2Proof.Machine.execJz o1 o2 d a t s
  | .jnz o1 o2 d a t => Sys2Proof.Machine.execJnz o1 o2 d a t s
  | .halt o1 o2 d a t => Sys2Proof.Machine.execHalt o1 o2 d a t s
  | .mov o1 o2 d a t => Sys2Proof.Machine.execMov o1 o2 d a t s

end Sys2Proof.Machine
end

