-- ==== Sys2Proof/Machine/Phases.lean ====
section
/-! DEFINITION. The phases FETCH, DECODE and STORE (40_cycle R81 to R83), the end of a program (R80), the loading of a program
(R89), and the state in which one given instruction is about to execute. -/

namespace Sys2Proof.Machine

/-- The two transfers FETCH records (40_cycle R81): address PC to Memory, data Memory to InstructionRegister. -/
def fetchTransfers : List BusTransfer :=
  [⟨.address, "PC", "Memory"⟩, ⟨.data, "Memory", "InstructionRegister"⟩]

/-- The state after FETCH of the record `i`, with the PC's next value `p` (40_cycle R81), and the end of the phase (R80, R84). -/
def fetched (i : Instr) (p : Int) (s : State) : State :=
  ({ s with
    cycle := s.cycle + 1
    ir := some i
    cursor := s.cursor + 1
    pc := ⟨p, true⟩
    irReg := { s.irReg with value := drawWord s.cfg s.draws }
    draws := s.draws + 1 }.appendBus fetchTransfers).endPhase .fetch [] []

/-- FETCH of the record `i` that the cursor points at (40_cycle R81); the PC increment may fault (60_exceptions R113). -/
def fetchPhase (i : Instr) (s : State) : Host.Outcome State Fault Refusal :=
  match fit s.cfg (s.pc.value + 1) with
  | none => .fault (.arithOverflow (.fetch s.pc.value s.cursor))
  | some p => .next (fetched i p s)

/-- DECODE (40_cycle R82), and the end of the phase. -/
def decodePhase (s : State) : State :=
  { s with irReg := { s.irReg with active := true } }.endPhase .decode [] []

/-- The STORE phase (40_cycle R83), and the end of the phase. -/
def storePhase (s : State) : State :=
  { s with
    gprs := s.gprs.clearActive
    mem := s.mem.clearActive
    cache := s.cache.drawStatus s.draws
    draws := s.draws + 3 }.endPhase .store [] []

/-- `step` when the next phase is FETCH (40_cycle R80): FETCH if a record remains, else IDLE and nothing else. -/
def fetchOrIdle (s : State) : Host.Outcome State Fault Refusal :=
  match s.program[s.cursor]? with
  | some i => fetchPhase i s
  | none => .next { s with phase := .idle }

/-- `step` when the next phase is EXECUTE (40_cycle R85): the record in `ir`, which is always there in a run (log 10). -/
def executeCurrent (s : State) : Host.Outcome State Fault Refusal :=
  match s.ir with
  | some i => exec i s
  | none => .fault .noInstruction

/-- The fields that a well-formed `loadProgram` sets (40_cycle R89). -/
def installProgram (p : List Instr) (s : State) : State :=
  { s with program := p, cursor := 0, phase := .idle, ir := none }

/-- The machine with `i` as its whole program, FETCH and DECODE of it performed, so that the next step is its EXECUTE
(log 8). Should FETCH fault, the program is loaded and nothing is performed. -/
def primeExecute (i : Instr) (s : State) : State :=
  match fetchPhase i (installProgram [i] s) with
  | .next t => decodePhase t
  | _ => installProgram [i] s

end Sys2Proof.Machine
end

