-- ==== Sys2Proof/Machine/Step.lean ====
section
/-! DEFINITION. The host call `step`: exactly one phase of one instruction (40_cycle R79, R80). -/

namespace Sys2Proof.Machine

/-- One call of `step` (40_cycle R80). -/
def step (s : State) : Host.Outcome State Fault Refusal :=
  match s.phase with
  | .idle => fetchOrIdle s
  | .store => fetchOrIdle s
  | .fetch => .next (decodePhase s)
  | .decode => executeCurrent s
  | .execute => .next (storePhase s)

/-- `s` with the instruction that the decoder reads from a table word about to be executed (log 8): the next step is its
EXECUTE. A word the decoder refuses changes nothing. -/
def State.withFetchWord (s : State) (nbits w : Nat) : State :=
  match decodeTableWord nbits w with
  | some i => primeExecute i s
  | none => s

end Sys2Proof.Machine
end

