-- ==== Sys2Proof/Machine/HostInterface.lean ====
section
/-! DEFINITION. The host interface (60_exceptions R126): `reset`, `loadProgram`, `step`, `getState`, `encode`, over the state
and the fault and refusal marks that the spec holds outside it (R112, R115). -/

namespace Sys2Proof.Machine

/-- `reset()` on the state (70_reset R127, 10_state R40): every field at its reset value but the program, which is kept. The
parameters are no state of the spec, and the draw counter goes on (log 1, log 2). -/
def State.resetCall (s : State) : State :=
  { State.construct s.cfg with program := s.program, draws := s.draws }

/-- `loadProgram(P)` on the state (40_cycle R89): refused when a record fails a check of 30_encoding R68. -/
def State.loadProgram (s : State) (p : List Instr) : Host.Outcome State Fault Refusal :=
  match programFailure s.cfg p with
  | some (k, check) => .refused (.illFormedProgram k check)
  | none => .next (installProgram p s)

/-- What `step` returns (40_cycle R80): false exactly when the last phase was STORE, or none was performed, and no record
remains to fetch. -/
def stepReturns (s : State) : Bool :=
  match s.phase with
  | .idle => decide (s.cursor < s.program.length)
  | .store => decide (s.cursor < s.program.length)
  | _ => true

/-- The snapshot of `getState` (10_state R39), with the cursor and the program (92 D11). An address that `mem` does not list
holds a blank cell. -/
structure Snapshot where
  registers : List (String × Reg)
  mem : Memory
  cache : Cache
  pc : Int
  ir : Option Instr
  phase : Phase
  cycle : Nat
  bus : List BusRecord
  history : List StepRecord
  cursor : Nat
  program : List Instr
deriving DecidableEq, Repr

/-- The status of each level as observation `obs` finds it: what the last access left, or cleared (10_state R33; log 13). -/
def Cache.observed (c : Cache) (obs : Nat) : Cache where
  l1 := { c.l1 with status := c.l1.status.drawFrom (!Config.observedClear obs 1) }
  l2 := { c.l2 with status := c.l2.status.drawFrom (!Config.observedClear obs 2) }
  l3 := { c.l3 with status := c.l3.status.drawFrom (!Config.observedClear obs 3) }

/-- `getState()` (10_state R39). The argument numbers the observation, so that what a deferred clear has reached by then is
free (10_state R33, R36; log 13). -/
def State.getState (s : State) (obs : Nat) : Snapshot where
  registers := s.gprs ++ [("PC", s.pc), ("IR", s.irReg)]
  mem := s.mem
  cache := s.cache.observed obs
  pc := s.pc.value
  ir := s.ir
  phase := s.phase
  cycle := s.cycle
  bus := s.bus.map (fun r => { r with active := Config.observedBusActive obs r.id })
  history := s.history
  cursor := s.cursor
  program := s.program

/-- The machine as the host meets it: the state, the fault it is in, if any, and the refusals since the last reset, oldest
first (60_exceptions R112, R115; log 12). In a fault the state is the one before the faulting step. -/
structure CoreMachine where
  state : State
  faulted : Option Fault
  refusals : List Refusal
deriving DecidableEq, Repr

/-- A newly built machine (70_reset R129). -/
def CoreMachine.construct (c : Config) : CoreMachine := ⟨State.construct c, none, []⟩

/-- The host's calls (60_exceptions R126). -/
inductive HostCall where
  | reset
  | loadProgram (p : List Instr)
  | step
  | getState (obs : Nat)
  | encode (i : Instr)
deriving DecidableEq, Repr

/-- What the host gets back (60_exceptions R126). -/
inductive HostReply where
  | nothing
  | returned (b : Bool)
  | faulted (f : Fault)
  | refused (r : Refusal)
  | snapshot (x : Snapshot)
  | text (t : String)
deriving DecidableEq, Repr

/-- `reset()` (70_reset R127): the state reset and both marks cleared. -/
def CoreMachine.callReset (m : CoreMachine) : CoreMachine × HostReply :=
  (⟨m.state.resetCall, none, []⟩, .nothing)

/-- `loadProgram(P)` (40_cycle R89, 60_exceptions R115); on a faulted machine it acts on the state the fault kept, and the fault
stays (log 12). -/
def CoreMachine.callLoadProgram (m : CoreMachine) (p : List Instr) : CoreMachine × HostReply :=
  match m.state.loadProgram p with
  | .next s => ({ m with state := s }, .nothing)
  | .fault f => ({ m with faulted := some f }, .faulted f)
  | .refused r => ({ m with refusals := m.refusals ++ [r] }, .refused r)

/-- `step()` (40_cycle R80, 60_exceptions R112): a faulted machine stays as it is and returns false. -/
def CoreMachine.callStep (m : CoreMachine) : CoreMachine × HostReply :=
  match m.faulted with
  | some _ => (m, .returned false)
  | none =>
    match step m.state with
    | .next s => ({ m with state := s }, .returned (stepReturns m.state))
    | .fault f => ({ m with faulted := some f }, .faulted f)
    | .refused r => ({ m with refusals := m.refusals ++ [r] }, .refused r)

/-- One host call (60_exceptions R126). -/
def CoreMachine.call (m : CoreMachine) : HostCall → CoreMachine × HostReply
  | .reset => m.callReset
  | .loadProgram p => m.callLoadProgram p
  | .step => m.callStep
  | .getState obs => (m, .snapshot (m.state.getState obs))
  | .encode i => (m, .text (i.encode m.state.cfg))

/-- The machine after a sequence of host calls. -/
def CoreMachine.calls (m : CoreMachine) : List HostCall → CoreMachine
  | [] => m
  | c :: rest => CoreMachine.calls (m.call c).1 rest

end Sys2Proof.Machine
end

