-- ==== Sys2Proof/Safety.lean ====
section
/-! DEFINITION. What a sound state and a safe step are, in the terms the claims use: the invariants the spec states or derives
(10_state R21, R24, R26, R30, R32, R35, R36; 20_memory R52, R53, R55, R59), and the shape of an EXECUTE's result. -/

namespace Sys2Proof.Machine

/-- A step is safe when it neither faults nor is refused. -/
def SafeStep (s : State) : Prop := ∃ t, step s = .next t

/-! ### Invariants -/

/-- The bank holds exactly one register for each name of GPR_NAMES (10_state R18, R20). -/
abbrev State.BankOk (s : State) : Prop := s.gprs.names = s.cfg.gprNames

/-- The memory is in canonical form and lists addresses below MEM_SIZE only (10_state R30). -/
abbrev State.MemOk (s : State) : Prop := s.mem.wf ∧ ∀ p ∈ s.mem, p.1 < s.cfg.memSize

/-- All lines of a level have their value in `Word`. -/
abbrev CacheLevel.WordsOk (bits : Nat) (x : CacheLevel) : Prop := ∀ l ∈ x.lines, Word.InRange bits l.value

/-- Every register, cell and line value is in `Word` (10_state R18, R30, R34), and so is every recorded bus value (R36; 93 I9). -/
abbrev State.WordsOk (s : State) : Prop :=
  (∀ p ∈ s.gprs, Word.InRange s.cfg.wordBits p.2.value) ∧
  Word.InRange s.cfg.wordBits s.pc.value ∧ Word.InRange s.cfg.wordBits s.irReg.value ∧
  (∀ p ∈ s.mem, Word.InRange s.cfg.wordBits p.2.value) ∧
  s.cache.l1.WordsOk s.cfg.wordBits ∧ s.cache.l2.WordsOk s.cfg.wordBits ∧ s.cache.l3.WordsOk s.cfg.wordBits ∧
  ∀ r ∈ s.bus, Word.InRange s.cfg.wordBits r.value

/-- Each level has as many lines as its parameter says (10_state R33). -/
abbrev State.LinesOk (s : State) : Prop :=
  s.cache.l1.lines.length = s.cfg.l1Lines ∧ s.cache.l2.lines.length = s.cfg.l2Lines ∧
  s.cache.l3.lines.length = s.cfg.l3Lines

/-- The addresses of the valid lines of a level, in array order. -/
def CacheLevel.validAddresses (x : CacheLevel) : List Nat := (x.lines.filter (fun l => l.valid)).map Line.address

/-- No address is in two valid lines of one level (10_state R35). -/
abbrev Cache.Unique (c : Cache) : Prop :=
  c.l1.validAddresses.Nodup ∧ c.l2.validAddresses.Nodup ∧ c.l3.validAddresses.Nodup

/-- L2 and L3 hold no valid line and have counted nothing (20_memory R52, R53). -/
abbrev Cache.OuterEmpty (c : Cache) : Prop :=
  (∀ l ∈ c.l2.lines, l.valid = false) ∧ (∀ l ∈ c.l3.lines, l.valid = false) ∧
  c.l2.hits = 0 ∧ c.l2.misses = 0 ∧ c.l3.hits = 0 ∧ c.l3.misses = 0

/-- Every valid line of a level holds its cell's value (20_memory R55). -/
abbrev CacheLevel.Coherent (m : Memory) (x : CacheLevel) : Prop :=
  ∀ l ∈ x.lines, l.valid = true → l.value = m.read l.address

/-- Every valid line of every level holds its cell's value (20_memory R55). -/
abbrev State.Coherent (s : State) : Prop :=
  s.cache.l1.Coherent s.mem ∧ s.cache.l2.Coherent s.mem ∧ s.cache.l3.Coherent s.mem

/-- The cache is sound: unique lines, empty outer levels, values as in a canonical memory (20_memory R52 to R56). -/
structure State.CacheOk (s : State) : Prop where
  memory : s.mem.wf
  unique : s.cache.Unique
  outer : s.cache.OuterEmpty
  coherent : s.Coherent

/-- The stamps of the valid lines of L1, in array order. -/
def Cache.validStamps (c : Cache) : List Nat := (c.l1.lines.filter (fun l => l.valid)).map Line.stamp

/-- The current cycle has made its access: only so between an EXECUTE and the next FETCH (20_memory R59). -/
def Phase.mayHaveAccessed : Phase → Bool
  | .fetch => false
  | .decode => false
  | _ => true

/-- The stamps of valid L1 lines are pairwise distinct and are cycles of past accesses (20_memory R59). -/
structure State.StampsOk (s : State) : Prop where
  distinct : s.cache.validStamps.Nodup
  past : ∀ n ∈ s.cache.validStamps, 1 ≤ n ∧ n ≤ s.cycle ∧ (s.phase.mayHaveAccessed = false → n < s.cycle)
  started : s.phase ≠ .idle → 1 ≤ s.cycle
  outer : s.cache.OuterEmpty

/-- The instruction being processed and the cursor agree (10_state R23, R24; 40_cycle R85). -/
structure State.FetchOk (s : State) : Prop where
  bounded : s.cursor ≤ s.program.length
  current : ∀ k, s.cursor = k + 1 → s.ir = s.program[k]?
  absent : s.cursor = 0 → s.ir = none
  started : s.phase ≠ .idle → 1 ≤ s.cursor

/-- The program was accepted by `loadProgram` (30_encoding R68). -/
abbrev State.ProgramOk (s : State) : Prop := programFailure s.cfg s.program = none

/-- No general register and no cell is active but between an EXECUTE and the STORE that follows it (10_state R21, R32). -/
abbrev State.FlagsOk (s : State) : Prop :=
  s.phase ≠ .execute → (∀ p ∈ s.gprs, p.2.active = false) ∧ (∀ p ∈ s.mem, p.2.active = false)

/-- The ids of the bus log are its positions (10_state R36). -/
abbrev State.BusIdsOk (s : State) : Prop := s.bus.map BusRecord.id = List.range s.bus.length

/-- `cycle` is the number of FETCH records of the history (60_exceptions R122, 40_cycle R84). -/
abbrev State.CycleOk (s : State) : Prop := s.cycle = s.history.countP (fun r => r.phase == .fetch)

/-- What every state has that the host can bring about from a newly built machine. -/
structure State.Sound (s : State) : Prop where
  cfg : s.cfg.Wf
  bank : s.BankOk
  mem : s.MemOk
  words : s.WordsOk
  lines : s.LinesOk
  cache : s.CacheOk
  stamps : s.StampsOk
  fetch : s.FetchOk
  program : s.ProgramOk
  busIds : s.BusIdsOk
  cycle : s.CycleOk

/-! ### The shape of results -/

/-- The sixteen hexadecimal digits in a letter case (00_scope R12, 30_encoding R73). -/
def hexAlphabet : HexCase → List Char
  | .lower => "0123456789abcdef".toList
  | .upper => "0123456789ABCDEF".toList

/-- `t` comes from `s` by the EXECUTE of `i` that recorded the deltas `r` and `m`, in every field but the general registers,
the memory and the cache (40_cycle R84, R85). -/
structure Executed (i : Instr) (s t : State) (r : List RegDelta) (m : List MemDelta) : Prop where
  phase : t.phase = .execute
  history : t.history = s.history ++ [⟨s.cycle, .execute, s.ir, r, m⟩]
  bus : t.bus = s.bus ++ busRecords s.cfg s.bus.length s.draws (Config.execBus s.view i)
  draws : t.draws = s.draws + (Config.execBus s.view i).length
  cfg : t.cfg = s.cfg
  pc : t.pc = s.pc
  irReg : t.irReg = s.irReg
  ir : t.ir = s.ir
  cursor : t.cursor = s.cursor
  program : t.program = s.program
  cycle : t.cycle = s.cycle

/-- The register `d` holds `v` and is active, every other one is as before (40_cycle R88). -/
structure RegWritten (s t : State) (d : String) (v : Int) : Prop where
  value : t.gpr d = v
  active : t.gprActive d = true
  others : ∀ r, r ≠ d → t.gprs.get r = s.gprs.get r
  names : t.gprs.names = s.gprs.names

/-- `r` brought into `Word` gives `v` (00_scope R6, 42_arithmetic R97): `r` itself when it is in `Word`, else, under `wrap`, the
value of `Word` that is congruent to it modulo `2^WORD_BITS`. -/
abbrev FitsTo (c : Config) (r v : Int) : Prop :=
  (Word.InRange c.wordBits r ∧ v = r) ∨
  (¬ Word.InRange c.wordBits r ∧ c.overflow = .wrap ∧ Word.InRange c.wordBits v ∧ (2 ^ c.wordBits : Int) ∣ r - v)

/-- `r` brought into `Word` raises `Fault(ArithOverflow)` (00_scope R6, 60_exceptions R113). -/
abbrev Overflows (c : Config) (r : Int) : Prop := ¬ Word.InRange c.wordBits r ∧ c.overflow = .fault

/-- `q` is the quotient of DIV (42_arithmetic R102): 0 for a zero divisor, else the greatest integer not above `v1 / v2`. -/
abbrev IsFloorQuotient (v1 v2 q : Int) : Prop :=
  (v2 = 0 ∧ q = 0) ∨ (0 < v2 ∧ q * v2 ≤ v1 ∧ v1 < (q + 1) * v2) ∨ (v2 < 0 ∧ v1 ≤ q * v2 ∧ (q + 1) * v2 < v1)

/-- The general registers, the memory and the cache are as before. -/
structure DataKept (s t : State) : Prop where
  gprs : t.gprs = s.gprs
  mem : t.mem = s.mem
  cache : t.cache = s.cache

/-- EXECUTE of `i` writes `v` to `d`, records the delta, and changes no memory cell and no cache line, counter or status. -/
def WritesRegister (i : Instr) (s : State) (d : String) (v : Int) : Prop :=
  ∃ t, exec i s = .next t ∧ Executed i s t [⟨d, s.gpr d, v⟩] [] ∧ RegWritten s t d v ∧ t.mem = s.mem ∧ t.cache = s.cache

/-- EXECUTE of `i` writes the exact result brought into `Word` to `d`, or faults where that overflows (42_arithmetic R97). -/
def WritesFit (i : Instr) (s : State) (op : Opcode) (d : String) (v1 v2 exact : Int) : Prop :=
  (∀ v, FitsTo s.cfg exact v → WritesRegister i s d v) ∧
  (Overflows s.cfg exact → exec i s = .fault (.arithOverflow (.execute op v1 v2 exact (s.cursor - 1))))

/-- EXECUTE of `i` is a skip: it completes and changes no register, memory cell or cache state (00_scope glossary). -/
def Skips (i : Instr) (s : State) : Prop := ∃ t, exec i s = .next t ∧ Executed i s t [] [] ∧ DataKept s t

/-- The fields an instruction requires (30_encoding R67), in the order of 60_exceptions R114. LOAD's address form has its address
by its form. -/
def requiredFields : Instr → List Requirement
  | .loadAddress _ _ _ _ _ => [.destination]
  | .loadImmediate _ _ _ _ => [.destination, .operand1]
  | .store _ _ _ _ _ => [.operand1, .address]
  | .add _ _ _ _ _ => [.destination, .operand1, .operand2]
  | .sub _ _ _ _ _ => [.destination, .operand1, .operand2]
  | .mul _ _ _ _ _ => [.destination, .operand1, .operand2]
  | .div _ _ _ _ _ => [.destination, .operand1, .operand2]
  | .jmp _ _ _ _ _ => []
  | .jz _ _ _ _ _ => []
  | .jnz _ _ _ _ _ => []
  | .halt _ _ _ _ _ => []
  | .mov _ _ _ _ _ => [.destination, .operand1]

/-- An operand is a literal or names a register of GPR_NAMES (40_cycle R87). -/
def OperandMet (c : Config) (o : Option Operand) : Prop :=
  (∃ n, o = some (.literal n)) ∨ ∃ r, o = some (.registerRef r) ∧ r ∈ c.gprNames

/-- A record meets a requirement (40_cycle R87). -/
def Meets (c : Config) (x : InstrRecord) : Requirement → Prop
  | .destination => ∃ d, x.destination = some d ∧ d ∈ c.gprNames
  | .operand1 => OperandMet c x.operand1
  | .operand2 => OperandMet c x.operand2
  | .address => ∃ a, x.address = some a

/-- `r` is the first requirement of `i` that its record does not meet, in the order of 60_exceptions R114. -/
def FirstUnmet (c : Config) (i : Instr) (r : Requirement) : Prop :=
  ∃ before after, requiredFields i = before ++ r :: after ∧ (∀ q ∈ before, Meets c i.record q) ∧ ¬ Meets c i.record r

/-- If `i` is malformed, its EXECUTE is a skip, or under STRICT the fault of the first failed requirement (40_cycle R87,
60_exceptions R114). -/
def SkippedIfMalformed (i : Instr) (s : State) : Prop :=
  ∀ r, FirstUnmet s.cfg i r →
    (s.cfg.strict = false → Skips i s) ∧
    (s.cfg.strict = true → exec i s = .fault (.malformedInstruction (s.cursor - 1) i.opcode r))

/-! ### Ill-formed records -/

/-- An operand of `i` is a literal outside `Word` (30_encoding R68, `WF_LITERAL`). -/
def BadLiteral (c : Config) (i : Instr) : Prop :=
  ∃ n, (i.record.operand1 = some (.literal n) ∨ i.record.operand2 = some (.literal n)) ∧ ¬ Word.InRange c.wordBits n

/-- The address of `i` is outside the memory (30_encoding R68, `WF_ADDRESS`). -/
def BadAddress (c : Config) (i : Instr) : Prop := ∃ a, i.record.address = some a ∧ c.memSize ≤ a

/-- `i` names PC or IR as a register operand or as the destination (30_encoding R68, `WF_NO_SPECIAL`). -/
def NamesSpecial (i : Instr) : Prop :=
  ∃ r, (i.record.operand1 = some (.registerRef r) ∨ i.record.operand2 = some (.registerRef r) ∨
    i.record.destination = some r) ∧ (r = "PC" ∨ r = "IR")

/-- `u` is about to EXECUTE a STORE to `a`. -/
def StoresTo (u : State) (a : Nat) : Prop :=
  u.phase = .decode ∧ ∃ o1 o2 d x, u.ir = some (.store o1 o2 d (some a) x)

/-- The `n` steps from `s` answer the next state `t`. -/
def Reaches (n : Nat) (s t : State) : Prop := Host.Core.run Sys2Proof.core n s = .next t

/-- `t` is `s` after a phase other than EXECUTE in these fields: registers' values, memory values, cache lines and counters. -/
structure ValuesKept (s t : State) : Prop where
  gprs : ∀ r, t.gpr r = s.gpr r
  names : t.gprs.names = s.gprs.names
  mem : ∀ a, t.mem.read a = s.mem.read a
  used : ∀ a, (t.mem.cell a).used = (s.mem.cell a).used
  lines : ∀ lv, (t.cache.level lv).lines = (s.cache.level lv).lines
  hits : ∀ lv, (t.cache.level lv).hits = (s.cache.level lv).hits
  misses : ∀ lv, (t.cache.level lv).misses = (s.cache.level lv).misses

/-- What is no draw of a machine: its state's view and its fault and refusal marks. -/
def CoreMachine.view (m : CoreMachine) : CoreView × Option Fault × List Refusal := (m.state.view, m.faulted, m.refusals)

end Sys2Proof.Machine
end

