-- ==== Sys2Proof/Certificates/Slice0/Obligations.lean ====
section
/-! DEFINITION. The statements for the provers. Each docstring names the rule of spec/ it formalises; the word of a draw is free in
every one of them. -/

open Sys2Proof Sys2Proof.Machine

/-! ### Encoding -/

/-- The opcode bytes of 30_encoding R77, and words written out from R69 to R72 and R75 with what the decoder reads from
them. -/
def Obligations.SpelledWordsDecode : Prop :=
  [Opcode.load, .store, .add, .sub, .mul, .div, .jmp, .jz, .jnz, .halt, .mov].map Config.default.opcodeByte =
    [0x01, 0x02, 0x03, 0x04, 0x05, 0x06, 0x07, 0x08, 0x09, 0x0A, 0x0B] ∧
  decodeBytes Config.default [0b00000001] = .ok ⟨.load, none⟩ ∧
  decodeBytes Config.default [0b00000001, 0b00000001, 0b00000000] = .ok ⟨.load, some (0x01, 0x00)⟩ ∧
  decodeBytes Config.default [0b00000010, 0b11111111, 0b11111111] = .ok ⟨.store, some (0xFF, 0xFF)⟩ ∧
  decodeBytes Config.default [0b00000011, 0b00000101, 0b00000011] = .ok ⟨.add, some (5, 3)⟩ ∧
  decodeBytes Config.default [0b00000111] = .ok ⟨.jmp, none⟩ ∧
  decodeBytes Config.default [0b00001010] = .ok ⟨.halt, none⟩ ∧
  decodeBytes Config.default [0b00001011] = .ok ⟨.mov, none⟩ ∧
  decodeBytes Config.default [0b00000000] = .error (.unassignedFirstByte 0) ∧
  decodeBytes Config.default [0b00001100, 0, 0] = .error (.unassignedFirstByte 0x0C)

/-- The three formats and their fields (30_encoding R69, R71, R72): chosen by the fields present, the address high byte first,
a literal modulo 256, a register reference as 0x00, the destination and the description never encoded. -/
def Obligations.EncodingFormatsAndFields : Prop :=
  ∀ (c : Config) (i : Instr), c.Wf → i.Wf c →
    (∀ a, i.record.address = some a →
      ∃ hi lo : Byte, i.encodeBytes c = [c.opcodeByte i.opcode, hi, lo] ∧ hi.toNat * 256 + lo.toNat = a) ∧
    (∀ x y, i.record.address = none → i.record.operand1 = some x → i.record.operand2 = some y →
      ∃ bx by' : Byte, i.encodeBytes c = [c.opcodeByte i.opcode, bx, by'] ∧
        (∀ n, x = .literal n → (bx.toNat : Int) = n % 256) ∧ (∀ r, x = .registerRef r → bx = 0x00) ∧
        (∀ n, y = .literal n → (by'.toNat : Int) = n % 256) ∧ (∀ r, y = .registerRef r → by' = 0x00)) ∧
    (i.record.address = none → i.record.operand1 = none ∨ i.record.operand2 = none →
      i.encodeBytes c = [c.opcodeByte i.opcode]) ∧
    (∀ d t, ({ i.record with destination := d, description := t } : InstrRecord).instr.encodeBytes c = i.encodeBytes c)

/-- `encode` writes each byte as two hexadecimal digits, high nibble first, in byte order, letters by HEX_CASE, and nothing else,
so the token has two or six digits (30_encoding R73, 00_scope R12). -/
def Obligations.EncodeWritesTwoDigitsPerByte : Prop :=
  ∀ (c : Config) (i : Instr),
    let digits := hexAlphabet c.hexCase
    (i.encode c).toList.length = 2 * (i.encodeBytes c).length ∧
    ((i.encode c).toList.length = 2 ∨ (i.encode c).toList.length = 6) ∧
    ∀ k b, (i.encodeBytes c)[k]? = some b →
      (i.encode c).toList[2 * k]? = digits[b.toNat / 16]? ∧ (i.encode c).toList[2 * k + 1]? = digits[b.toNat % 16]?

/-- Decoding an encoding gives back all that it determines: the opcode and the bytes after it (30_encoding R74). -/
def Obligations.DecodeOfEncodeRecoversOpcodeAndBytes : Prop :=
  ∀ (c : Config), c.Wf → ∀ i : Instr, decodeBytes c (i.encodeBytes c) = .ok ⟨i.opcode, i.record.fieldBytes⟩

/-- Encoding what the decoder answers gives back the bytes, for every byte list it accepts (30_encoding R74; the choice of the
record is the model's own, log 6). -/
def Obligations.EncodeOfDecodeGivesTheBytes : Prop :=
  ∀ (c : Config), c.Wf → ∀ (bytes : List Byte) (i : Instr), decodeInstr c bytes = .ok i → i.encodeBytes c = bytes

/-- What no decoder can tell apart (30_encoding R74): LOAD's two forms, FA from FO, destinations, a register from the literal 0,
a literal from its low byte. -/
def Obligations.EncodingLosesFields : Prop :=
  ∀ (c : Config) (x y : Byte) (r : String) (n : Int) (d e : Option String) (t u : String),
    (Instr.loadAddress none none d (x.toNat * 256 + y.toNat) t).encodeBytes c =
      (Instr.loadImmediate (some (.literal x.toNat)) (some (.literal y.toNat)) e u).encodeBytes c ∧
    (Instr.add none none d (some (x.toNat * 256 + y.toNat)) t).encodeBytes c =
      (Instr.add (some (.literal x.toNat)) (some (.literal y.toNat)) e none u).encodeBytes c ∧
    (Instr.mul (some (.registerRef r)) (some (.literal n)) d none t).encodeBytes c =
      (Instr.mul (some (.literal 0)) (some (.literal (n % 256))) e none u).encodeBytes c

/-- Exactly eleven bytes are opcodes, 0x01 to 0x0B; 0x00 and 0x0C to 0xFF are not, a decoder rejects them by name and no encoding
starts with one (30_encoding R75). -/
def Obligations.UnassignedFirstBytesRejected : Prop :=
  ∀ (c : Config), c.Wf → ∀ b : Byte,
    (b = 0 ∨ 0x0C ≤ b.toNat →
      decodeBytes c [b] = .error (.unassignedFirstByte b) ∧
      (∀ x y, decodeBytes c [b, x, y] = .error (.unassignedFirstByte b)) ∧
      ∀ i : Instr, (i.encodeBytes c).head? ≠ some b) ∧
    (1 ≤ b.toNat → b.toNat ≤ 0x0B → ∃ o, decodeBytes c [b] = .ok ⟨o, none⟩)

/-! ### Programs -/

/-- The three checks and their order (30_encoding R68, 60_exceptions R118), and that `loadProgram` accepts exactly the programs
whose records pass them, so a register outside the bank or a missing field is accepted. -/
def Obligations.ChecksFindTheirForms : Prop :=
  (∀ (c : Config) (i : Instr),
    (i.failedCheck c = some .wfLiteral ↔ BadLiteral c i) ∧
    (i.failedCheck c = some .wfAddress ↔ ¬ BadLiteral c i ∧ BadAddress c i) ∧
    (i.failedCheck c = some .wfNoSpecial ↔ ¬ BadLiteral c i ∧ ¬ BadAddress c i ∧ NamesSpecial i) ∧
    (i.Wf c ↔ ¬ BadLiteral c i ∧ ¬ BadAddress c i ∧ ¬ NamesSpecial i)) ∧
  ∀ (s : State) (p : List Instr),
    ((∃ t, s.loadProgram p = .next t) ↔ ∀ i ∈ p, ¬ BadLiteral s.cfg i ∧ ¬ BadAddress s.cfg i ∧ ¬ NamesSpecial i) ∧
    ((∃ k check, s.loadProgram p = .refused (.illFormedProgram k check)) ↔
      ∃ i ∈ p, BadLiteral s.cfg i ∨ BadAddress s.cfg i ∨ NamesSpecial i)

/-- `loadProgram` refuses with the lowest failing record and its first failing check, and changes nothing of the state; the mark
is held outside it (as a list, log 12), lasts until the next `reset`, and leaves the host's steps as they are
(60_exceptions R115, R118). -/
def Obligations.LoadProgramRefusesLowestRecord : Prop :=
  (∀ (m : CoreMachine) (p : List Instr) (k : Nat) (check : WfCheck),
    (m.state.loadProgram p = .refused (.illFormedProgram k check) ↔
      ∃ i, p[k]? = some i ∧ i.failedCheck m.state.cfg = some check ∧
        ∀ j, j < k → ∀ x, p[j]? = some x → x.Wf m.state.cfg) ∧
    (m.state.loadProgram p = .refused (.illFormedProgram k check) →
      m.call (.loadProgram p) =
        ({ m with refusals := m.refusals ++ [.illFormedProgram k check] }, .refused (.illFormedProgram k check)))) ∧
  (∀ (cs : List HostCall) (m : CoreMachine), HostCall.reset ∉ cs → m.refusals <+: (m.calls cs).refusals) ∧
  (∀ m : CoreMachine, (m.call .reset).1.refusals = []) ∧
  ∀ (m : CoreMachine) (rs : List Refusal),
    (({ m with refusals := rs } : CoreMachine).call .step).1.state = (m.call .step).1.state ∧
    (({ m with refusals := rs } : CoreMachine).call .step).2 = (m.call .step).2

/-- A well-formed program is installed: cursor 0, phase IDLE, ir none, and nothing else changes; an ill-formed one is refused
(40_cycle R89). -/
def Obligations.LoadProgramInstalls : Prop :=
  ∀ (s : State) (p : List Instr),
    ((∀ i ∈ p, i.Wf s.cfg) →
      ∃ t, s.loadProgram p = .next t ∧ t.program = p ∧ t.cursor = 0 ∧ t.phase = .idle ∧ t.ir = none ∧
        t.cfg = s.cfg ∧ t.gprs = s.gprs ∧ t.pc = s.pc ∧ t.irReg = s.irReg ∧ t.cycle = s.cycle ∧ t.mem = s.mem ∧
        t.cache = s.cache ∧ t.bus = s.bus ∧ t.history = s.history ∧ t.draws = s.draws) ∧
    ((∃ i ∈ p, ¬ i.Wf s.cfg) → ∃ k check, s.loadProgram p = .refused (.illFormedProgram k check))

/-! ### Reset and the host -/

/-- A newly built machine is in the reset state with an empty program, its first step returns false, and its values with the
default parameters (70_reset R129, 10_state R40). -/
def Obligations.ResetStateValues : Prop :=
  (∀ c : Config, let m := CoreMachine.construct c
    (m.call .reset).1 = m ∧ m.state.program = [] ∧ (m.call .step).2 = .returned false) ∧
  let s := State.reset
  (CoreMachine.construct Config.default).state = s ∧
  s.gprs.names = ["R0", "R1", "R2", "R3", "R4", "R5", "R6", "R7"] ∧
  (∀ p ∈ s.gprs, p.2 = ⟨0, false⟩) ∧ s.pc = ⟨0, false⟩ ∧ s.irReg = ⟨0, false⟩ ∧ s.ir = none ∧ s.cursor = 0 ∧
  s.phase = .idle ∧ s.cycle = 0 ∧ s.mem = [] ∧ s.bus = [] ∧ s.history = [] ∧
  s.cache.l1.lines.length = 8 ∧ s.cache.l2.lines.length = 16 ∧ s.cache.l3.lines.length = 32

/-- `reset()` from any state of a machine that may be faulted or have refused programs: every field of R40's table at its value,
the program kept, the fault and the refusal marks cleared (70_reset R127, 10_state R40); a newly built machine is there
already. -/
def Obligations.ResetCallLeavesResetValues : Prop :=
  (∀ c : Config, ((CoreMachine.construct c).call .reset).1 = CoreMachine.construct c) ∧
  ∀ m : CoreMachine,
    let n := (m.call .reset).1
    let t := n.state
    n.faulted = none ∧ n.refusals = [] ∧ t.cfg = m.state.cfg ∧ t.gprs.names = m.state.cfg.gprNames ∧
    (∀ r, t.gprs.get r = ⟨0, false⟩) ∧ t.pc = ⟨0, false⟩ ∧ t.irReg = ⟨0, false⟩ ∧ t.ir = none ∧ t.cursor = 0 ∧
    t.program = m.state.program ∧ t.phase = .idle ∧ t.cycle = 0 ∧ (∀ a, t.mem.cell a = ⟨0, false, false⟩) ∧
    (∀ lv, (∀ l ∈ (t.cache.level lv).lines, l = ⟨0, 0, false, false, 0⟩) ∧ (t.cache.level lv).hits = 0 ∧
      (t.cache.level lv).misses = 0 ∧ (t.cache.level lv).status = ⟨false, false, none⟩) ∧
    t.LinesOk ∧ t.bus = [] ∧ t.history = []

/-- A faulted machine keeps the state before the faulting step; its steps change nothing and return false; only `reset` ends the
fault (60_exceptions R112). -/
def Obligations.FaultLastsUntilReset : Prop :=
  (∀ (m : CoreMachine) (f : Fault), m.faulted = none → step m.state = .fault f →
    (m.call .step).1.state = m.state ∧ (m.call .step).1.faulted = some f) ∧
  (∀ (m : CoreMachine) (f : Fault), m.faulted = some f → m.call .step = (m, .returned false)) ∧
  (∀ (cs : List HostCall) (m : CoreMachine) (f : Fault), m.faulted = some f → HostCall.reset ∉ cs →
    (m.calls cs).faulted = some f) ∧
  (∀ m : CoreMachine, (m.call .reset).1.faulted = none)

/-- `getState` and `encode` change nothing, however often and in whatever order they are called (10_state R39, 30_encoding R73,
60_exceptions R126). -/
def Obligations.ObservingChangesNothing : Prop :=
  ∀ (cs : List HostCall) (m : CoreMachine), (∀ c ∈ cs, (∃ o, c = .getState o) ∨ ∃ i, c = .encode i) → m.calls cs = m

/-- What the snapshot shows (10_state R39), that taking it changes nothing, and that a level's status in it is what the last
access left or the cleared value (10_state R33). -/
def Obligations.SnapshotShowsTheState : Prop :=
  ∀ (m : CoreMachine) (o : Nat),
    let s := m.state
    let x := s.getState o
    m.call (.getState o) = (m, .snapshot x) ∧
    x.registers = s.gprs ++ [("PC", s.pc), ("IR", s.irReg)] ∧ x.mem = s.mem ∧ x.pc = s.pc.value ∧ x.ir = s.ir ∧
    x.phase = s.phase ∧ x.cycle = s.cycle ∧ x.history = s.history ∧ x.cursor = s.cursor ∧ x.program = s.program ∧
    x.bus.map BusRecord.id = s.bus.map BusRecord.id ∧ x.bus.map BusRecord.transfer = s.bus.map BusRecord.transfer ∧
    x.bus.map BusRecord.value = s.bus.map BusRecord.value ∧ x.bus.map BusRecord.timestamp = s.bus.map BusRecord.timestamp ∧
    ∀ lv, (x.cache.level lv).lines = (s.cache.level lv).lines ∧ (x.cache.level lv).hits = (s.cache.level lv).hits ∧
      (x.cache.level lv).misses = (s.cache.level lv).misses ∧
      ((x.cache.level lv).status = (s.cache.level lv).status ∨ (x.cache.level lv).status = ⟨false, false, none⟩)

/-! ### The step machine -/

/-- One step performs exactly one phase, the next of the cycle FETCH, DECODE, EXECUTE, STORE; it returns false exactly when the
last phase was STORE or none and no record remains, and then it sets IDLE and changes nothing else (40_cycle R79, R80). -/
def Obligations.StepPerformsTheNextPhase : Prop :=
  (∀ s : State,
    (stepReturns s = false ↔ (s.phase = .idle ∨ s.phase = .store) ∧ s.program.length ≤ s.cursor) ∧
    (stepReturns s = false → step s = .next { s with phase := .idle }) ∧
    (stepReturns s = true → ∀ t, step s = .next t →
      (∃ r, t.history = s.history ++ [r]) ∧
      ((s.phase = .idle ∧ t.phase = .fetch) ∨ (s.phase = .store ∧ t.phase = .fetch) ∨
       (s.phase = .fetch ∧ t.phase = .decode) ∨ (s.phase = .decode ∧ t.phase = .execute) ∨
       (s.phase = .execute ∧ t.phase = .store)))) ∧
  ∀ (m : CoreMachine) (t : State), m.faulted = none → step m.state = .next t →
    m.call .step = ({ m with state := t }, .returned (stepReturns m.state))

/-- When the next phase is EXECUTE, the step is `exec` of the record in `ir`, with nothing around it; when it is FETCH, the record
that becomes `ir` is the one the cursor points at (40_cycle R80, R81, R85). -/
def Obligations.StepRunsTheFetchedInstruction : Prop :=
  (∀ (s : State) (i : Instr), s.phase = .decode → s.ir = some i → step s = exec i s) ∧
  (∀ (s t : State) (i : Instr), s.phase = .idle ∨ s.phase = .store → s.program[s.cursor]? = some i → step s = .next t →
    t.ir = some i)

/-- FETCH, field by field, for every PC whose increment does not fault; the other PCs fault (40_cycle R81). -/
def Obligations.FetchEffect : Prop :=
  ∀ (s : State) (i : Instr), 1 ≤ s.cfg.wordBits → s.phase = .idle ∨ s.phase = .store → s.program[s.cursor]? = some i →
    (∀ p, FitsTo s.cfg (s.pc.value + 1) p →
      ∃ (t : State) (v v1 v2 : Int) (a1 a2 : Bool) (n1 n2 : Nat), step s = .next t ∧
        t.cycle = s.cycle + 1 ∧ t.ir = some i ∧ t.cursor = s.cursor + 1 ∧ t.pc = ⟨p, true⟩ ∧
        t.irReg = ⟨v, s.irReg.active⟩ ∧ Word.InRange s.cfg.wordBits v ∧
        Word.InRange s.cfg.wordBits v1 ∧ Word.InRange s.cfg.wordBits v2 ∧
        t.bus = s.bus ++ [⟨s.bus.length, ⟨.address, "PC", "Memory"⟩, v1, a1, n1⟩,
          ⟨s.bus.length + 1, ⟨.data, "Memory", "InstructionRegister"⟩, v2, a2, n2⟩] ∧
        t.phase = .fetch ∧ t.history = s.history ++ [⟨s.cycle + 1, .fetch, some i, [], []⟩] ∧
        t.cfg = s.cfg ∧ t.program = s.program ∧ DataKept s t) ∧
    (Overflows s.cfg (s.pc.value + 1) → ∃ pc cur, step s = .fault (.arithOverflow (.fetch pc cur)))

/-- DECODE marks the instruction register active and changes no other field but the phase and the history (40_cycle R82). -/
def Obligations.DecodeEffect : Prop :=
  ∀ s : State, s.phase = .fetch →
    step s = .next { s with
      irReg := ⟨s.irReg.value, true⟩
      phase := .decode
      history := s.history ++ [⟨s.cycle, .decode, s.ir, [], []⟩] }

/-- The STORE phase clears the active flag of every general register and cell, keeps every value, line and counter, and each
level's status is kept or cleared (40_cycle R83). -/
def Obligations.StorePhaseEffect : Prop :=
  ∀ s : State, s.phase = .execute → s.mem.wf →
    ∃ t, step s = .next t ∧ t.phase = .store ∧ ValuesKept s t ∧
      (∀ r, t.gprActive r = false) ∧ (∀ a, (t.mem.cell a).active = false) ∧
      (∀ lv, (t.cache.level lv).status = (s.cache.level lv).status ∨
        (t.cache.level lv).status = ⟨false, false, none⟩) ∧
      t.history = s.history ++ [⟨s.cycle, .store, s.ir, [], []⟩] ∧
      t.pc = s.pc ∧ t.irReg = s.irReg ∧ t.ir = s.ir ∧ t.cursor = s.cursor ∧ t.program = s.program ∧
      t.cycle = s.cycle ∧ t.bus = s.bus ∧ t.cfg = s.cfg

/-- Every performed phase appends one step record with the values after the phase; its deltas are empty for FETCH, DECODE, STORE
and a skipped EXECUTE (40_cycle R84). -/
def Obligations.EveryPhaseAppendsItsRecord : Prop :=
  ∀ s t : State, step s = .next t → stepReturns s = true →
    ∃ r m, t.history = s.history ++ [⟨t.cycle, t.phase, t.ir, r, m⟩] ∧
      (t.phase ≠ .execute → r = [] ∧ m = []) ∧
      (∀ i, t.phase = .execute → s.ir = some i → (failedRequirement s.cfg i).isSome → r = [] ∧ m = [])

/-- The four phases of one instruction, from a state with a record to fetch: the instruction executes on the registers, memory and
cache that stood before its FETCH, in the next cycle, and what it leaves is there after its STORE; a fault of it ends the run
(40_cycle R79, 70_reset R132). -/
def Obligations.InstructionTakesFourSteps : Prop :=
  ∀ (s : State) (i : Instr) (p : Int), 1 ≤ s.cfg.wordBits → s.mem.wf → s.phase = .idle ∨ s.phase = .store →
    s.program[s.cursor]? = some i → FitsTo s.cfg (s.pc.value + 1) p →
    ∃ d, Reaches 2 s d ∧ d.phase = .decode ∧ d.ir = some i ∧ d.cycle = s.cycle + 1 ∧ d.cursor = s.cursor + 1 ∧
      d.pc = ⟨p, true⟩ ∧ d.irReg.active = true ∧ d.cfg = s.cfg ∧ d.program = s.program ∧ DataKept s d ∧
      (∀ t, exec i d = .next t → ∃ u, Reaches 4 s u ∧ u.phase = .store ∧ u.ir = some i ∧
        u.cursor = s.cursor + 1 ∧ u.cycle = s.cycle + 1 ∧ u.pc = ⟨p, true⟩ ∧ ValuesKept t u) ∧
      (∀ f, exec i d = .fault f → Host.Core.run Sys2Proof.core 4 s = .fault f)

/-- A run of a program of `N` records that does not stop: `4N` steps return true, step `m + 1` performs phase `m mod 4` of record
`m / 4`, and then a step returns false and sets IDLE (40_cycle R91). -/
def Obligations.RunTakesFourStepsPerRecord : Prop :=
  ∀ s t : State, s.phase = .idle → s.cursor = 0 → Reaches (4 * s.program.length) s t →
    (∀ m, m < 4 * s.program.length → ∃ u v, Reaches m s u ∧ stepReturns u = true ∧ Reaches (m + 1) s v ∧
      [Phase.fetch, .decode, .execute, .store][m % 4]? = some v.phase ∧ v.ir = s.program[m / 4]?) ∧
    stepReturns t = false ∧ t.cursor = s.program.length ∧ stepReturns { t with phase := .idle } = false ∧
    ∀ k, Reaches (4 * s.program.length + 1 + k) s { t with phase := .idle }

/-! ### Operands and the EXECUTE frame -/

/-- The requirements of every instruction and the one a failure names (40_cycle R87, 30_encoding R67, 60_exceptions R114). -/
def Obligations.FailedRequirementIsTheFirstUnmet : Prop :=
  ∀ (c : Config) (i : Instr),
    (malformed c i = false ↔ ∀ r ∈ requiredFields i, Meets c i.record r) ∧
    ∀ r, failedRequirement c i = some r ↔ FirstUnmet c i r

/-- Every malformed instruction of a well-formed program is skipped, or under STRICT faults with the first requirement it does
not meet; nothing else raises that fault (60_exceptions R114, 40_cycle R87). -/
def Obligations.MalformedInstructionsAreSkipped : Prop :=
  (∀ (i : Instr) (s : State), i.Wf s.cfg → SkippedIfMalformed i s) ∧
  ∀ (s : State) (k : Nat) (op : Opcode) (r : Requirement), step s = .fault (.malformedInstruction k op r) →
    s.cfg.strict = true ∧ s.phase = .decode ∧
    ∃ i, s.ir = some i ∧ FirstUnmet s.cfg i r ∧ k = s.cursor - 1 ∧ op = i.opcode

/-- A record that `loadProgram` would have refused has no meaning at EXECUTE (the model's choice, log 9). -/
def Obligations.IllFormedRecordsAreRefused : Prop :=
  ∀ (i : Instr) (s : State) (check : WfCheck), i.failedCheck s.cfg = some check →
    exec i s = .refused (.illFormedProgram (s.cursor - 1) check)

/-- `fit` (42_arithmetic R97): the value itself in `Word`; outside it the fault under `fault`, and under `wrap` the value of `Word`
congruent modulo `2^WORD_BITS`. -/
def Obligations.FitBringsResultsIntoWord : Prop :=
  ∀ (c : Config) (r : Int), 1 ≤ c.wordBits →
    (fit c r = none ↔ Overflows c r) ∧ (∀ v, fit c r = some v ↔ FitsTo c r v)

/-- `Fault(ArithOverflow)` is raised exactly under `OVERFLOW = fault`, by a FETCH's increment of PC and by an ADD, SUB, MUL or
DIV whose exact result is outside `Word`, with the info of 60_exceptions R113; that FETCH's info has the PC and cursor of the
state before the step is the model's reading (log 11). -/
def Obligations.OverflowFaultHasItsCauses : Prop :=
  ∀ (s : State) (info : OverflowInfo), step s = .fault (.arithOverflow info) ↔
    s.cfg.overflow = .fault ∧
    (((s.phase = .idle ∨ s.phase = .store) ∧ s.cursor < s.program.length ∧
        ¬ Word.InRange s.cfg.wordBits (s.pc.value + 1) ∧ info = .fetch s.pc.value s.cursor) ∨
     (s.phase = .decode ∧ ∃ (i : Instr) (x y : Operand) (exact : Int), s.ir = some i ∧ i.Wf s.cfg ∧
        (∀ r ∈ requiredFields i, Meets s.cfg i.record r) ∧
        i.record.operand1 = some x ∧ i.record.operand2 = some y ∧
        ((i.opcode = .add ∧ exact = resolve s x + resolve s y) ∨ (i.opcode = .sub ∧ exact = resolve s x - resolve s y) ∨
         (i.opcode = .mul ∧ exact = resolve s x * resolve s y) ∨
         (i.opcode = .div ∧ IsFloorQuotient (resolve s x) (resolve s y) exact)) ∧
        ¬ Word.InRange s.cfg.wordBits exact ∧
        info = .execute i.opcode (resolve s x) (resolve s y) exact (s.cursor - 1)))

/-! ### Instructions -/

/-- LOAD with an address (41_load_store R94): the value is the hit line's, or the cell's on a miss, and with a sound cache the
cell's either way; the cell is marked used and not active; the cache is what the read path leaves. A malformed one is skipped.
It encodes as 0x01 and the address, high byte first. -/
def Obligations.LoadAddressEffect : Prop :=
  (∀ (s : State) (o1 o2 : Option Operand) (d : String) (a : Nat) (x : String),
    s.BankOk → s.mem.wf → (Instr.loadAddress o1 o2 (some d) a x).Wf s.cfg → d ∈ s.cfg.gprNames →
    ∃ (t : State) (v : Int), exec (.loadAddress o1 o2 (some d) a x) s = .next t ∧
      (∀ lv j l, s.cache.hitScan a = some (lv, j) → (s.cache.level lv).lines[j]? = some l → v = l.value) ∧
      (s.cache.hitScan a = none → v = s.mem.read a) ∧ (s.CacheOk → v = s.mem.read a) ∧
      Executed (.loadAddress o1 o2 (some d) a x) s t [⟨d, s.gpr d, v⟩] [] ∧ RegWritten s t d v ∧
      (∀ b, t.mem.cell b = if b = a then { s.mem.cell a with used := true } else s.mem.cell b) ∧
      t.cache = (s.cache.check s.mem s.cycle a).cache) ∧
  ∀ (o1 o2 : Option Operand) (d : Option String) (a : Nat) (x : String),
    (∀ s, (Instr.loadAddress o1 o2 d a x).Wf s.cfg → SkippedIfMalformed (.loadAddress o1 o2 d a x) s) ∧
    (a < 0x10000 → ∃ hi lo : Byte, (Instr.loadAddress o1 o2 d a x).encodeBytes Config.default = [0x01, hi, lo] ∧
      hi.toNat * 256 + lo.toNat = a)

/-- LOAD without an address (41_load_store R95), whatever operand2 is. A malformed one is skipped. It encodes as 0x01 alone, or
followed by two operand bytes when both operands are present. -/
def Obligations.LoadImmediateEffect : Prop :=
  (∀ (s : State) (o : Operand) (o2 : Option Operand) (d : String) (x : String),
    s.BankOk → (Instr.loadImmediate (some o) o2 (some d) x).Wf s.cfg → d ∈ s.cfg.gprNames → OperandMet s.cfg (some o) →
    (∀ n, o = .literal n → WritesRegister (.loadImmediate (some o) o2 (some d) x) s d n) ∧
    (∀ r, o = .registerRef r → WritesRegister (.loadImmediate (some o) o2 (some d) x) s d (s.gpr r))) ∧
  ∀ (o1 o2 : Option Operand) (d : Option String) (x : String),
    (∀ s, (Instr.loadImmediate o1 o2 d x).Wf s.cfg → SkippedIfMalformed (.loadImmediate o1 o2 d x) s) ∧
    (o2 = none → (Instr.loadImmediate o1 o2 d x).encodeBytes Config.default = [0x01]) ∧
    (∀ y z, o1 = some y → o2 = some z →
      (Instr.loadImmediate o1 o2 d x).encodeBytes Config.default = [0x01, y.byte, z.byte])

/-- STORE (41_load_store R96): the cell written, used and active, every other cell kept, no register touched; the cache is what the
write path leaves. A malformed one is skipped. It encodes as 0x02 and the address, high byte first. -/
def Obligations.StoreEffect : Prop :=
  (∀ (s : State) (o : Operand) (o2 : Option Operand) (d : Option String) (a : Nat) (x : String),
    s.mem.wf → (Instr.store (some o) o2 d (some a) x).Wf s.cfg → OperandMet s.cfg (some o) →
    ∃ (t : State) (v : Int), exec (.store (some o) o2 d (some a) x) s = .next t ∧
      (∀ n, o = .literal n → v = n) ∧ (∀ r, o = .registerRef r → v = s.gpr r) ∧
      Executed (.store (some o) o2 d (some a) x) s t [] [⟨a, s.mem.read a, v⟩] ∧ t.gprs = s.gprs ∧
      (∀ b, t.mem.cell b = if b = a then ⟨v, true, true⟩ else s.mem.cell b) ∧
      t.cache = s.cache.update s.cycle a v) ∧
  ∀ (o1 o2 : Option Operand) (d : Option String) (a : Option Nat) (x : String),
    (∀ s, (Instr.store o1 o2 d a x).Wf s.cfg → SkippedIfMalformed (.store o1 o2 d a x) s) ∧
    (∀ b, a = some b → b < 0x10000 → ∃ hi lo : Byte,
      (Instr.store o1 o2 d a x).encodeBytes Config.default = [0x02, hi, lo] ∧ hi.toNat * 256 + lo.toNat = b)

/-- ADD (42_arithmetic R99): `fit` of the sum is written. A malformed one is skipped. Its first byte is 0x03. -/
def Obligations.AddWritesTheSum : Prop :=
  (∀ (s : State) (x y : Operand) (d : String) (a : Option Nat) (u : String),
    1 ≤ s.cfg.wordBits → s.BankOk → (Instr.add (some x) (some y) (some d) a u).Wf s.cfg → d ∈ s.cfg.gprNames →
    OperandMet s.cfg (some x) → OperandMet s.cfg (some y) →
    WritesFit (.add (some x) (some y) (some d) a u) s .add d (resolve s x) (resolve s y) (resolve s x + resolve s y)) ∧
  ∀ (o1 o2 : Option Operand) (d : Option String) (a : Option Nat) (u : String),
    (∀ s, (Instr.add o1 o2 d a u).Wf s.cfg → SkippedIfMalformed (.add o1 o2 d a u) s) ∧
    ((Instr.add o1 o2 d a u).encodeBytes Config.default).head? = some 0x03

/-- SUB (42_arithmetic R100): `fit` of the difference is written. A malformed one is skipped. Its first byte is 0x04. -/
def Obligations.SubWritesTheDifference : Prop :=
  (∀ (s : State) (x y : Operand) (d : String) (a : Option Nat) (u : String),
    1 ≤ s.cfg.wordBits → s.BankOk → (Instr.sub (some x) (some y) (some d) a u).Wf s.cfg → d ∈ s.cfg.gprNames →
    OperandMet s.cfg (some x) → OperandMet s.cfg (some y) →
    WritesFit (.sub (some x) (some y) (some d) a u) s .sub d (resolve s x) (resolve s y) (resolve s x - resolve s y)) ∧
  ∀ (o1 o2 : Option Operand) (d : Option String) (a : Option Nat) (u : String),
    (∀ s, (Instr.sub o1 o2 d a u).Wf s.cfg → SkippedIfMalformed (.sub o1 o2 d a u) s) ∧
    ((Instr.sub o1 o2 d a u).encodeBytes Config.default).head? = some 0x04

/-- MUL (42_arithmetic R101): `fit` of the exact product is written. A malformed one is skipped. Its first byte is 0x05. -/
def Obligations.MulWritesTheProduct : Prop :=
  (∀ (s : State) (x y : Operand) (d : String) (a : Option Nat) (u : String),
    1 ≤ s.cfg.wordBits → s.BankOk → (Instr.mul (some x) (some y) (some d) a u).Wf s.cfg → d ∈ s.cfg.gprNames →
    OperandMet s.cfg (some x) → OperandMet s.cfg (some y) →
    WritesFit (.mul (some x) (some y) (some d) a u) s .mul d (resolve s x) (resolve s y) (resolve s x * resolve s y)) ∧
  ∀ (o1 o2 : Option Operand) (d : Option String) (a : Option Nat) (u : String),
    (∀ s, (Instr.mul o1 o2 d a u).Wf s.cfg → SkippedIfMalformed (.mul o1 o2 d a u) s) ∧
    ((Instr.mul o1 o2 d a u).encodeBytes Config.default).head? = some 0x05

/-- DIV (42_arithmetic R102): there is a quotient rounded toward minus infinity, 0 for a zero divisor, and `fit` of it is
written; it overflows only for the least dividend with divisor -1. A malformed one is skipped. Its first byte is 0x06. -/
def Obligations.DivWritesTheFloor : Prop :=
  (∀ (s : State) (x y : Operand) (d : String) (a : Option Nat) (u : String),
    1 ≤ s.cfg.wordBits → s.BankOk → (Instr.div (some x) (some y) (some d) a u).Wf s.cfg → d ∈ s.cfg.gprNames →
    OperandMet s.cfg (some x) → OperandMet s.cfg (some y) →
    ∃ q, IsFloorQuotient (resolve s x) (resolve s y) q ∧
      WritesFit (.div (some x) (some y) (some d) a u) s .div d (resolve s x) (resolve s y) q ∧
      (Word.InRange s.cfg.wordBits (resolve s x) → Word.InRange s.cfg.wordBits (resolve s y) →
        (¬ Word.InRange s.cfg.wordBits q ↔ resolve s x = -2 ^ (s.cfg.wordBits - 1) ∧ resolve s y = -1))) ∧
  ∀ (o1 o2 : Option Operand) (d : Option String) (a : Option Nat) (u : String),
    (∀ s, (Instr.div o1 o2 d a u).Wf s.cfg → SkippedIfMalformed (.div o1 o2 d a u) s) ∧
    ((Instr.div o1 o2 d a u).encodeBytes Config.default).head? = some 0x06

/-- MOV (43_move R103). A malformed one is skipped. Its first byte is 0x0B, alone when operand2 and address are absent. -/
def Obligations.MovEffect : Prop :=
  (∀ (s : State) (o : Operand) (o2 : Option Operand) (d : String) (a : Option Nat) (x : String),
    s.BankOk → (Instr.mov (some o) o2 (some d) a x).Wf s.cfg → d ∈ s.cfg.gprNames → OperandMet s.cfg (some o) →
    (∀ n, o = .literal n → WritesRegister (.mov (some o) o2 (some d) a x) s d n) ∧
    (∀ r, o = .registerRef r → WritesRegister (.mov (some o) o2 (some d) a x) s d (s.gpr r))) ∧
  ∀ (o1 o2 : Option Operand) (d : Option String) (a : Option Nat) (x : String),
    (∀ s, (Instr.mov o1 o2 d a x).Wf s.cfg → SkippedIfMalformed (.mov o1 o2 d a x) s) ∧
    ((Instr.mov o1 o2 d a x).encodeBytes Config.default).head? = some 0x0B ∧
    (o2 = none → a = none → (Instr.mov o1 o2 d a x).encodeBytes Config.default = [0x0B])

/-- JMP, JZ, JNZ and HALT are no-ops whatever their fields and whatever the state, also under STRICT; their first bytes are 0x07 to
0x0A, alone when there is no field (44_control R105 to R108). -/
def Obligations.ControlOpcodesAreNoOps : Prop :=
  (∀ (s : State) (o1 o2 : Option Operand) (d : Option String) (a : Option Nat) (x : String),
    ((Instr.jmp o1 o2 d a x).Wf s.cfg → Skips (.jmp o1 o2 d a x) s) ∧
    ((Instr.jz o1 o2 d a x).Wf s.cfg → Skips (.jz o1 o2 d a x) s) ∧
    ((Instr.jnz o1 o2 d a x).Wf s.cfg → Skips (.jnz o1 o2 d a x) s) ∧
    ((Instr.halt o1 o2 d a x).Wf s.cfg → Skips (.halt o1 o2 d a x) s)) ∧
  ∀ (o1 o2 : Option Operand) (d : Option String) (a : Option Nat) (x : String),
    ((Instr.jmp o1 o2 d a x).encodeBytes Config.default).head? = some 0x07 ∧
    ((Instr.jz o1 o2 d a x).encodeBytes Config.default).head? = some 0x08 ∧
    ((Instr.jnz o1 o2 d a x).encodeBytes Config.default).head? = some 0x09 ∧
    ((Instr.halt o1 o2 d a x).encodeBytes Config.default).head? = some 0x0A ∧
    (Instr.jmp none none d none x).encodeBytes Config.default = [0x07] ∧
    (Instr.halt none none d none x).encodeBytes Config.default = [0x0A]

/-! ### The cache paths -/

/-- The hit scan (20_memory R48): L1, then L2, then L3, stopping at the first level that has a valid line of the address; that line
is the only one of its level where no address is in two of them; both paths go by it. -/
def Obligations.HitScanFindsTheFirstLevel : Prop :=
  ∀ (c : Cache) (a : Nat),
    (∀ lv j, c.hitScan a = some (lv, j) →
      (∃ l, (c.level lv).lines[j]? = some l ∧ l.valid = true ∧ l.address = a) ∧
      (∀ k, (k = Level.l1 ∧ lv ≠ .l1 ∨ k = .l2 ∧ lv = .l3) → ∀ l ∈ (c.level k).lines, l.valid = true → l.address ≠ a) ∧
      (c.Unique → ∀ n l, (c.level lv).lines[n]? = some l → l.valid = true → l.address = a → n = j)) ∧
    (c.hitScan a = none ↔ ∀ lv, ∀ l ∈ (c.level lv).lines, l.valid = true → l.address ≠ a) ∧
    (∀ m now, (c.check m now a).hit = (c.hitScan a).isSome) ∧
    (∀ now v lv j, c.hitScan a = some (lv, j) → ((c.update now a v).level lv).hits = (c.level lv).hits + 1)

/-- The victim (20_memory R49): the first invalid line, else the first line with the smallest stamp. -/
def Obligations.VictimIsFirstInvalidElseOldest : Prop :=
  ∀ lines : List Line, lines ≠ [] →
    ((∃ l ∈ lines, l.valid = false) →
      (∃ l, lines[victim lines]? = some l ∧ l.valid = false) ∧
      ∀ j l, j < victim lines → lines[j]? = some l → l.valid = true) ∧
    ((∀ l ∈ lines, l.valid = true) →
      ∃ l, lines[victim lines]? = some l ∧ (∀ k ∈ lines, l.stamp ≤ k.stamp) ∧
        ∀ j k, j < victim lines → lines[j]? = some k → l.stamp < k.stamp)

/-- The read path (20_memory R47, R50), on a hit and on a miss. -/
def Obligations.ReadPathEffect : Prop :=
  ∀ (c : Cache) (m : Memory) (now a : Nat),
    let r := c.check m now a
    (∀ lv j l, c.hitScan a = some (lv, j) → (c.level lv).lines[j]? = some l →
      r.level = lv ∧ r.hit = true ∧ r.value = l.value ∧
      r.cache.level lv = ⟨(c.level lv).lines.set j { l with stamp := now }, (c.level lv).hits + 1, (c.level lv).misses,
        ⟨true, true, some a⟩⟩ ∧
      ∀ k, k ≠ lv → r.cache.level k = { c.level k with status := ⟨false, false, none⟩ }) ∧
    (c.hitScan a = none →
      r.level = .l1 ∧ r.hit = false ∧ r.value = m.read a ∧
      r.cache.level .l1 = ⟨c.l1.lines.set (victim c.l1.lines) ⟨a, m.read a, true, false, now⟩, c.l1.hits, c.l1.misses + 1,
        ⟨true, false, some a⟩⟩ ∧
      ∀ k, k ≠ .l1 → r.cache.level k = { c.level k with status := ⟨false, false, none⟩ })

/-- The write path (20_memory R47, R51), on a hit and on a miss. -/
def Obligations.WritePathEffect : Prop :=
  ∀ (c : Cache) (now a : Nat) (v : Int),
    let r := c.update now a v
    (∀ lv j l, c.hitScan a = some (lv, j) → (c.level lv).lines[j]? = some l →
      r.level lv = ⟨(c.level lv).lines.set j ⟨l.address, v, l.valid, true, now⟩, (c.level lv).hits + 1, (c.level lv).misses,
        ⟨true, true, some a⟩⟩ ∧
      ∀ k, k ≠ lv → r.level k = { c.level k with status := ⟨false, false, none⟩ }) ∧
    (c.hitScan a = none →
      r.level .l1 = ⟨c.l1.lines.set (victim c.l1.lines) ⟨a, v, true, true, now⟩, c.l1.hits, c.l1.misses + 1,
        ⟨true, false, some a⟩⟩ ∧
      ∀ k, k ≠ .l1 → r.level k = { c.level k with status := ⟨false, false, none⟩ })

/-- The LRU property (20_memory R57): reads of four distinct addresses in four successive cycles, with an empty L1 of three lines
and no line in L2 and L3; the fourth evicts the first. -/
def Obligations.FourthReadEvictsTheFirst : Prop :=
  ∀ (c : Cache) (m : Memory) (now a b e f : Nat), [a, b, e, f].Nodup → c.l1.lines.length = 3 →
    (∀ l ∈ c.l1.lines, l.valid = false) → c.OuterEmpty →
    let c1 := (c.check m now a).cache
    let c2 := (c1.check m (now + 1) b).cache
    let c3 := (c2.check m (now + 2) e).cache
    let c4 := (c3.check m (now + 3) f).cache
    c3.l1.lines = [⟨a, m.read a, true, false, now⟩, ⟨b, m.read b, true, false, now + 1⟩, ⟨e, m.read e, true, false, now + 2⟩] ∧
    c4.l1.lines = [⟨f, m.read f, true, false, now + 3⟩, ⟨b, m.read b, true, false, now + 1⟩, ⟨e, m.read e, true, false, now + 2⟩] ∧
    c4.l1.misses = c.l1.misses + 4 ∧ c4.l1.hits = c.l1.hits

/-! ### What steps keep -/

/-- Every step keeps the memory's canonical form and its addresses below MEM_SIZE (10_state R30). -/
def Obligations.StepKeepsMemoryCanonical : Prop :=
  ∀ s t : State, s.MemOk → step s = .next t → t.MemOk

/-- Every register, cell, line and recorded bus value stays in `Word` (00_scope R16; 10_state R18, R30, R34, R36; 93 I9). -/
def Obligations.StepKeepsValuesInWord : Prop :=
  ∀ s t : State, 1 ≤ s.cfg.wordBits → s.WordsOk → step s = .next t → t.WordsOk

/-- Every step keeps the cache sound: an address in at most one valid line of a level, L2 and L3 empty and uncounted, every valid
line holding its cell's value (10_state R35; 20_memory R52, R53, R55, R56). -/
def Obligations.StepKeepsCacheSound : Prop :=
  ∀ s t : State, s.CacheOk → step s = .next t → t.CacheOk

/-- Every step keeps the stamps of L1 distinct and past (20_memory R59). -/
def Obligations.StepKeepsStampsDistinct : Prop :=
  ∀ s t : State, s.StampsOk → step s = .next t → t.StampsOk

/-- Every step keeps `ir`, the cursor and the program in agreement, and in such a state EXECUTE always has a record (10_state R23,
R24; 40_cycle R85). -/
def Obligations.StepKeepsFetchedRecord : Prop :=
  ∀ s : State, s.FetchOk → step s ≠ .fault .noInstruction ∧ ∀ t, step s = .next t → t.FetchOk

/-- Registers and cells are active only between an EXECUTE and its STORE phase (10_state R21, R32). -/
def Obligations.StepKeepsFlagsTransient : Prop :=
  ∀ s t : State, s.FlagsOk → step s = .next t → t.FlagsOk

/-- The ids of the bus log are its positions, and `cycle` is the number of FETCHes (10_state R36, 60_exceptions R122). -/
def Obligations.StepKeepsLogsNumbered : Prop :=
  ∀ s t : State, s.BusIdsOk ∧ s.CycleOk → step s = .next t → t.BusIdsOk ∧ t.CycleOk

/-- The reset state has every invariant above. -/
def Obligations.ResetHasTheInvariants : Prop := State.reset.Sound ∧ State.reset.FlagsOk

/-- Whatever the host calls, in whatever order, on a newly built machine with any parameters the spec allows, the state has every
invariant that loading a program in mid-instruction cannot break (10_state R20, R30, R35, R36; 20_memory R53, R55, R59;
60_exceptions R126). -/
def Obligations.EveryReachableStateIsSound : Prop :=
  ∀ (c : Config) (cs : List HostCall), c.Wf → ((CoreMachine.construct c).calls cs).state.Sound

/-- Fail-soft (60_exceptions R110, R111): in a sound state no step is refused, and with `OVERFLOW = wrap` and `STRICT = false` none
faults either. -/
def Obligations.SoundMachineFailsSoft : Prop :=
  ∀ s : State, s.Sound →
    (∀ r, step s ≠ .refused r) ∧ (s.cfg.overflow = .wrap → s.cfg.strict = false → SafeStep s)

/-- No step changes the program, the parameters, the set of register names or the number of cache lines, and the bus log and the
history only grow (10_state R20, R27, R33, R37, R38; 20_memory R63). -/
def Obligations.StepNeverRewritesProgramOrLogs : Prop :=
  ∀ s t : State, step s = .next t →
    t.program = s.program ∧ t.cfg = s.cfg ∧ t.gprs.names = s.gprs.names ∧
    (∀ lv, (t.cache.level lv).lines.length = (s.cache.level lv).lines.length) ∧
    s.bus <+: t.bus ∧ s.history <+: t.history

/-- A memory value changes only by the EXECUTE of a STORE to its address, and a used flag is never cleared (20_memory R41,
10_state R31). -/
def Obligations.OnlyStoreWritesMemory : Prop :=
  ∀ (s t : State) (a : Nat), s.mem.wf → step s = .next t →
    (t.mem.read a ≠ s.mem.read a → StoresTo s a) ∧ ((s.mem.cell a).used = true → (t.mem.cell a).used = true)

/-- A general register's value changes only by an EXECUTE whose record has it as destination and an opcode among LOAD, MOV, ADD,
SUB, MUL, DIV; PC changes only by FETCH (10_state R19, R22). -/
def Obligations.OnlyDestinationsAndPcChange : Prop :=
  ∀ (s t : State) (r : String), step s = .next t →
    (t.gpr r ≠ s.gpr r → s.phase = .decode ∧ ∃ i, s.ir = some i ∧ i.record.destination = some r ∧
      i.opcode ∈ [Opcode.load, .mov, .add, .sub, .mul, .div]) ∧
    (t.pc.value ≠ s.pc.value → t.phase = .fetch)

/-- In a state with a sound cache LOAD gives the cell's value, whether the read hits or misses (20_memory R55). -/
def Obligations.LoadGivesTheMemoryValue : Prop :=
  ∀ (s : State) (o1 o2 : Option Operand) (d : String) (a : Nat) (x : String),
    s.CacheOk → s.BankOk → (Instr.loadAddress o1 o2 (some d) a x).Wf s.cfg → d ∈ s.cfg.gprNames →
    ∃ t, exec (.loadAddress o1 o2 (some d) a x) s = .next t ∧ t.gpr d = s.mem.read a ∧ t.mem.read a = s.mem.read a

/-- Write-through (20_memory R58): after a STORE of `v` to `a`, and any host calls but `reset` whose steps execute no other STORE
to `a`, a LOAD of `a` gives `v`. -/
def Obligations.LoadAfterStoreGivesTheStoredValue : Prop :=
  ∀ (s s1 t : State) (rs : List Refusal) (cs : List HostCall) (o : Operand) (p1 p2 q : Option Operand) (e : Option String)
    (d : String) (a : Nat) (x y : String),
    let m : CoreMachine := ⟨s1, none, rs⟩
    s.CacheOk → s.BankOk → OperandMet s.cfg (some o) → d ∈ s.cfg.gprNames →
    exec (.store (some o) q e (some a) x) s = .next s1 → HostCall.reset ∉ cs →
    (∀ before after, cs = before ++ .step :: after → ¬ StoresTo (m.calls before).state a) →
    exec (.loadAddress p1 p2 (some d) a y) (m.calls cs).state = .next t → t.gpr d = resolve s o

/-- The core reads no draw: two machines that agree in everything but IR's value, the cache status, the values, active flags and
timestamps of bus records and the draws taken agree so after every sequence of host calls: the history, the fault and refusal
marks and the bus records' ids, types and labels too (derived from 40_cycle R92; that EXEC_BUS reads no draw is log 3's deduction
from it). -/
def Obligations.HostCallsIgnoreDraws : Prop :=
  ∀ (cs : List HostCall) (m m' : CoreMachine), m.view = m'.view → (m.calls cs).view = (m'.calls cs).view
end

