-- ==== Sys2Proof/Laws/Bank.lean ====
section
/-! SUPPORT. The laws of the register bank (10_state R18, R20): what a read gives after a write, and that no operation changes
the set of names. -/

namespace Sys2Proof.Machine

theorem Bank.get_cons (n : String) (x : Reg) (b : Bank) (r : String) :
    Bank.get ((n, x) :: b) r = if n = r then x else Bank.get b r := rfl

theorem Bank.put_cons (n : String) (y : Reg) (b : Bank) (r : String) (x : Reg) :
    Bank.put ((n, y) :: b) r x = (n, if n = r then x else y) :: Bank.put b r x := by
  simp only [Bank.put, List.map_cons]
  split_ifs <;> rfl

@[simp] theorem Bank.names_put (b : Bank) (r : String) (x : Reg) : (b.put r x).names = b.names := by
  simp only [Bank.names, Bank.put, List.map_map]
  refine List.map_congr_left fun p _ => ?_
  simp only [Function.comp_apply]
  split_ifs <;> rfl

@[simp] theorem Bank.names_clearActive (b : Bank) : b.clearActive.names = b.names := by
  simp [Bank.names, Bank.clearActive, List.map_map, Function.comp_def]

/-- A register of the bank reads as what was written to it. -/
theorem Bank.get_put_self {b : Bank} {r : String} (h : r ∈ b.names) (x : Reg) : (b.put r x).get r = x := by
  induction b with
  | nil => simp [Bank.names] at h
  | cons p b ih =>
    obtain ⟨n, y⟩ := p
    rw [Bank.put_cons, Bank.get_cons]
    split_ifs with h1
    · rfl
    · refine ih ?_
      simp only [Bank.names, List.map_cons, List.mem_cons] at h
      rcases h with h | h
      · exact absurd h.symm h1
      · exact h

/-- A write leaves every other register alone, in any bank. -/
theorem Bank.get_put_other (b : Bank) {r q : String} (h : q ≠ r) (x : Reg) : (b.put r x).get q = b.get q := by
  induction b with
  | nil => rfl
  | cons p b ih =>
    obtain ⟨n, y⟩ := p
    rw [Bank.put_cons, Bank.get_cons, Bank.get_cons, ih]
    split_ifs with h1 h2
    · exact absurd (h1.symm.trans h2) h
    · rfl
    · rfl

/-- What a write lists: an entry of before, or the written register under a name of before. -/
theorem Bank.mem_put {b : Bank} {r : String} {x : Reg} {p : String × Reg} (h : p ∈ b.put r x) :
    p = (r, x) ∨ p ∈ b := by
  obtain ⟨q, hq, rfl⟩ := List.mem_map.1 h
  split_ifs with h1
  · exact .inl (by rw [h1])
  · exact .inr hq

/-- Clearing the active flags keeps every value. -/
theorem Bank.get_clearActive (b : Bank) (r : String) : b.clearActive.get r = { b.get r with active := false } := by
  induction b with
  | nil => rfl
  | cons p b ih =>
    obtain ⟨n, y⟩ := p
    show Bank.get ((n, _) :: Bank.clearActive b) r = _
    rw [Bank.get_cons, Bank.get_cons, ih]
    split_ifs <;> rfl

/-- A read gives a register of the bank or a blank one. -/
theorem Bank.get_mem (b : Bank) (r : String) : (r, b.get r) ∈ b ∨ b.get r = Reg.blank := by
  induction b with
  | nil => exact .inr rfl
  | cons p b ih =>
    obtain ⟨n, y⟩ := p
    rw [Bank.get_cons]
    split_ifs with h
    · subst h; exact .inl (by simp)
    · exact ih.imp_left (List.mem_cons_of_mem _)

/-- `writeDest` writes its register and no other (40_cycle R88). -/
theorem writeDest_written {s t : State} {d : String} {v : Int} (h : d ∈ s.gprs.names)
    (ht : t.gprs = s.gprs.put d ⟨v, true⟩) : RegWritten s t d v where
  value := by unfold State.gpr; rw [ht, Bank.get_put_self h]
  active := by unfold State.gprActive; rw [ht, Bank.get_put_self h]
  others := fun r hr => by rw [ht, Bank.get_put_other _ hr]
  names := by rw [ht, Bank.names_put]

end Sys2Proof.Machine
end

