-- ==== Sys2Proof/Laws/Cache.lean ====
section
/-! SUPPORT. The laws of the cache paths (20_memory R47 to R51): what the hit scan answers, and the two cases of an access. -/

namespace Sys2Proof.Machine

@[simp] theorem Cache.clearStatus_lines (c : Cache) (lv : Level) : (c.clearStatus.level lv).lines = (c.level lv).lines := by
  cases lv <;> rfl
@[simp] theorem Cache.clearStatus_hits (c : Cache) (lv : Level) : (c.clearStatus.level lv).hits = (c.level lv).hits := by
  cases lv <;> rfl
@[simp] theorem Cache.clearStatus_misses (c : Cache) (lv : Level) :
    (c.clearStatus.level lv).misses = (c.level lv).misses := by
  cases lv <;> rfl
@[simp] theorem Cache.clearStatus_status (c : Cache) (lv : Level) :
    (c.clearStatus.level lv).status = LevelStatus.cleared := by
  cases lv <;> rfl

@[simp] theorem Cache.level_setLevel_self (c : Cache) (x : CacheLevel) (lv : Level) : (c.setLevel x lv).level lv = x := by
  cases lv <;> rfl

theorem Cache.level_setLevel_other (c : Cache) (x : CacheLevel) {lv k : Level} (h : lv ≠ k) :
    (c.setLevel x lv).level k = c.level k := by
  cases lv <;> cases k <;> first | rfl | exact absurd rfl h

@[simp] theorem Cache.find_clearStatus (c : Cache) (lv : Level) (a : Nat) :
    (c.clearStatus.level lv).find a = (c.level lv).find a := by
  cases lv <;> rfl

/-- The status plays no part in the hit scan. -/
@[simp] theorem Cache.hitScan_clearStatus (c : Cache) (a : Nat) : c.clearStatus.hitScan a = c.hitScan a := rfl

theorem Line.holds_iff (l : Line) (a : Nat) : l.holds a = true ↔ l.valid = true ∧ l.address = a := by
  simp [Line.holds]

/-- A line that the scan of a level finds is a valid line of that address, the first one. -/
theorem CacheLevel.find_some {x : CacheLevel} {a j : Nat} (h : x.find a = some j) :
    ∃ l, x.lines[j]? = some l ∧ l.valid = true ∧ l.address = a := by
  obtain ⟨hj, hp, -⟩ := List.findIdx?_eq_some_iff_getElem.1 h
  exact ⟨x.lines[j], List.getElem?_eq_getElem hj, (Line.holds_iff _ _).1 hp⟩

theorem CacheLevel.find_none {x : CacheLevel} {a : Nat} (h : x.find a = none) :
    ∀ l ∈ x.lines, l.valid = true → l.address ≠ a := by
  intro l hl hv ha
  have := List.findIdx?_eq_none_iff.1 h l hl
  rw [(Line.holds_iff l a).2 ⟨hv, ha⟩] at this
  exact absurd this (by decide)

theorem CacheLevel.find_of_invalid {x : CacheLevel} (h : ∀ l ∈ x.lines, l.valid = false) (a : Nat) : x.find a = none := by
  refine List.findIdx?_eq_none_iff.2 fun l hl => ?_
  simp [Line.holds, h l hl]

/-- A hit is at a level whose own scan finds the line. -/
theorem Cache.hitScan_some {c : Cache} {a : Nat} {lv : Level} {j : Nat} (h : c.hitScan a = some (lv, j)) :
    (c.level lv).find a = some j := by
  unfold Cache.hitScan at h
  split at h
  · simp only [Option.some.injEq, Prod.mk.injEq] at h; obtain ⟨rfl, rfl⟩ := h; assumption
  · split at h
    · simp only [Option.some.injEq, Prod.mk.injEq] at h; obtain ⟨rfl, rfl⟩ := h; assumption
    · split at h
      · simp only [Option.some.injEq, Prod.mk.injEq] at h; obtain ⟨rfl, rfl⟩ := h; assumption
      · exact absurd h (by simp)

/-- A miss is a miss in every level. -/
theorem Cache.hitScan_none {c : Cache} {a : Nat} : c.hitScan a = none ↔ ∀ lv, (c.level lv).find a = none := by
  constructor
  · intro h
    unfold Cache.hitScan at h
    split at h
    · exact absurd h (by simp)
    · split at h
      · exact absurd h (by simp)
      · split at h
        · exact absurd h (by simp)
        · intro lv; cases lv <;> assumption
  · intro h
    have h1 : c.l1.find a = none := h .l1
    have h2 : c.l2.find a = none := h .l2
    have h3 : c.l3.find a = none := h .l3
    simp [Cache.hitScan, h1, h2, h3]

/-- With empty outer levels the hit scan is the scan of L1. -/
theorem Cache.hitScan_of_outerEmpty {c : Cache} (h : c.OuterEmpty) (a : Nat) :
    c.hitScan a = (c.l1.find a).map (fun j => (.l1, j)) := by
  have h2 := CacheLevel.find_of_invalid h.1 a
  have h3 := CacheLevel.find_of_invalid h.2.1 a
  unfold Cache.hitScan
  cases c.l1.find a <;> simp [h2, h3]

/-- The read path on a hit (20_memory R50). -/
theorem Cache.check_hit {c : Cache} {a : Nat} {lv : Level} {j : Nat} (h : c.hitScan a = some (lv, j)) (m : Memory)
    (now : Nat) :
    c.check m now a = ⟨lv, true, ((c.level lv).lines.getD j Line.blank).value,
      c.clearStatus.setLevel ((c.clearStatus.level lv).onHit j now a id) lv⟩ := by
  simp [Cache.check, h]

/-- The read path on a miss (20_memory R50). -/
theorem Cache.check_miss {c : Cache} {a : Nat} (h : c.hitScan a = none) (m : Memory) (now : Nat) :
    c.check m now a = ⟨.l1, false, m.read a,
      { c.clearStatus with l1 := c.clearStatus.l1.onMiss ⟨a, m.read a, true, false, now⟩ }⟩ := by
  simp [Cache.check, h]

/-- The write path on a hit (20_memory R51). -/
theorem Cache.update_hit {c : Cache} {a : Nat} {lv : Level} {j : Nat} (h : c.hitScan a = some (lv, j)) (now : Nat)
    (v : Int) :
    c.update now a v = c.clearStatus.setLevel
      ((c.clearStatus.level lv).onHit j now a (fun l => { l with value := v, dirty := true })) lv := by
  simp [Cache.update, h]

/-- The write path on a miss (20_memory R51). -/
theorem Cache.update_miss {c : Cache} {a : Nat} (h : c.hitScan a = none) (now : Nat) (v : Int) :
    c.update now a v = { c.clearStatus with l1 := c.clearStatus.l1.onMiss ⟨a, v, true, true, now⟩ } := by
  simp [Cache.update, h]

@[simp] theorem CacheLevel.length_onHit (x : CacheLevel) (j now a : Nat) (f : Line → Line) :
    (x.onHit j now a f).lines.length = x.lines.length := by
  simp [CacheLevel.onHit]

@[simp] theorem CacheLevel.length_onMiss (x : CacheLevel) (l : Line) : (x.onMiss l).lines.length = x.lines.length := by
  simp [CacheLevel.onMiss]

/-- A line after a hit: one of before, or the hit line touched and stamped. -/
theorem CacheLevel.mem_onHit {x : CacheLevel} {j now a : Nat} {f : Line → Line} {l : Line}
    (h : l ∈ (x.onHit j now a f).lines) :
    l ∈ x.lines ∨ ∃ k, x.lines[j]? = some k ∧ l = { f k with stamp := now } := by
  obtain ⟨n, hn⟩ := List.mem_iff_getElem?.1 h
  simp only [CacheLevel.onHit, List.getElem?_modify] at hn
  split_ifs at hn with hj
  · subst hj
    cases hk : x.lines[j]? with
    | none => rw [hk] at hn; exact absurd hn (by simp)
    | some k =>
      rw [hk] at hn
      exact .inr ⟨k, rfl, by simpa using hn.symm⟩
  · exact .inl (List.mem_iff_getElem?.2 ⟨n, by simpa using hn⟩)

/-- A line of L1 after a miss: one of before, or the filled one. -/
theorem CacheLevel.mem_onMiss {x : CacheLevel} {fill l : Line} (h : l ∈ (x.onMiss fill).lines) : l ∈ x.lines ∨ l = fill :=
  List.mem_or_eq_of_mem_set h

end Sys2Proof.Machine
end

