-- ==== Sys2Proof/Laws/State.lean ====
section
/-! SUPPORT. One lemma per field and update of the state, each true by unfolding the update once, so that no later proof
unfolds a record update. -/

namespace Sys2Proof.Machine


/-! ### `State.appendBus` -/

@[simp] theorem State.appendBus_cfg (s : State) (ts : List BusTransfer) : (s.appendBus ts).cfg = s.cfg := rfl
@[simp] theorem State.appendBus_gprs (s : State) (ts : List BusTransfer) : (s.appendBus ts).gprs = s.gprs := rfl
@[simp] theorem State.appendBus_pc (s : State) (ts : List BusTransfer) : (s.appendBus ts).pc = s.pc := rfl
@[simp] theorem State.appendBus_irReg (s : State) (ts : List BusTransfer) : (s.appendBus ts).irReg = s.irReg := rfl
@[simp] theorem State.appendBus_ir (s : State) (ts : List BusTransfer) : (s.appendBus ts).ir = s.ir := rfl
@[simp] theorem State.appendBus_cursor (s : State) (ts : List BusTransfer) : (s.appendBus ts).cursor = s.cursor := rfl
@[simp] theorem State.appendBus_program (s : State) (ts : List BusTransfer) : (s.appendBus ts).program = s.program := rfl
@[simp] theorem State.appendBus_phase (s : State) (ts : List BusTransfer) : (s.appendBus ts).phase = s.phase := rfl
@[simp] theorem State.appendBus_cycle (s : State) (ts : List BusTransfer) : (s.appendBus ts).cycle = s.cycle := rfl
@[simp] theorem State.appendBus_mem (s : State) (ts : List BusTransfer) : (s.appendBus ts).mem = s.mem := rfl
@[simp] theorem State.appendBus_cache (s : State) (ts : List BusTransfer) : (s.appendBus ts).cache = s.cache := rfl
@[simp] theorem State.appendBus_bus (s : State) (ts : List BusTransfer) : (s.appendBus ts).bus = s.bus ++ busRecords s.cfg s.bus.length s.draws ts := rfl
@[simp] theorem State.appendBus_history (s : State) (ts : List BusTransfer) : (s.appendBus ts).history = s.history := rfl
@[simp] theorem State.appendBus_draws (s : State) (ts : List BusTransfer) : (s.appendBus ts).draws = s.draws + ts.length := rfl

/-! ### `State.endPhase` -/

@[simp] theorem State.endPhase_cfg (s : State) (p : Phase) (r : List RegDelta) (m : List MemDelta) : (s.endPhase p r m).cfg = s.cfg := rfl
@[simp] theorem State.endPhase_gprs (s : State) (p : Phase) (r : List RegDelta) (m : List MemDelta) : (s.endPhase p r m).gprs = s.gprs := rfl
@[simp] theorem State.endPhase_pc (s : State) (p : Phase) (r : List RegDelta) (m : List MemDelta) : (s.endPhase p r m).pc = s.pc := rfl
@[simp] theorem State.endPhase_irReg (s : State) (p : Phase) (r : List RegDelta) (m : List MemDelta) : (s.endPhase p r m).irReg = s.irReg := rfl
@[simp] theorem State.endPhase_ir (s : State) (p : Phase) (r : List RegDelta) (m : List MemDelta) : (s.endPhase p r m).ir = s.ir := rfl
@[simp] theorem State.endPhase_cursor (s : State) (p : Phase) (r : List RegDelta) (m : List MemDelta) : (s.endPhase p r m).cursor = s.cursor := rfl
@[simp] theorem State.endPhase_program (s : State) (p : Phase) (r : List RegDelta) (m : List MemDelta) : (s.endPhase p r m).program = s.program := rfl
@[simp] theorem State.endPhase_phase (s : State) (p : Phase) (r : List RegDelta) (m : List MemDelta) : (s.endPhase p r m).phase = p := rfl
@[simp] theorem State.endPhase_cycle (s : State) (p : Phase) (r : List RegDelta) (m : List MemDelta) : (s.endPhase p r m).cycle = s.cycle := rfl
@[simp] theorem State.endPhase_mem (s : State) (p : Phase) (r : List RegDelta) (m : List MemDelta) : (s.endPhase p r m).mem = s.mem := rfl
@[simp] theorem State.endPhase_cache (s : State) (p : Phase) (r : List RegDelta) (m : List MemDelta) : (s.endPhase p r m).cache = s.cache := rfl
@[simp] theorem State.endPhase_bus (s : State) (p : Phase) (r : List RegDelta) (m : List MemDelta) : (s.endPhase p r m).bus = s.bus := rfl
@[simp] theorem State.endPhase_history (s : State) (p : Phase) (r : List RegDelta) (m : List MemDelta) : (s.endPhase p r m).history = s.history ++ [⟨s.cycle, p, s.ir, r, m⟩] := rfl
@[simp] theorem State.endPhase_draws (s : State) (p : Phase) (r : List RegDelta) (m : List MemDelta) : (s.endPhase p r m).draws = s.draws := rfl

/-! ### `finishExecute` -/

@[simp] theorem finishExecute_cfg (ts : List BusTransfer) (e : Effect) : (finishExecute ts e).cfg = e.state.cfg := rfl
@[simp] theorem finishExecute_gprs (ts : List BusTransfer) (e : Effect) : (finishExecute ts e).gprs = e.state.gprs := rfl
@[simp] theorem finishExecute_pc (ts : List BusTransfer) (e : Effect) : (finishExecute ts e).pc = e.state.pc := rfl
@[simp] theorem finishExecute_irReg (ts : List BusTransfer) (e : Effect) : (finishExecute ts e).irReg = e.state.irReg := rfl
@[simp] theorem finishExecute_ir (ts : List BusTransfer) (e : Effect) : (finishExecute ts e).ir = e.state.ir := rfl
@[simp] theorem finishExecute_cursor (ts : List BusTransfer) (e : Effect) : (finishExecute ts e).cursor = e.state.cursor := rfl
@[simp] theorem finishExecute_program (ts : List BusTransfer) (e : Effect) : (finishExecute ts e).program = e.state.program := rfl
@[simp] theorem finishExecute_phase (ts : List BusTransfer) (e : Effect) : (finishExecute ts e).phase = .execute := rfl
@[simp] theorem finishExecute_cycle (ts : List BusTransfer) (e : Effect) : (finishExecute ts e).cycle = e.state.cycle := rfl
@[simp] theorem finishExecute_mem (ts : List BusTransfer) (e : Effect) : (finishExecute ts e).mem = e.state.mem := rfl
@[simp] theorem finishExecute_cache (ts : List BusTransfer) (e : Effect) : (finishExecute ts e).cache = e.state.cache := rfl
@[simp] theorem finishExecute_bus (ts : List BusTransfer) (e : Effect) : (finishExecute ts e).bus = e.state.bus ++ busRecords e.state.cfg e.state.bus.length e.state.draws ts := rfl
@[simp] theorem finishExecute_history (ts : List BusTransfer) (e : Effect) : (finishExecute ts e).history = e.state.history ++ [⟨e.state.cycle, .execute, e.state.ir, e.regDeltas, e.memDeltas⟩] := rfl
@[simp] theorem finishExecute_draws (ts : List BusTransfer) (e : Effect) : (finishExecute ts e).draws = e.state.draws + ts.length := rfl

/-! ### `skip`, `writeDest`, `writeMem`, `loadFromCell`, `storeToCell` -/

@[simp] theorem skip_cfg (s : State) : (skip s).state.cfg = s.cfg := rfl
@[simp] theorem skip_gprs (s : State) : (skip s).state.gprs = s.gprs := rfl
@[simp] theorem skip_pc (s : State) : (skip s).state.pc = s.pc := rfl
@[simp] theorem skip_irReg (s : State) : (skip s).state.irReg = s.irReg := rfl
@[simp] theorem skip_ir (s : State) : (skip s).state.ir = s.ir := rfl
@[simp] theorem skip_cursor (s : State) : (skip s).state.cursor = s.cursor := rfl
@[simp] theorem skip_program (s : State) : (skip s).state.program = s.program := rfl
@[simp] theorem skip_phase (s : State) : (skip s).state.phase = s.phase := rfl
@[simp] theorem skip_cycle (s : State) : (skip s).state.cycle = s.cycle := rfl
@[simp] theorem skip_mem (s : State) : (skip s).state.mem = s.mem := rfl
@[simp] theorem skip_cache (s : State) : (skip s).state.cache = s.cache := rfl
@[simp] theorem skip_bus (s : State) : (skip s).state.bus = s.bus := rfl
@[simp] theorem skip_history (s : State) : (skip s).state.history = s.history := rfl
@[simp] theorem skip_draws (s : State) : (skip s).state.draws = s.draws := rfl
@[simp] theorem skip_regDeltas (s : State) : (skip s).regDeltas = [] := rfl
@[simp] theorem skip_memDeltas (s : State) : (skip s).memDeltas = [] := rfl
@[simp] theorem writeDest_cfg (s : State) (d : String) (v : Int) : (writeDest s d v).state.cfg = s.cfg := rfl
@[simp] theorem writeDest_gprs (s : State) (d : String) (v : Int) : (writeDest s d v).state.gprs = s.gprs.put d ⟨v, true⟩ := rfl
@[simp] theorem writeDest_pc (s : State) (d : String) (v : Int) : (writeDest s d v).state.pc = s.pc := rfl
@[simp] theorem writeDest_irReg (s : State) (d : String) (v : Int) : (writeDest s d v).state.irReg = s.irReg := rfl
@[simp] theorem writeDest_ir (s : State) (d : String) (v : Int) : (writeDest s d v).state.ir = s.ir := rfl
@[simp] theorem writeDest_cursor (s : State) (d : String) (v : Int) : (writeDest s d v).state.cursor = s.cursor := rfl
@[simp] theorem writeDest_program (s : State) (d : String) (v : Int) : (writeDest s d v).state.program = s.program := rfl
@[simp] theorem writeDest_phase (s : State) (d : String) (v : Int) : (writeDest s d v).state.phase = s.phase := rfl
@[simp] theorem writeDest_cycle (s : State) (d : String) (v : Int) : (writeDest s d v).state.cycle = s.cycle := rfl
@[simp] theorem writeDest_mem (s : State) (d : String) (v : Int) : (writeDest s d v).state.mem = s.mem := rfl
@[simp] theorem writeDest_cache (s : State) (d : String) (v : Int) : (writeDest s d v).state.cache = s.cache := rfl
@[simp] theorem writeDest_bus (s : State) (d : String) (v : Int) : (writeDest s d v).state.bus = s.bus := rfl
@[simp] theorem writeDest_history (s : State) (d : String) (v : Int) : (writeDest s d v).state.history = s.history := rfl
@[simp] theorem writeDest_draws (s : State) (d : String) (v : Int) : (writeDest s d v).state.draws = s.draws := rfl
@[simp] theorem writeDest_regDeltas (s : State) (d : String) (v : Int) : (writeDest s d v).regDeltas = [⟨d, s.gpr d, v⟩] := rfl
@[simp] theorem writeDest_memDeltas (s : State) (d : String) (v : Int) : (writeDest s d v).memDeltas = [] := rfl
@[simp] theorem writeMem_cfg (s : State) (a : Nat) (v : Int) : (writeMem s a v).state.cfg = s.cfg := rfl
@[simp] theorem writeMem_gprs (s : State) (a : Nat) (v : Int) : (writeMem s a v).state.gprs = s.gprs := rfl
@[simp] theorem writeMem_pc (s : State) (a : Nat) (v : Int) : (writeMem s a v).state.pc = s.pc := rfl
@[simp] theorem writeMem_irReg (s : State) (a : Nat) (v : Int) : (writeMem s a v).state.irReg = s.irReg := rfl
@[simp] theorem writeMem_ir (s : State) (a : Nat) (v : Int) : (writeMem s a v).state.ir = s.ir := rfl
@[simp] theorem writeMem_cursor (s : State) (a : Nat) (v : Int) : (writeMem s a v).state.cursor = s.cursor := rfl
@[simp] theorem writeMem_program (s : State) (a : Nat) (v : Int) : (writeMem s a v).state.program = s.program := rfl
@[simp] theorem writeMem_phase (s : State) (a : Nat) (v : Int) : (writeMem s a v).state.phase = s.phase := rfl
@[simp] theorem writeMem_cycle (s : State) (a : Nat) (v : Int) : (writeMem s a v).state.cycle = s.cycle := rfl
@[simp] theorem writeMem_mem (s : State) (a : Nat) (v : Int) : (writeMem s a v).state.mem = s.mem.write a v := rfl
@[simp] theorem writeMem_cache (s : State) (a : Nat) (v : Int) : (writeMem s a v).state.cache = s.cache := rfl
@[simp] theorem writeMem_bus (s : State) (a : Nat) (v : Int) : (writeMem s a v).state.bus = s.bus := rfl
@[simp] theorem writeMem_history (s : State) (a : Nat) (v : Int) : (writeMem s a v).state.history = s.history := rfl
@[simp] theorem writeMem_draws (s : State) (a : Nat) (v : Int) : (writeMem s a v).state.draws = s.draws := rfl
@[simp] theorem writeMem_regDeltas (s : State) (a : Nat) (v : Int) : (writeMem s a v).regDeltas = [] := rfl
@[simp] theorem writeMem_memDeltas (s : State) (a : Nat) (v : Int) : (writeMem s a v).memDeltas = [⟨a, s.mem.read a, v⟩] := rfl
@[simp] theorem loadFromCell_cfg (s : State) (d : String) (a : Nat) : (loadFromCell s d a).state.cfg = s.cfg := rfl
@[simp] theorem loadFromCell_gprs (s : State) (d : String) (a : Nat) : (loadFromCell s d a).state.gprs = s.gprs.put d ⟨(s.cache.check s.mem s.cycle a).value, true⟩ := rfl
@[simp] theorem loadFromCell_pc (s : State) (d : String) (a : Nat) : (loadFromCell s d a).state.pc = s.pc := rfl
@[simp] theorem loadFromCell_irReg (s : State) (d : String) (a : Nat) : (loadFromCell s d a).state.irReg = s.irReg := rfl
@[simp] theorem loadFromCell_ir (s : State) (d : String) (a : Nat) : (loadFromCell s d a).state.ir = s.ir := rfl
@[simp] theorem loadFromCell_cursor (s : State) (d : String) (a : Nat) : (loadFromCell s d a).state.cursor = s.cursor := rfl
@[simp] theorem loadFromCell_program (s : State) (d : String) (a : Nat) : (loadFromCell s d a).state.program = s.program := rfl
@[simp] theorem loadFromCell_phase (s : State) (d : String) (a : Nat) : (loadFromCell s d a).state.phase = s.phase := rfl
@[simp] theorem loadFromCell_cycle (s : State) (d : String) (a : Nat) : (loadFromCell s d a).state.cycle = s.cycle := rfl
@[simp] theorem loadFromCell_mem (s : State) (d : String) (a : Nat) : (loadFromCell s d a).state.mem = s.mem.markUsed a := rfl
@[simp] theorem loadFromCell_cache (s : State) (d : String) (a : Nat) : (loadFromCell s d a).state.cache = (s.cache.check s.mem s.cycle a).cache := rfl
@[simp] theorem loadFromCell_bus (s : State) (d : String) (a : Nat) : (loadFromCell s d a).state.bus = s.bus := rfl
@[simp] theorem loadFromCell_history (s : State) (d : String) (a : Nat) : (loadFromCell s d a).state.history = s.history := rfl
@[simp] theorem loadFromCell_draws (s : State) (d : String) (a : Nat) : (loadFromCell s d a).state.draws = s.draws := rfl
@[simp] theorem loadFromCell_regDeltas (s : State) (d : String) (a : Nat) : (loadFromCell s d a).regDeltas = [⟨d, s.gpr d, (s.cache.check s.mem s.cycle a).value⟩] := rfl
@[simp] theorem loadFromCell_memDeltas (s : State) (d : String) (a : Nat) : (loadFromCell s d a).memDeltas = [] := rfl
@[simp] theorem storeToCell_cfg (s : State) (a : Nat) (v : Int) : (storeToCell s a v).state.cfg = s.cfg := rfl
@[simp] theorem storeToCell_gprs (s : State) (a : Nat) (v : Int) : (storeToCell s a v).state.gprs = s.gprs := rfl
@[simp] theorem storeToCell_pc (s : State) (a : Nat) (v : Int) : (storeToCell s a v).state.pc = s.pc := rfl
@[simp] theorem storeToCell_irReg (s : State) (a : Nat) (v : Int) : (storeToCell s a v).state.irReg = s.irReg := rfl
@[simp] theorem storeToCell_ir (s : State) (a : Nat) (v : Int) : (storeToCell s a v).state.ir = s.ir := rfl
@[simp] theorem storeToCell_cursor (s : State) (a : Nat) (v : Int) : (storeToCell s a v).state.cursor = s.cursor := rfl
@[simp] theorem storeToCell_program (s : State) (a : Nat) (v : Int) : (storeToCell s a v).state.program = s.program := rfl
@[simp] theorem storeToCell_phase (s : State) (a : Nat) (v : Int) : (storeToCell s a v).state.phase = s.phase := rfl
@[simp] theorem storeToCell_cycle (s : State) (a : Nat) (v : Int) : (storeToCell s a v).state.cycle = s.cycle := rfl
@[simp] theorem storeToCell_mem (s : State) (a : Nat) (v : Int) : (storeToCell s a v).state.mem = ((s.mem.write a v).markUsed a).markActive a := rfl
@[simp] theorem storeToCell_cache (s : State) (a : Nat) (v : Int) : (storeToCell s a v).state.cache = s.cache.update s.cycle a v := rfl
@[simp] theorem storeToCell_bus (s : State) (a : Nat) (v : Int) : (storeToCell s a v).state.bus = s.bus := rfl
@[simp] theorem storeToCell_history (s : State) (a : Nat) (v : Int) : (storeToCell s a v).state.history = s.history := rfl
@[simp] theorem storeToCell_draws (s : State) (a : Nat) (v : Int) : (storeToCell s a v).state.draws = s.draws := rfl
@[simp] theorem storeToCell_regDeltas (s : State) (a : Nat) (v : Int) : (storeToCell s a v).regDeltas = [] := rfl
@[simp] theorem storeToCell_memDeltas (s : State) (a : Nat) (v : Int) : (storeToCell s a v).memDeltas = [⟨a, s.mem.read a, v⟩] := rfl

/-! ### The phases -/

@[simp] theorem fetched_cfg (i : Instr) (p : Int) (s : State) : (fetched i p s).cfg = s.cfg := rfl
@[simp] theorem fetched_gprs (i : Instr) (p : Int) (s : State) : (fetched i p s).gprs = s.gprs := rfl
@[simp] theorem fetched_pc (i : Instr) (p : Int) (s : State) : (fetched i p s).pc = ⟨p, true⟩ := rfl
@[simp] theorem fetched_irReg (i : Instr) (p : Int) (s : State) : (fetched i p s).irReg = { s.irReg with value := drawWord s.cfg s.draws } := rfl
@[simp] theorem fetched_ir (i : Instr) (p : Int) (s : State) : (fetched i p s).ir = some i := rfl
@[simp] theorem fetched_cursor (i : Instr) (p : Int) (s : State) : (fetched i p s).cursor = s.cursor + 1 := rfl
@[simp] theorem fetched_program (i : Instr) (p : Int) (s : State) : (fetched i p s).program = s.program := rfl
@[simp] theorem fetched_phase (i : Instr) (p : Int) (s : State) : (fetched i p s).phase = .fetch := rfl
@[simp] theorem fetched_cycle (i : Instr) (p : Int) (s : State) : (fetched i p s).cycle = s.cycle + 1 := rfl
@[simp] theorem fetched_mem (i : Instr) (p : Int) (s : State) : (fetched i p s).mem = s.mem := rfl
@[simp] theorem fetched_cache (i : Instr) (p : Int) (s : State) : (fetched i p s).cache = s.cache := rfl
@[simp] theorem fetched_bus (i : Instr) (p : Int) (s : State) : (fetched i p s).bus = s.bus ++ busRecords s.cfg s.bus.length (s.draws + 1) fetchTransfers := rfl
@[simp] theorem fetched_history (i : Instr) (p : Int) (s : State) : (fetched i p s).history = s.history ++ [⟨s.cycle + 1, .fetch, some i, [], []⟩] := rfl
@[simp] theorem fetched_draws (i : Instr) (p : Int) (s : State) : (fetched i p s).draws = s.draws + 3 := rfl
@[simp] theorem decodePhase_cfg (s : State) : (decodePhase s).cfg = s.cfg := rfl
@[simp] theorem decodePhase_gprs (s : State) : (decodePhase s).gprs = s.gprs := rfl
@[simp] theorem decodePhase_pc (s : State) : (decodePhase s).pc = s.pc := rfl
@[simp] theorem decodePhase_irReg (s : State) : (decodePhase s).irReg = { s.irReg with active := true } := rfl
@[simp] theorem decodePhase_ir (s : State) : (decodePhase s).ir = s.ir := rfl
@[simp] theorem decodePhase_cursor (s : State) : (decodePhase s).cursor = s.cursor := rfl
@[simp] theorem decodePhase_program (s : State) : (decodePhase s).program = s.program := rfl
@[simp] theorem decodePhase_phase (s : State) : (decodePhase s).phase = .decode := rfl
@[simp] theorem decodePhase_cycle (s : State) : (decodePhase s).cycle = s.cycle := rfl
@[simp] theorem decodePhase_mem (s : State) : (decodePhase s).mem = s.mem := rfl
@[simp] theorem decodePhase_cache (s : State) : (decodePhase s).cache = s.cache := rfl
@[simp] theorem decodePhase_bus (s : State) : (decodePhase s).bus = s.bus := rfl
@[simp] theorem decodePhase_history (s : State) : (decodePhase s).history = s.history ++ [⟨s.cycle, .decode, s.ir, [], []⟩] := rfl
@[simp] theorem decodePhase_draws (s : State) : (decodePhase s).draws = s.draws := rfl
@[simp] theorem storePhase_cfg (s : State) : (storePhase s).cfg = s.cfg := rfl
@[simp] theorem storePhase_gprs (s : State) : (storePhase s).gprs = s.gprs.clearActive := rfl
@[simp] theorem storePhase_pc (s : State) : (storePhase s).pc = s.pc := rfl
@[simp] theorem storePhase_irReg (s : State) : (storePhase s).irReg = s.irReg := rfl
@[simp] theorem storePhase_ir (s : State) : (storePhase s).ir = s.ir := rfl
@[simp] theorem storePhase_cursor (s : State) : (storePhase s).cursor = s.cursor := rfl
@[simp] theorem storePhase_program (s : State) : (storePhase s).program = s.program := rfl
@[simp] theorem storePhase_phase (s : State) : (storePhase s).phase = .store := rfl
@[simp] theorem storePhase_cycle (s : State) : (storePhase s).cycle = s.cycle := rfl
@[simp] theorem storePhase_mem (s : State) : (storePhase s).mem = s.mem.clearActive := rfl
@[simp] theorem storePhase_cache (s : State) : (storePhase s).cache = s.cache.drawStatus s.draws := rfl
@[simp] theorem storePhase_bus (s : State) : (storePhase s).bus = s.bus := rfl
@[simp] theorem storePhase_history (s : State) : (storePhase s).history = s.history ++ [⟨s.cycle, .store, s.ir, [], []⟩] := rfl
@[simp] theorem storePhase_draws (s : State) : (storePhase s).draws = s.draws + 3 := rfl

/-! ### The host's operations -/

@[simp] theorem installProgram_cfg (p : List Instr) (s : State) : (installProgram p s).cfg = s.cfg := rfl
@[simp] theorem installProgram_gprs (p : List Instr) (s : State) : (installProgram p s).gprs = s.gprs := rfl
@[simp] theorem installProgram_pc (p : List Instr) (s : State) : (installProgram p s).pc = s.pc := rfl
@[simp] theorem installProgram_irReg (p : List Instr) (s : State) : (installProgram p s).irReg = s.irReg := rfl
@[simp] theorem installProgram_ir (p : List Instr) (s : State) : (installProgram p s).ir = none := rfl
@[simp] theorem installProgram_cursor (p : List Instr) (s : State) : (installProgram p s).cursor = 0 := rfl
@[simp] theorem installProgram_program (p : List Instr) (s : State) : (installProgram p s).program = p := rfl
@[simp] theorem installProgram_phase (p : List Instr) (s : State) : (installProgram p s).phase = .idle := rfl
@[simp] theorem installProgram_cycle (p : List Instr) (s : State) : (installProgram p s).cycle = s.cycle := rfl
@[simp] theorem installProgram_mem (p : List Instr) (s : State) : (installProgram p s).mem = s.mem := rfl
@[simp] theorem installProgram_cache (p : List Instr) (s : State) : (installProgram p s).cache = s.cache := rfl
@[simp] theorem installProgram_bus (p : List Instr) (s : State) : (installProgram p s).bus = s.bus := rfl
@[simp] theorem installProgram_history (p : List Instr) (s : State) : (installProgram p s).history = s.history := rfl
@[simp] theorem installProgram_draws (p : List Instr) (s : State) : (installProgram p s).draws = s.draws := rfl
@[simp] theorem State.construct_cfg (c : Config) : (State.construct c).cfg = c := rfl
@[simp] theorem State.construct_gprs (c : Config) : (State.construct c).gprs = c.gprNames.map (fun n => (n, Reg.blank)) := rfl
@[simp] theorem State.construct_pc (c : Config) : (State.construct c).pc = Reg.blank := rfl
@[simp] theorem State.construct_irReg (c : Config) : (State.construct c).irReg = Reg.blank := rfl
@[simp] theorem State.construct_ir (c : Config) : (State.construct c).ir = none := rfl
@[simp] theorem State.construct_cursor (c : Config) : (State.construct c).cursor = 0 := rfl
@[simp] theorem State.construct_program (c : Config) : (State.construct c).program = [] := rfl
@[simp] theorem State.construct_phase (c : Config) : (State.construct c).phase = .idle := rfl
@[simp] theorem State.construct_cycle (c : Config) : (State.construct c).cycle = 0 := rfl
@[simp] theorem State.construct_mem (c : Config) : (State.construct c).mem = [] := rfl
@[simp] theorem State.construct_cache (c : Config) : (State.construct c).cache = ⟨CacheLevel.blank c.l1Lines, CacheLevel.blank c.l2Lines, CacheLevel.blank c.l3Lines⟩ := rfl
@[simp] theorem State.construct_bus (c : Config) : (State.construct c).bus = [] := rfl
@[simp] theorem State.construct_history (c : Config) : (State.construct c).history = [] := rfl
@[simp] theorem State.construct_draws (c : Config) : (State.construct c).draws = 0 := rfl
@[simp] theorem State.resetCall_cfg (s : State) : (s.resetCall).cfg = s.cfg := rfl
@[simp] theorem State.resetCall_gprs (s : State) : (s.resetCall).gprs = (State.construct s.cfg).gprs := rfl
@[simp] theorem State.resetCall_pc (s : State) : (s.resetCall).pc = (State.construct s.cfg).pc := rfl
@[simp] theorem State.resetCall_irReg (s : State) : (s.resetCall).irReg = (State.construct s.cfg).irReg := rfl
@[simp] theorem State.resetCall_ir (s : State) : (s.resetCall).ir = (State.construct s.cfg).ir := rfl
@[simp] theorem State.resetCall_cursor (s : State) : (s.resetCall).cursor = (State.construct s.cfg).cursor := rfl
@[simp] theorem State.resetCall_program (s : State) : (s.resetCall).program = s.program := rfl
@[simp] theorem State.resetCall_phase (s : State) : (s.resetCall).phase = (State.construct s.cfg).phase := rfl
@[simp] theorem State.resetCall_cycle (s : State) : (s.resetCall).cycle = (State.construct s.cfg).cycle := rfl
@[simp] theorem State.resetCall_mem (s : State) : (s.resetCall).mem = (State.construct s.cfg).mem := rfl
@[simp] theorem State.resetCall_cache (s : State) : (s.resetCall).cache = (State.construct s.cfg).cache := rfl
@[simp] theorem State.resetCall_bus (s : State) : (s.resetCall).bus = (State.construct s.cfg).bus := rfl
@[simp] theorem State.resetCall_history (s : State) : (s.resetCall).history = (State.construct s.cfg).history := rfl
@[simp] theorem State.resetCall_draws (s : State) : (s.resetCall).draws = s.draws := rfl

/-! ### `State.view` -/

/-- Ids, types and labels of the records a list of transfers becomes: no draw is among them (10_state R36). -/
theorem busRecords_shape (c : Config) (id draw : Nat) (ts : List BusTransfer) :
    (busRecords c id draw ts).map (fun r => (r.id, r.transfer)) = (List.range' id ts.length).zip ts := by
  induction ts generalizing id draw with
  | nil => rfl
  | cons t ts ih => simp [busRecords, ih, List.range'_succ]

/-- `appendBus` adds to the view the same ids, types and labels in every state with as many records. -/
theorem State.appendBus_view_bus (s : State) (ts : List BusTransfer) :
    (s.appendBus ts).view.bus = s.view.bus ++ (List.range' s.view.bus.length ts.length).zip ts := by
  simp [State.view, busRecords_shape]

end Sys2Proof.Machine
end

