-- ==== Sys2Proof/Laws/Execute.lean ====
section
/-! SUPPORT. What `exec` can do, said once: the requirements, the frame of 40_cycle R85, and the one effect a body has when
`exec` answers a next state. -/

namespace Sys2Proof.Machine

/-! ### The requirements -/

theorem requireDestination_some {s : State} {d : String} (h : d ∈ s.cfg.gprNames) :
    requireDestination s (some d) = .ok d := by
  simp [requireDestination, h]

theorem requireOperand_some {s : State} {o : Operand} (h : okOperand s.cfg (some o) = true) (w : Requirement) :
    requireOperand s w (some o) = .ok (resolve s o) := by
  simp [requireOperand, h]

/-- A destination fails its requirement just when `okReg` is false (40_cycle R87). -/
theorem requireDestination_eq (s : State) (d : Option String) :
    requireDestination s d =
      if okReg s.cfg d then .ok (d.getD "") else .error .destination := by
  cases d <;> simp [requireDestination, okReg]

/-- An operand fails its requirement just when `okOperand` is false (40_cycle R87). -/
theorem requireOperand_eq (s : State) (w : Requirement) (o : Option Operand) :
    requireOperand s w o = if okOperand s.cfg o then .ok (resolve s (o.getD (.literal 0))) else .error w := by
  cases o <;> simp [requireOperand, okOperand]

/-- A body that gets past its destination has one in the bank (30_encoding R67, 40_cycle R87). -/
theorem past_destination {s : State} {d : Option String} {rest : String → Except Requirement (Except Fault Effect)}
    {g : Except Fault Effect} (h : (do rest (← requireDestination s d)) = .ok g) :
    ∃ r, d = some r ∧ r ∈ s.cfg.gprNames ∧ rest r = .ok g := by
  rw [requireDestination_eq] at h
  split_ifs at h with hd
  · rcases d with _ | r
    · simp [okReg] at hd
    · exact ⟨r, rfl, by simpa [okReg] using hd, h⟩
  · simp [bind, Except.bind] at h

/-- A body that gets past an operand has it, and goes on with its value (40_cycle R86, R87). -/
theorem past_operand {s : State} {w : Requirement} {o : Option Operand} {rest : Int → Except Requirement (Except Fault Effect)}
    {g : Except Fault Effect} (h : (do rest (← requireOperand s w o)) = .ok g) :
    ∃ x, o = some x ∧ okOperand s.cfg (some x) = true ∧ rest (resolve s x) = .ok g := by
  rw [requireOperand_eq] at h
  split_ifs at h with ho
  · rcases o with _ | x
    · simp [okOperand] at ho
    · exact ⟨x, rfl, ho, h⟩
  · simp [bind, Except.bind] at h

/-- A body that gets past its address has one (40_cycle R87). -/
theorem past_address {a : Option Nat} {rest : Nat → Except Requirement (Except Fault Effect)} {g : Except Fault Effect}
    (h : (do rest (← requireAddress a)) = .ok g) : ∃ k, a = some k ∧ rest k = .ok g := by
  rcases a with _ | k
  · simp [requireAddress, bind, Except.bind] at h
  · exact ⟨k, rfl, h⟩

/-! ### The frame -/

theorem executePhase_effect {i : Instr} {s : State} {e : Effect} (hw : i.Wf s.cfg) :
    executePhase i s (.ok (.ok e)) = .next (finishExecute (Config.execBus s.view i) e) := by
  simp [executePhase, show i.failedCheck s.cfg = none from hw]

theorem executePhase_fault {i : Instr} {s : State} {f : Fault} (hw : i.Wf s.cfg) :
    executePhase i s (.ok (.error f)) = .fault f := by
  simp [executePhase, show i.failedCheck s.cfg = none from hw]

theorem executePhase_skip {i : Instr} {s : State} {r : Requirement} (hw : i.Wf s.cfg) (hs : s.cfg.strict = false) :
    executePhase i s (.error r) = .next (finishExecute (Config.execBus s.view i) (skip s)) := by
  simp [executePhase, show i.failedCheck s.cfg = none from hw, hs]

theorem executePhase_strict {i : Instr} {s : State} {r : Requirement} (hw : i.Wf s.cfg) (hs : s.cfg.strict = true) :
    executePhase i s (.error r) = .fault (.malformedInstruction (s.cursor - 1) i.opcode r) := by
  simp [executePhase, show i.failedCheck s.cfg = none from hw, hs]

theorem executePhase_refused {i : Instr} {s : State} {c : WfCheck} (h : i.failedCheck s.cfg = some c)
    (b : Except Requirement (Except Fault Effect)) :
    executePhase i s b = .refused (.illFormedProgram (s.cursor - 1) c) := by
  simp [executePhase, h]

/-- The frame answers a next state in two cases only: the body's effect, or a skip. -/
theorem executePhase_next {i : Instr} {s t : State} {b : Except Requirement (Except Fault Effect)}
    (h : executePhase i s b = .next t) :
    i.Wf s.cfg ∧ ∃ e, t = finishExecute (Config.execBus s.view i) e ∧
      (b = .ok (.ok e) ∨ (∃ r, b = .error r) ∧ s.cfg.strict = false ∧ e = skip s) := by
  unfold executePhase at h
  split at h
  · exact absurd h (by simp)
  · refine ⟨‹_›, ?_⟩
    split at h
    · split at h
      · exact absurd h (by simp)
      · injection h with h
        exact ⟨_, h.symm, .inr ⟨⟨_, rfl⟩, by simpa using ‹¬s.cfg.strict = true›, rfl⟩⟩
    · exact absurd h (by simp)
    · injection h with h
      exact ⟨_, h.symm, .inl rfl⟩

/-! ### `exec` as an instance of the frame -/

/-- A destination and one operand, required in that order, fail as `failedRequirement` says. -/
theorem require_destination_operand {s : State} {d : Option String} {o : Option Operand} {r : Requirement}
    {f : String → Int → Except Fault Effect}
    (h : (if !okReg s.cfg d then some Requirement.destination else if !okOperand s.cfg o then some .operand1 else none)
      = some r) :
    (do let q ← requireDestination s d
        let v ← requireOperand s .operand1 o
        return f q v : Except Requirement (Except Fault Effect)) = .error r := by
  rw [requireDestination_eq, requireOperand_eq]
  cases h1 : okReg s.cfg d <;> cases h2 : okOperand s.cfg o <;> simp_all [bind, Except.bind]

/-- The requirements of the arithmetic instructions fail as `failedRequirement` says. -/
theorem arithBody_error {s : State} {op : Opcode} {o1 o2 : Option Operand} {d : Option String} {f : Int → Int → Int}
    {r : Requirement}
    (h : (if !okReg s.cfg d then some Requirement.destination else if !okOperand s.cfg o1 then some .operand1
      else if !okOperand s.cfg o2 then some .operand2 else none) = some r) :
    arithBody s op o1 o2 d f = .error r := by
  unfold arithBody
  rw [requireDestination_eq, requireOperand_eq, requireOperand_eq]
  cases h1 : okReg s.cfg d <;> cases h2 : okOperand s.cfg o1 <;> cases h3 : okOperand s.cfg o2 <;>
    simp_all [bind, Except.bind]

/-- Every EXECUTE is the frame over some body, and the body is a failed requirement where the instruction has one
(40_cycle R85, R87). -/
theorem exec_eq_executePhase (i : Instr) (s : State) :
    ∃ b, exec i s = executePhase i s b ∧ ∀ r, failedRequirement s.cfg i = some r → b = .error r := by
  cases i with
  | loadAddress o1 o2 d a x =>
    refine ⟨_, rfl, fun r h => ?_⟩
    rw [requireDestination_eq]
    cases hd : okReg s.cfg d <;> simp_all [failedRequirement, bind, Except.bind]
  | loadImmediate o1 o2 d x =>
    exact ⟨_, rfl, fun r h => require_destination_operand (f := fun q v => .ok (writeDest s q v)) h⟩
  | store o1 o2 d a x =>
    refine ⟨_, rfl, fun r h => ?_⟩
    rw [requireOperand_eq]
    cases ho : okOperand s.cfg o1 <;> cases a <;> simp_all [failedRequirement, requireAddress, bind, Except.bind]
  | add o1 o2 d a x => exact ⟨_, rfl, fun r h => arithBody_error h⟩
  | sub o1 o2 d a x => exact ⟨_, rfl, fun r h => arithBody_error h⟩
  | mul o1 o2 d a x => exact ⟨_, rfl, fun r h => arithBody_error h⟩
  | div o1 o2 d a x => exact ⟨_, rfl, fun r h => arithBody_error h⟩
  | jmp o1 o2 d a x => exact ⟨.ok (.ok (skip s)), rfl, fun r h => absurd h (by simp [failedRequirement])⟩
  | jz o1 o2 d a x => exact ⟨.ok (.ok (skip s)), rfl, fun r h => absurd h (by simp [failedRequirement])⟩
  | jnz o1 o2 d a x => exact ⟨.ok (.ok (skip s)), rfl, fun r h => absurd h (by simp [failedRequirement])⟩
  | halt o1 o2 d a x => exact ⟨.ok (.ok (skip s)), rfl, fun r h => absurd h (by simp [failedRequirement])⟩
  | mov o1 o2 d a x =>
    exact ⟨_, rfl, fun r h => require_destination_operand (f := fun q v => .ok (writeDest s q v)) h⟩

/-! ### The arithmetic -/

theorem wrapWord_inRange {bits : Nat} (h : 1 ≤ bits) (r : Int) : Word.InRange bits (wrapWord bits r) := by
  obtain ⟨n, rfl⟩ : ∃ n, bits = n + 1 := ⟨bits - 1, by omega⟩
  have hp : (0 : Int) < 2 ^ n := by positivity
  have h2 : (2 : Int) ^ (n + 1) = 2 ^ n + 2 ^ n := by ring
  have h0 := Int.emod_nonneg (r + 2 ^ n) (show (2 : Int) ^ (n + 1) ≠ 0 by positivity)
  have h1 := Int.emod_lt_of_pos (r + 2 ^ n) (show (0 : Int) < 2 ^ (n + 1) by positivity)
  simp only [Word.InRange, Word.least, Word.greatest, wrapWord, Nat.add_sub_cancel]
  constructor <;> omega

/-- What `fit` gives is in `Word` (42_arithmetic R97). -/
theorem fit_inRange {c : Config} (h : 1 ≤ c.wordBits) {r : Int} {v : Int} (hf : fit c r = some v) :
    Word.InRange c.wordBits v := by
  unfold fit at hf
  split at hf
  · injection hf with hf; subst hf; assumption
  · split at hf
    · exact absurd hf (by simp)
    · injection hf with hf; subst hf; exact wrapWord_inRange h r

theorem fit_of_inRange {c : Config} {r : Int} (h : Word.InRange c.wordBits r) : fit c r = some r := if_pos h

theorem drawWord_inRange {c : Config} (h : 1 ≤ c.wordBits) (n : Nat) : Word.InRange c.wordBits (drawWord c n) :=
  wrapWord_inRange h _

/-! ### What a body's effect can be -/

/-- A register value of a sound state is in `Word`, and so is an operand of a well-formed instruction. -/
theorem gpr_inRange {s : State} (hc : 1 ≤ s.cfg.wordBits) (hw : s.WordsOk) (r : String) :
    Word.InRange s.cfg.wordBits (s.gpr r) := by
  rcases Bank.get_mem s.gprs r with h | h
  · exact hw.1 _ h
  · obtain ⟨n, hn⟩ : ∃ n, s.cfg.wordBits = n + 1 := ⟨s.cfg.wordBits - 1, by omega⟩
    have hp : (0 : Int) < 2 ^ n := by positivity
    simp only [State.gpr, h, Reg.blank, Word.InRange, Word.least, Word.greatest, hn, Nat.add_sub_cancel]
    constructor <;> omega

/-- What `WF_LITERAL`, `WF_ADDRESS` and `WF_NO_SPECIAL` give of a well-formed instruction (30_encoding R68). -/
theorem Instr.wf_iff {c : Config} {i : Instr} :
    i.Wf c ↔ i.record.literalsOk c = true ∧ i.record.addressOk c = true ∧ i.record.noSpecial = true := by
  unfold Instr.Wf Instr.failedCheck
  cases i.record.literalsOk c <;> cases i.record.addressOk c <;> cases i.record.noSpecial <;> simp

theorem resolve_inRange {s : State} (hc : 1 ≤ s.cfg.wordBits) (hw : s.WordsOk) {o : Operand}
    (ho : o.literalOk s.cfg = true) : Word.InRange s.cfg.wordBits (resolve s o) := by
  cases o with
  | literal n => exact of_decide_eq_true ho
  | registerRef r => exact gpr_inRange hc hw r

/-- The opcodes that write a destination (10_state R19). -/
abbrev WritesDestination (o : Opcode) : Prop := o ∈ [Opcode.load, .mov, .add, .sub, .mul, .div]

/-- The effects that the EXECUTE of `i` can have when it answers a next state (41_load_store, 42_arithmetic, 43_move,
44_control; 40_cycle R87). -/
inductive BodyEffect (i : Instr) (s : State) : Effect → Prop where
  /-- A no-op, or a malformed instruction skipped. -/
  | skip : BodyEffect i s (Machine.skip s)
  /-- The destination written with a value that is in `Word` if the state's values are. -/
  | dest (d : String) (v : Int) (hd : d ∈ s.cfg.gprNames) (hi : i.record.destination = some d)
      (ho : WritesDestination i.opcode) (hv : 1 ≤ s.cfg.wordBits → s.WordsOk → Word.InRange s.cfg.wordBits v) :
      BodyEffect i s (writeDest s d v)
  /-- LOAD with an address. -/
  | load (o1 o2 : Option Operand) (d : String) (a : Nat) (x : String) (hi : i = .loadAddress o1 o2 (some d) a x)
      (hd : d ∈ s.cfg.gprNames) (ha : a < s.cfg.memSize) : BodyEffect i s (loadFromCell s d a)
  /-- STORE. -/
  | store (o : Operand) (o2 : Option Operand) (d : Option String) (a : Nat) (x : String)
      (hi : i = .store (some o) o2 d (some a) x) (ha : a < s.cfg.memSize)
      (hv : 1 ≤ s.cfg.wordBits → s.WordsOk → Word.InRange s.cfg.wordBits (resolve s o)) :
      BodyEffect i s (storeToCell s a (resolve s o))

theorem arithBody_effect {i : Instr} {s : State} {op : Opcode} {o1 o2 : Option Operand} {d : Option String}
    {f : Int → Int → Int} {e : Effect} (hi : i.record.destination = d) (ho : WritesDestination i.opcode)
    (h : arithBody s op o1 o2 d f = .ok (.ok e)) : BodyEffect i s e := by
  obtain ⟨r, rfl, hm, h⟩ := past_destination h
  obtain ⟨x, -, -, h⟩ := past_operand h
  obtain ⟨y, -, -, h⟩ := past_operand h
  have h : writeFit s op r (resolve s x) (resolve s y) (f (resolve s x) (resolve s y)) = .ok e := by
    simpa [pure, Except.pure] using h
  unfold writeFit at h
  split at h
  · injection h with h; subst h
    exact .dest r _ hm hi ho fun hc _ => fit_inRange hc ‹_›
  · exact absurd h (by simp)

/-- A destination and operand1, required in that order and written there, are the body of LOAD immediate and of MOV. -/
theorem moveBody_effect {i : Instr} {s : State} {o : Option Operand} {d : Option String} {e : Effect}
    (hl : ∀ x, o = some x → x.literalOk s.cfg = true) (hi : i.record.destination = d) (ho : WritesDestination i.opcode)
    (h : (do let q ← requireDestination s d
             let v ← requireOperand s .operand1 o
             return .ok (writeDest s q v) : Except Requirement (Except Fault Effect)) = .ok (.ok e)) :
    BodyEffect i s e := by
  obtain ⟨r, rfl, hm, h⟩ := past_destination h
  obtain ⟨x, rfl, -, h⟩ := past_operand h
  injection h with h; injection h with h; subst h
  exact .dest r _ hm hi ho fun hc hs => resolve_inRange hc hs (hl x rfl)

/-- What `exec` can do when it answers a next state: the instruction is well formed and the state is the end of an EXECUTE with
one of the four effects. -/
theorem exec_effect {i : Instr} {s t : State} (h : exec i s = .next t) :
    i.Wf s.cfg ∧ ∃ e, BodyEffect i s e ∧ t = finishExecute (Config.execBus s.view i) e := by
  have key : ∀ (b : Except Requirement (Except Fault Effect)), executePhase i s b = .next t →
      (∀ e, i.Wf s.cfg → b = .ok (.ok e) → BodyEffect i s e) →
      i.Wf s.cfg ∧ ∃ e, BodyEffect i s e ∧ t = finishExecute (Config.execBus s.view i) e := by
    intro b hb hbody
    obtain ⟨hw, e, rfl, he | ⟨-, -, rfl⟩⟩ := executePhase_next hb
    · exact ⟨hw, e, hbody e hw he, rfl⟩
    · exact ⟨hw, _, .skip, rfl⟩
  have noop : ∀ e, i.Wf s.cfg → (Except.ok (Except.ok (skip s)) : Except Requirement (Except Fault Effect)) = .ok (.ok e) →
      BodyEffect i s e := by
    intro e _ he
    injection he with he; injection he with he; subst he
    exact .skip
  have lit : i.Wf s.cfg → ∀ x, i.record.operand1 = some x → x.literalOk s.cfg = true := by
    intro hw x hx
    have := (Instr.wf_iff.1 hw).1
    simp only [InstrRecord.literalsOk, Bool.and_eq_true, hx] at this
    simpa using this.1
  have adr : ∀ {a : Nat}, i.Wf s.cfg → i.record.address = some a → a < s.cfg.memSize := by
    intro a hw ha
    have := (Instr.wf_iff.1 hw).2.1
    simp only [InstrRecord.addressOk, ha] at this
    simpa using this
  cases i with
  | loadAddress o1 o2 d a x =>
    refine key _ h fun e hw he => ?_
    obtain ⟨r, rfl, hm, he⟩ := past_destination he
    injection he with he; injection he with he; subst he
    exact .load o1 o2 r a x rfl hm (adr hw rfl)
  | loadImmediate o1 o2 d x => exact key _ h fun e hw he => moveBody_effect (lit hw) rfl (show WritesDestination .load by decide) he
  | store o1 o2 d a x =>
    refine key _ h fun e hw he => ?_
    obtain ⟨o, rfl, -, he⟩ := past_operand he
    obtain ⟨k, rfl, he⟩ := past_address he
    injection he with he; injection he with he; subst he
    exact .store o o2 d k x rfl (adr hw rfl) fun hc hs => resolve_inRange hc hs (lit hw o rfl)
  | add o1 o2 d a x => exact key _ h fun e _ he => arithBody_effect rfl (show WritesDestination .add by decide) he
  | sub o1 o2 d a x => exact key _ h fun e _ he => arithBody_effect rfl (show WritesDestination .sub by decide) he
  | mul o1 o2 d a x => exact key _ h fun e _ he => arithBody_effect rfl (show WritesDestination .mul by decide) he
  | div o1 o2 d a x => exact key _ h fun e _ he => arithBody_effect rfl (show WritesDestination .div by decide) he
  | jmp o1 o2 d a x => exact key (.ok (.ok (skip s))) h noop
  | jz o1 o2 d a x => exact key (.ok (.ok (skip s))) h noop
  | jnz o1 o2 d a x => exact key (.ok (.ok (skip s))) h noop
  | halt o1 o2 d a x => exact key (.ok (.ok (skip s))) h noop
  | mov o1 o2 d a x => exact key _ h fun e hw he => moveBody_effect (lit hw) rfl (show WritesDestination .mov by decide) he

/-! ### What a fault of `exec` can be -/

/-- The four arithmetic instructions with both operands there, and the exact result of each (42_arithmetic R99 to R102). -/
inductive ArithResult (s : State) : Instr → Operand → Operand → Int → Prop where
  | add (x y : Operand) (d : Option String) (a : Option Nat) (u : String) :
      ArithResult s (.add (some x) (some y) d a u) x y (resolve s x + resolve s y)
  | sub (x y : Operand) (d : Option String) (a : Option Nat) (u : String) :
      ArithResult s (.sub (some x) (some y) d a u) x y (resolve s x - resolve s y)
  | mul (x y : Operand) (d : Option String) (a : Option Nat) (u : String) :
      ArithResult s (.mul (some x) (some y) d a u) x y (resolve s x * resolve s y)
  | div (x y : Operand) (d : Option String) (a : Option Nat) (u : String) :
      ArithResult s (.div (some x) (some y) d a u) x y (floorDiv (resolve s x) (resolve s y))

theorem arithBody_fault {s : State} {op : Opcode} {o1 o2 : Option Operand} {d : Option String} {f : Int → Int → Int}
    {g : Fault} (h : arithBody s op o1 o2 d f = .ok (.error g)) :
    ∃ x y, o1 = some x ∧ o2 = some y ∧ fit s.cfg (f (resolve s x) (resolve s y)) = none ∧
      g = .arithOverflow (.execute op (resolve s x) (resolve s y) (f (resolve s x) (resolve s y)) (s.cursor - 1)) := by
  obtain ⟨r, -, -, h⟩ := past_destination h
  obtain ⟨x, rfl, -, h⟩ := past_operand h
  obtain ⟨y, rfl, -, h⟩ := past_operand h
  have h : writeFit s op r (resolve s x) (resolve s y) (f (resolve s x) (resolve s y)) = .error g := by
    simpa [pure, Except.pure] using h
  unfold writeFit at h
  split at h
  · exact absurd h (by simp)
  · injection h with h; subst h
    exact ⟨x, y, rfl, rfl, ‹_›, rfl⟩

/-- The two faults of EXECUTE: a failed requirement under STRICT, and an exact result that `fit` does not bring into `Word`
(60_exceptions R113, R114). -/
theorem exec_fault {i : Instr} {s : State} {g : Fault} (h : exec i s = .fault g) :
    (∃ r, s.cfg.strict = true ∧ g = .malformedInstruction (s.cursor - 1) i.opcode r) ∨
    ∃ x y r, ArithResult s i x y r ∧ fit s.cfg r = none ∧
      g = .arithOverflow (.execute i.opcode (resolve s x) (resolve s y) r (s.cursor - 1)) := by
  have key : ∀ (b : Except Requirement (Except Fault Effect)), executePhase i s b = .fault g →
      (∃ r, s.cfg.strict = true ∧ g = .malformedInstruction (s.cursor - 1) i.opcode r) ∨ b = .ok (.error g) := by
    intro b hb
    unfold executePhase at hb
    split at hb
    · exact absurd hb (by simp)
    · split at hb
      · split at hb
        · injection hb with hb; exact .inl ⟨_, ‹_›, hb.symm⟩
        · exact absurd hb (by simp)
      · injection hb with hb; subst hb; exact .inr rfl
      · exact absurd hb (by simp)
  cases i with
  | loadAddress o1 o2 d a x =>
    refine (key _ h).imp_right fun he => ?_
    obtain ⟨r, -, -, he⟩ := past_destination he
    injection he with he; exact absurd he (by simp)
  | loadImmediate o1 o2 d x =>
    refine (key _ h).imp_right fun he => ?_
    obtain ⟨r, -, -, he⟩ := past_destination he
    obtain ⟨v, -, -, he⟩ := past_operand he
    injection he with he; exact absurd he (by simp)
  | store o1 o2 d a x =>
    refine (key _ h).imp_right fun he => ?_
    obtain ⟨x, -, -, he⟩ := past_operand he
    obtain ⟨k, -, he⟩ := past_address he
    injection he with he; exact absurd he (by simp)
  | add o1 o2 d a u =>
    refine (key _ h).imp_right fun he => ?_
    obtain ⟨x, y, rfl, rfl, hf, rfl⟩ := arithBody_fault he
    exact ⟨x, y, _, .add x y d a u, hf, rfl⟩
  | sub o1 o2 d a u =>
    refine (key _ h).imp_right fun he => ?_
    obtain ⟨x, y, rfl, rfl, hf, rfl⟩ := arithBody_fault he
    exact ⟨x, y, _, .sub x y d a u, hf, rfl⟩
  | mul o1 o2 d a u =>
    refine (key _ h).imp_right fun he => ?_
    obtain ⟨x, y, rfl, rfl, hf, rfl⟩ := arithBody_fault he
    exact ⟨x, y, _, .mul x y d a u, hf, rfl⟩
  | div o1 o2 d a u =>
    refine (key _ h).imp_right fun he => ?_
    obtain ⟨x, y, rfl, rfl, hf, rfl⟩ := arithBody_fault he
    exact ⟨x, y, _, .div x y d a u, hf, rfl⟩
  | jmp o1 o2 d a x =>
    exact (key (.ok (.ok (skip s))) h).imp_right fun he => absurd he (by simp)
  | jz o1 o2 d a x =>
    exact (key (.ok (.ok (skip s))) h).imp_right fun he => absurd he (by simp)
  | jnz o1 o2 d a x =>
    exact (key (.ok (.ok (skip s))) h).imp_right fun he => absurd he (by simp)
  | halt o1 o2 d a x =>
    exact (key (.ok (.ok (skip s))) h).imp_right fun he => absurd he (by simp)
  | mov o1 o2 d a x =>
    refine (key _ h).imp_right fun he => ?_
    obtain ⟨r, -, -, he⟩ := past_destination he
    obtain ⟨v, -, -, he⟩ := past_operand he
    injection he with he; exact absurd he (by simp)

/-- EXECUTE refuses ill-formed records only (log 9). -/
theorem exec_refused {i : Instr} {s : State} {r : Refusal} (h : exec i s = .refused r) : ¬ i.Wf s.cfg := by
  obtain ⟨b, hb, -⟩ := exec_eq_executePhase i s
  intro hw
  rw [hb] at h
  simp only [executePhase, show i.failedCheck s.cfg = none from hw] at h
  split at h
  · split at h <;> exact absurd h (by simp)
  · exact absurd h (by simp)
  · exact absurd h (by simp)

/-- Every effect of a body leaves these fields alone (40_cycle R85). -/
theorem BodyEffect.frame {i : Instr} {s : State} {e : Effect} (h : BodyEffect i s e) :
    e.state.cfg = s.cfg ∧ e.state.pc = s.pc ∧ e.state.irReg = s.irReg ∧ e.state.ir = s.ir ∧
    e.state.cursor = s.cursor ∧ e.state.program = s.program ∧ e.state.phase = s.phase ∧ e.state.cycle = s.cycle ∧
    e.state.bus = s.bus ∧ e.state.history = s.history ∧ e.state.draws = s.draws ∧
    e.state.gprs.names = s.gprs.names := by
  cases h <;> simp

/-- An EXECUTE whose body has one of the four effects has the shape of `Executed`. -/
theorem BodyEffect.executed {i : Instr} {s : State} {e : Effect} (h : BodyEffect i s e) :
    Executed i s (finishExecute (Config.execBus s.view i) e) e.regDeltas e.memDeltas := by
  obtain ⟨h1, h2, h3, h4, h5, h6, -, h8, h9, h10, h11, -⟩ := h.frame
  constructor <;> simp [h1, h2, h3, h4, h5, h6, h8, h9, h10, h11]

end Sys2Proof.Machine
end

