-- ==== Sys2Proof/Laws/Memory.lean ====
section
/-! SUPPORT. The laws of the data memory (20_memory R41): a read after a write to the same cell gives what was written, a write
leaves every other cell alone, and every memory operation keeps the canonical form. -/

namespace Sys2Proof.Machine

@[simp] theorem Memory.cell_nil (a : Nat) : Memory.cell [] a = Cell.blank := rfl

theorem Memory.cell_cons (b : Nat) (y : Cell) (m : Memory) (a : Nat) :
    Memory.cell ((b, y) :: m) a = if b = a then y else Memory.cell m a := rfl

/-- A cell below every listed address is blank. -/
theorem Memory.cell_of_lt {m : Memory} {a : Nat} (h : ∀ p ∈ m, a < p.1) : m.cell a = Cell.blank := by
  induction m with
  | nil => rfl
  | cons p m ih =>
    have hp : a < p.1 := h p (by simp)
    rw [Memory.cell_cons, if_neg (by omega), ih (fun q hq => h q (by simp [hq]))]

theorem Memory.cell_push_self (a : Nat) (x : Cell) {m : Memory} (h : ∀ p ∈ m, a < p.1) :
    (Memory.push a x m).cell a = x := by
  unfold Memory.push
  split
  · rw [Memory.cell_of_lt h]; exact Eq.symm ‹_›
  · simp [Memory.cell_cons]

theorem Memory.cell_push_other (x : Cell) (m : Memory) {a b : Nat} (h : a ≠ b) :
    (Memory.push a x m).cell b = m.cell b := by
  unfold Memory.push
  split
  · rfl
  · rw [Memory.cell_cons, if_neg h]

/-- A write leaves every other cell alone, in any memory. -/
theorem Memory.cell_put_other (m : Memory) (x : Cell) {a b : Nat} (h : a ≠ b) : (m.put a x).cell b = m.cell b := by
  induction m with
  | nil => exact Memory.cell_push_other x [] h
  | cons p m ih =>
    obtain ⟨c, y⟩ := p
    unfold Memory.put
    split_ifs with h1 h2
    · exact Memory.cell_push_other x _ h
    · rw [Memory.cell_push_other x _ h, Memory.cell_cons, if_neg (by omega)]
    · rw [Memory.cell_cons, Memory.cell_cons, ih]

theorem Memory.wf_nil : Memory.wf [] := by simp [Memory.wf]

theorem Memory.wf_cons {p : Nat × Cell} {m : Memory} :
    Memory.wf (p :: m) ↔ (∀ q ∈ m, p.1 < q.1) ∧ p.2 ≠ Cell.blank ∧ Memory.wf m := by
  simp only [Memory.wf, List.pairwise_cons, List.mem_cons, forall_eq_or_imp]
  tauto

/-- In a canonical memory a write puts its cell there. -/
theorem Memory.cell_put_self {m : Memory} (hm : m.wf) (a : Nat) (x : Cell) : (m.put a x).cell a = x := by
  induction m with
  | nil => exact Memory.cell_push_self a x (by simp)
  | cons p m ih =>
    obtain ⟨c, y⟩ := p
    obtain ⟨hlt, -, hm'⟩ := Memory.wf_cons.1 hm
    unfold Memory.put
    split_ifs with h1 h2
    · refine Memory.cell_push_self a x (fun q hq => ?_)
      rcases List.mem_cons.1 hq with rfl | hq
      · exact h1
      · exact lt_trans h1 (hlt q hq)
    · subst h2; exact Memory.cell_push_self _ x hlt
    · rw [Memory.cell_cons, if_neg h2, ih hm']

/-- The cell read after a write, wherever it is read. -/
theorem Memory.cell_put {m : Memory} (hm : m.wf) (a : Nat) (x : Cell) (b : Nat) :
    (m.put a x).cell b = if a = b then x else m.cell b := by
  split_ifs with h
  · subst h; exact Memory.cell_put_self hm a x
  · exact Memory.cell_put_other m x h

theorem Memory.wf_push {a : Nat} {x : Cell} {m : Memory} (h : ∀ p ∈ m, a < p.1) (hm : m.wf) :
    (Memory.push a x m).wf := by
  unfold Memory.push
  split
  · exact hm
  · exact Memory.wf_cons.2 ⟨h, ‹_›, hm⟩

theorem Memory.mem_push {a : Nat} {x : Cell} {m : Memory} {q : Nat × Cell} (h : q ∈ Memory.push a x m) :
    q = (a, x) ∨ q ∈ m := by
  unfold Memory.push at h
  split at h
  · exact .inr h
  · simpa using h

/-- What a write lists: its own cell or one listed before. -/
theorem Memory.mem_put {m : Memory} {a : Nat} {x : Cell} {q : Nat × Cell} (h : q ∈ m.put a x) :
    q = (a, x) ∨ q ∈ m := by
  induction m with
  | nil => exact Memory.mem_push h
  | cons p m ih =>
    obtain ⟨c, y⟩ := p
    unfold Memory.put at h
    split_ifs at h with h1 h2
    · exact Memory.mem_push h
    · rcases Memory.mem_push h with h | h
      · exact .inl h
      · exact .inr (List.mem_cons_of_mem _ h)
    · rcases List.mem_cons.1 h with h | h
      · exact .inr (by simp [h])
      · rcases ih h with h | h
        · exact .inl h
        · exact .inr (List.mem_cons_of_mem _ h)

/-- A write keeps the canonical form. -/
theorem Memory.wf_put {m : Memory} (hm : m.wf) (a : Nat) (x : Cell) : (m.put a x).wf := by
  induction m with
  | nil => exact Memory.wf_push (by simp) Memory.wf_nil
  | cons p m ih =>
    obtain ⟨c, y⟩ := p
    obtain ⟨hlt, hne, hm'⟩ := Memory.wf_cons.1 hm
    unfold Memory.put
    split_ifs with h1 h2
    · refine Memory.wf_push (fun q hq => ?_) hm
      rcases List.mem_cons.1 hq with rfl | hq
      · exact h1
      · exact lt_trans h1 (hlt q hq)
    · subst h2; exact Memory.wf_push hlt hm'
    · refine Memory.wf_cons.2 ⟨fun q hq => ?_, hne, ih hm'⟩
      rcases Memory.mem_put hq with rfl | hq
      · show c < a; omega
      · exact hlt q hq

theorem Memory.wf_write {m : Memory} (hm : m.wf) (a : Nat) (v : Int) : (m.write a v).wf := Memory.wf_put hm _ _
theorem Memory.wf_markUsed {m : Memory} (hm : m.wf) (a : Nat) : (m.markUsed a).wf := Memory.wf_put hm _ _
theorem Memory.wf_markActive {m : Memory} (hm : m.wf) (a : Nat) : (m.markActive a).wf := Memory.wf_put hm _ _

theorem Memory.mem_clearActive {m : Memory} {q : Nat × Cell} (h : q ∈ m.clearActive) :
    ∃ x, (q.1, x) ∈ m ∧ q.2 = { x with active := false } := by
  induction m with
  | nil => exact absurd h (by simp [Memory.clearActive])
  | cons p m ih =>
    obtain ⟨c, y⟩ := p
    rcases Memory.mem_push h with rfl | h
    · exact ⟨y, by simp, rfl⟩
    · obtain ⟨x, hx, he⟩ := ih h
      exact ⟨x, List.mem_cons_of_mem _ hx, he⟩

/-- Clearing the active flags keeps the canonical form. -/
theorem Memory.wf_clearActive {m : Memory} (hm : m.wf) : m.clearActive.wf := by
  induction m with
  | nil => exact Memory.wf_nil
  | cons p m ih =>
    obtain ⟨c, y⟩ := p
    obtain ⟨hlt, -, hm'⟩ := Memory.wf_cons.1 hm
    refine Memory.wf_push (fun q hq => ?_) (ih hm')
    obtain ⟨x, hx, -⟩ := Memory.mem_clearActive hq
    exact hlt (q.1, x) hx

/-- Clearing the active flags clears each cell's and changes nothing else, in a canonical memory. -/
theorem Memory.cell_clearActive {m : Memory} (hm : m.wf) (a : Nat) :
    m.clearActive.cell a = { m.cell a with active := false } := by
  induction m with
  | nil => rfl
  | cons p m ih =>
    obtain ⟨c, y⟩ := p
    obtain ⟨hlt, -, hm'⟩ := Memory.wf_cons.1 hm
    have hc : ∀ q ∈ Memory.clearActive m, c < q.1 := by
      intro q hq
      obtain ⟨x, hx, -⟩ := Memory.mem_clearActive hq
      exact hlt (q.1, x) hx
    show (Memory.push c _ (Memory.clearActive m)).cell a = _
    by_cases h : c = a
    · subst h; rw [Memory.cell_push_self _ _ hc, Memory.cell_cons, if_pos rfl]
    · rw [Memory.cell_push_other _ _ h, Memory.cell_cons, if_neg h, ih hm']

/-- The cell after STORE's three operations on it (41_load_store R96). -/
theorem Memory.cell_stored {m : Memory} (hm : m.wf) (a : Nat) (v : Int) (b : Nat) :
    (((m.write a v).markUsed a).markActive a).cell b = if a = b then ⟨v, true, true⟩ else m.cell b := by
  have h1 := Memory.wf_write hm a v
  have h2 := Memory.wf_markUsed h1 a
  unfold Memory.markActive
  rw [Memory.cell_put h2]
  unfold Memory.markUsed
  rw [Memory.cell_put h1, Memory.cell_put h1]
  unfold Memory.write
  rw [Memory.cell_put hm, Memory.cell_put hm]
  by_cases h : a = b
  · subst h; simp
  · simp [h]

/-- The cell after LOAD's mark (41_load_store R94). -/
theorem Memory.cell_markUsed {m : Memory} (hm : m.wf) (a b : Nat) :
    (m.markUsed a).cell b = if a = b then { m.cell a with used := true } else m.cell b :=
  Memory.cell_put hm a _ b

/-- The memory after construction has the canonical form (10_state R40). -/
theorem State.reset_memory_wf : State.reset.mem.wf := Memory.wf_nil

end Sys2Proof.Machine
end

