-- ==== Sys2Proof/Laws/PerInstr.lean ====
section
/-! SUPPORT. Per-instruction families. `RecordRoundTrip`: the record of an instruction gives the instruction back, so the
constructors of `Instr` and the records of 30_encoding R65 are the same data. -/

namespace Sys2Proof.Laws.RecordRoundTrip

/-- Reading an instruction's record as an instruction gives it back (30_encoding R65, R67). -/
def Statement (i : Instr) : Prop := i.record.instr = i

theorem loadAddress (o1 o2 : Option Operand) (d : Option String) (a : Nat) (t : String) :
    Statement (.loadAddress o1 o2 d a t) := rfl
theorem loadImmediate (o1 o2 : Option Operand) (d : Option String) (t : String) :
    Statement (.loadImmediate o1 o2 d t) := rfl
theorem store (o1 o2 : Option Operand) (d : Option String) (a : Option Nat) (t : String) :
    Statement (.store o1 o2 d a t) := rfl
theorem add (o1 o2 : Option Operand) (d : Option String) (a : Option Nat) (t : String) :
    Statement (.add o1 o2 d a t) := rfl
theorem sub (o1 o2 : Option Operand) (d : Option String) (a : Option Nat) (t : String) :
    Statement (.sub o1 o2 d a t) := rfl
theorem mul (o1 o2 : Option Operand) (d : Option String) (a : Option Nat) (t : String) :
    Statement (.mul o1 o2 d a t) := rfl
theorem div (o1 o2 : Option Operand) (d : Option String) (a : Option Nat) (t : String) :
    Statement (.div o1 o2 d a t) := rfl
theorem jmp (o1 o2 : Option Operand) (d : Option String) (a : Option Nat) (t : String) :
    Statement (.jmp o1 o2 d a t) := rfl
theorem jz (o1 o2 : Option Operand) (d : Option String) (a : Option Nat) (t : String) :
    Statement (.jz o1 o2 d a t) := rfl
theorem jnz (o1 o2 : Option Operand) (d : Option String) (a : Option Nat) (t : String) :
    Statement (.jnz o1 o2 d a t) := rfl
theorem halt (o1 o2 : Option Operand) (d : Option String) (a : Option Nat) (t : String) :
    Statement (.halt o1 o2 d a t) := rfl
theorem mov (o1 o2 : Option Operand) (d : Option String) (a : Option Nat) (t : String) :
    Statement (.mov o1 o2 d a t) := rfl

end Sys2Proof.Laws.RecordRoundTrip
end

