-- ==== Sys2Proof/Laws/Step.lean ====
section
/-! SUPPORT. What `step` can do, said once (40_cycle R80): every invariant is a short case analysis on it. -/

namespace Sys2Proof.Machine

/-- The five cases in which a step answers a next state. -/
inductive StepCase (s : State) : State → Prop where
  /-- Nothing remains: IDLE, and nothing else changes. -/
  | idle (hp : s.phase = .idle ∨ s.phase = .store) (hr : s.program[s.cursor]? = none) :
      StepCase s { s with phase := .idle }
  | fetch (i : Instr) (p : Int) (hp : s.phase = .idle ∨ s.phase = .store) (hr : s.program[s.cursor]? = some i)
      (hf : fit s.cfg (s.pc.value + 1) = some p) : StepCase s (fetched i p s)
  | decode (hp : s.phase = .fetch) : StepCase s (decodePhase s)
  | execute (i : Instr) (e : Effect) (hp : s.phase = .decode) (hi : s.ir = some i) (hw : i.Wf s.cfg)
      (he : BodyEffect i s e) : StepCase s (finishExecute (Config.execBus s.view i) e)
  | store (hp : s.phase = .execute) : StepCase s (storePhase s)

theorem fetchOrIdle_cases {s t : State} (hp : s.phase = .idle ∨ s.phase = .store) (h : fetchOrIdle s = .next t) :
    StepCase s t := by
  unfold fetchOrIdle at h
  split at h
  · rename_i i hi
    unfold fetchPhase at h
    split at h
    · exact absurd h (by simp)
    · injection h with h; subst h
      exact .fetch i _ hp hi ‹_›
  · injection h with h; subst h
    exact .idle hp ‹_›

/-- What a step can do when it answers a next state. -/
theorem step_cases {s t : State} (h : step s = .next t) : StepCase s t := by
  unfold step at h
  split at h
  · exact fetchOrIdle_cases (.inl ‹_›) h
  · exact fetchOrIdle_cases (.inr ‹_›) h
  · injection h with h; subst h; exact .decode ‹_›
  · unfold executeCurrent at h
    split at h
    · rename_i i hi
      obtain ⟨hw, e, he, rfl⟩ := exec_effect h
      exact .execute i e ‹_› hi hw he
    · exact absurd h (by simp)
  · injection h with h; subst h; exact .store ‹_›

end Sys2Proof.Machine
end

