-- ==== Sys2Proof/Laws/Run.lean ====
section
/-! SUPPORT. Runs of several steps (40_cycle R90). -/

namespace Sys2Proof.Machine

@[simp] theorem reaches_zero {s t : State} : Reaches 0 s t ↔ s = t := by
  unfold Reaches
  constructor
  · intro h; injection h
  · rintro rfl; rfl

/-- A run starts with its first step. -/
theorem reaches_succ {n : Nat} {s t : State} : Reaches (n + 1) s t ↔ ∃ u, step s = .next u ∧ Reaches n u t := by
  unfold Reaches
  simp only [Host.Core.run]
  rw [show core.step s = step s from rfl]
  cases hs : step s with
  | next u => simp
  | fault f => simp
  | refused r => simp

/-- A run is a first part and a second part. -/
theorem reaches_add {m n : Nat} {s t : State} : Reaches (m + n) s t ↔ ∃ u, Reaches m s u ∧ Reaches n u t := by
  induction m generalizing s with
  | zero => simp
  | succ m ih =>
    rw [show m + 1 + n = (m + n) + 1 by omega, reaches_succ]
    constructor
    · rintro ⟨v, hv, h⟩
      obtain ⟨u, hu, h⟩ := ih.1 h
      exact ⟨u, reaches_succ.2 ⟨v, hv, hu⟩, h⟩
    · rintro ⟨u, hu, h⟩
      obtain ⟨v, hv, hu⟩ := reaches_succ.1 hu
      exact ⟨v, hv, ih.2 ⟨u, hu, h⟩⟩

/-- A run ends in one state at most. -/
theorem reaches_unique {n : Nat} {s t u : State} (h : Reaches n s t) (h' : Reaches n s u) : t = u := by
  have := h.symm.trans h'
  injection this

/-- The package of an induction: what one state has and every step keeps, every run keeps. -/
theorem reaches_invariant {P : State → Prop} (hs : ∀ s t, P s → step s = .next t → P t) {n : Nat} {s t : State}
    (h : Reaches n s t) (hp : P s) : P t := by
  induction n generalizing s with
  | zero => rw [← reaches_zero.1 h]; exact hp
  | succ n ih =>
    obtain ⟨u, hu, h⟩ := reaches_succ.1 h
    exact ih h (hs s u hp hu)

end Sys2Proof.Machine
end

