-- ==== Sys2Proof/Tests/Slice0.lean ====
section
/-! SUPPORT. The model's own tests. Expected values come from spec/95_test_vectors.md (cited as V-... and W...), from worked
examples in the rules, or are encodings written out bit by bit from 30_encoding. The last part shows, for every obligation
with hypotheses, concrete data that meet all of them. -/

namespace Sys2Proof.Tests

open Sys2Proof.Machine

/-! ### Helpers -/

/-- A literal operand. -/
abbrev lit (n : Int) : Option Operand := some (.literal n)

/-- A register operand. -/
abbrev reg (r : String) : Option Operand := some (.registerRef r)

/-- A newly built machine with parameters of one's choice. -/
def machineWith (c : Config) : State := State.construct c

/-- The machine `s` about to EXECUTE `i`, the only record of its program, in its first cycle. -/
def about (s : State) (i : Instr) : State :=
  { s with
    program := [i]
    cursor := 1
    ir := some i
    phase := .decode
    cycle := 1
    history := [⟨1, .fetch, some i, [], []⟩, ⟨1, .decode, some i, [], []⟩] }

/-- The default machine about to EXECUTE `i`. -/
def ready (i : Instr) : State := about State.reset i

/-- The default machine with `r` holding `v`. -/
def holding (r : String) (v : Int) : State := { State.reset with gprs := State.reset.gprs.put r ⟨v, false⟩ }

/-- The default parameters with `OVERFLOW = wrap`. -/
def wrapping : Config := { Config.default with overflow := .wrap }

/-- The default parameters with `STRICT = true`. -/
def strictly : Config := { Config.default with strict := true }

/-- What is read off the next state of an outcome. -/
def after {α : Type} (o : Host.Outcome State Fault Refusal) (f : State → α) : Option α :=
  match o with
  | .next t => some (f t)
  | .fault _ => none
  | .refused _ => none

/-- The fault of an outcome. -/
def faultOf (o : Host.Outcome State Fault Refusal) : Option Fault :=
  match o with
  | .fault g => some g
  | _ => none

/-- The refusal of an outcome. -/
def refusalOf (o : Host.Outcome State Fault Refusal) : Option Refusal :=
  match o with
  | .refused r => some r
  | _ => none

/-! ### Ill-formed records are refused, by each check (V-wf) -/

theorem test_wf_literal :
    refusalOf (State.reset.loadProgram [.mov (lit 2147483648) none (some "R0") none ""]) =
      some (.illFormedProgram 0 .wfLiteral) := by decide

theorem test_wf_address :
    refusalOf (State.reset.loadProgram
      [.mov (lit 1) none (some "R0") none "", .loadAddress none none (some "R0") 0x10000 ""]) =
      some (.illFormedProgram 1 .wfAddress) := by decide

theorem test_wf_no_special :
    refusalOf (State.reset.loadProgram [.mov (lit 5) none (some "PC") none ""]) =
      some (.illFormedProgram 0 .wfNoSpecial) ∧
    refusalOf (State.reset.loadProgram [.add (reg "IR") (lit 1) (some "R0") none ""]) =
      some (.illFormedProgram 0 .wfNoSpecial) := by decide

theorem test_wf_order :
    refusalOf (State.reset.loadProgram [.store (lit (-2147483649)) none none (some 0x10000) ""]) =
      some (.illFormedProgram 0 .wfLiteral) := by decide

theorem test_wf_small_memory :
    refusalOf ((machineWith { Config.default with memSize := 0x101 }).loadProgram
      [.store (reg "R0") none none (some 0x101) ""]) = some (.illFormedProgram 0 .wfAddress) := by decide

theorem test_wf_missing_register_accepted :
    after (State.reset.loadProgram [.mov (lit 1) none (some "R9") none ""]) State.cursor = some 0 := by decide

/-! ### Encoding (V-enc) -/

theorem test_encode_load :
    (Instr.loadAddress none none none 0x100 "").encode Config.default = "010100" ∧
    (Instr.loadImmediate (lit 5) none (some "R1") "").encode Config.default = "01" := by decide

theorem test_encode_store :
    (Instr.store (reg "R0") none none (some 0xFFFF) "").encode Config.default = "02ffff" ∧
    (Instr.store (reg "R0") none none (some 0) "").encode Config.default = "020000" := by decide

theorem test_encode_add :
    (Instr.add (lit 5) (lit 3) (some "R3") none "").encode Config.default = "030503" ∧
    (Instr.add (lit 2147483647) (lit 1) (some "R0") none "").encode Config.default = "03ff01" := by decide

theorem test_encode_sub_mul :
    (Instr.sub (lit 10) (lit 3) (some "R0") none "").encode Config.default = "040a03" ∧
    (Instr.mul (lit 256) (lit 0) (some "R0") none "").encode Config.default = "050000" := by decide

theorem test_encode_div :
    (Instr.div (lit (-128)) (lit 127) (some "R0") none "").encode Config.default = "06807f" ∧
    (Instr.div (lit 7) none none (some 5) "").encode Config.default = "060005" := by decide

theorem test_encode_mov :
    (Instr.mov (lit 255) (lit (-1)) (some "R0") none "").encode Config.default = "0bffff" ∧
    (Instr.mov (lit 7) none (some "R4") none "").encode Config.default = "0b" := by decide

theorem test_encode_control :
    (Instr.jmp none none none (some 0x0A) "").encode Config.default = "07000a" ∧
    (Instr.jz (lit 1) none none none "").encode Config.default = "08" ∧
    (Instr.jnz (reg "R1") (reg "R2") none none "").encode Config.default = "090000" ∧
    (Instr.halt none none none none "").encode Config.default = "0a" := by decide

/-- 00_scope R12: the letters follow HEX_CASE. -/
theorem test_encode_upper :
    (Instr.halt none none none none "").encode { Config.default with hexCase := .upper } = "0A" := by decide

/-! ### Decoding words written out from 30_encoding R69 to R72 -/

theorem test_decode_load :
    decodeInstr Config.default [0b00000001, 0b00000001, 0b00000000] = .ok (.loadAddress none none (some "R0") 0x100 "") ∧
    decodeInstr Config.default [0b00000001] = .ok (.loadImmediate (lit 0) none (some "R0") "") := by
  refine ⟨?_, ?_⟩ <;> rfl

theorem test_decode_store :
    decodeInstr Config.default [0b00000010, 0b11111111, 0b11111110] = .ok (.store (lit 0) none none (some 0xFFFE) "") := rfl

theorem test_decode_add :
    decodeInstr Config.default [0b00000011, 0b00000101, 0b00000011] = .ok (.add (lit 5) (lit 3) (some "R0") none "") := rfl

theorem test_decode_sub :
    decodeInstr Config.default [0b00000100, 0b00001010, 0b00000011] = .ok (.sub (lit 10) (lit 3) (some "R0") none "") := rfl

theorem test_decode_mul :
    decodeInstr Config.default [0b00000101, 0b00000101, 0b00000100] = .ok (.mul (lit 5) (lit 4) (some "R0") none "") := rfl

theorem test_decode_div :
    decodeInstr Config.default [0b00000110, 0b10000000, 0b01111111] = .ok (.div (lit 128) (lit 127) (some "R0") none "") := rfl

theorem test_decode_control :
    decodeInstr Config.default [0b00000111] = .ok (.jmp none none none none "") ∧
    decodeInstr Config.default [0b00001000] = .ok (.jz none none none none "") ∧
    decodeInstr Config.default [0b00001001] = .ok (.jnz none none none none "") ∧
    decodeInstr Config.default [0b00001010] = .ok (.halt none none none none "") ∧
    decodeInstr Config.default [0b00000111, 0, 0b00001010] = .ok (.jmp none none none (some 0x0A) "") := by
  refine ⟨?_, ?_, ?_, ?_, ?_⟩ <;> rfl

theorem test_decode_mov :
    decodeInstr Config.default [0b00001011] = .ok (.mov (lit 0) none (some "R0") none "") := rfl

/-- V-enc: 0x00, 0x0c and 0xff are invalid first bytes; a second byte alone is no encoding. -/
theorem test_decode_rejects :
    decodeInstr Config.default [0x00] = .error (.unassignedFirstByte 0x00) ∧
    decodeInstr Config.default [0x0C] = .error (.unassignedFirstByte 0x0C) ∧
    decodeInstr Config.default [0xFF, 0, 0] = .error (.unassignedFirstByte 0xFF) ∧
    decodeInstr Config.default [0x01, 0x00] = .error (.badLength 2) := by
  refine ⟨?_, ?_, ?_, ?_⟩ <;> rfl

/-- Rows of spec/opcode_table.json, by their match words. -/
theorem test_table_rows :
    (decodeTableWord 24 0x010000).map Instr.opcode = some .load ∧ (decodeTableWord 8 0x01).map Instr.opcode = some .load ∧
    (decodeTableWord 24 0x060000).map Instr.opcode = some .div ∧ (decodeTableWord 8 0x0A).map Instr.opcode = some .halt ∧
    decodeTableWord 8 0x0C = none := by decide

/-- The first step after placing a word is the instruction's EXECUTE: MOV of the representative literal 0 to R0 (log 6, log 8). -/
theorem test_place_word :
    after (step (State.reset.withFetchWord 8 0x0B)) (fun t => (t.phase, t.gprActive "R0")) = some (.execute, true) := by decide

/-! ### Arithmetic (W1, V-arith) -/

theorem test_add :
    after (exec (.add (lit (-5)) (lit 3) (some "R0") none "") State.reset) (fun t => t.gpr "R0") = some (-2) ∧
    after (exec (.add (reg "R1") (reg "R1") (some "R1") none "") (holding "R1" 21)) (fun t => t.gpr "R1") = some 42 := by
  decide

theorem test_add_overflow :
    faultOf (exec (.add (lit 2147483647) (lit 1) (some "R0") none "") (ready (.add none none none none ""))) =
      some (.arithOverflow (.execute .add 2147483647 1 2147483648 0)) ∧
    after (exec (.add (lit 2147483647) (lit 1) (some "R0") none "") (machineWith wrapping)) (fun t => t.gpr "R0") =
      some (-2147483648) := by decide

theorem test_sub :
    after (exec (.sub (lit 3) (lit 10) (some "R0") none "") State.reset) (fun t => t.gpr "R0") = some (-7) ∧
    after (exec (.sub (lit 0) (lit (-2147483648)) (some "R0") none "") (machineWith wrapping)) (fun t => t.gpr "R0") =
      some (-2147483648) := by decide

theorem test_mul :
    after (exec (.mul (lit (-3)) (lit 4) (some "R0") none "") State.reset) (fun t => t.gpr "R0") = some (-12) ∧
    after (exec (.mul (lit 46341) (lit 46341) (some "R0") none "") (machineWith wrapping)) (fun t => t.gpr "R0") =
      some (-2147479015) := by decide

theorem test_div :
    after (exec (.div (lit (-7)) (lit 2) (some "R0") none "") State.reset) (fun t => t.gpr "R0") = some (-4) ∧
    after (exec (.div (lit 7) (lit (-2)) (some "R0") none "") State.reset) (fun t => t.gpr "R0") = some (-4) ∧
    after (exec (.div (lit (-7)) (lit (-2)) (some "R0") none "") State.reset) (fun t => t.gpr "R0") = some 3 ∧
    after (exec (.div (lit 10) (lit 3) (some "R0") none "") State.reset) (fun t => t.gpr "R0") = some 3 := by decide

theorem test_div_corners :
    after (exec (.div (lit (-2147483648)) (lit 0) (some "R0") none "") (holding "R0" 9)) (fun t => t.gpr "R0") = some 0 ∧
    faultOf (exec (.div (lit (-2147483648)) (lit (-1)) (some "R0") none "") (ready (.div none none none none ""))) =
      some (.arithOverflow (.execute .div (-2147483648) (-1) 2147483648 0)) ∧
    after (exec (.div (lit (-2147483648)) (lit (-1)) (some "R0") none "") (machineWith wrapping)) (fun t => t.gpr "R0") =
      some (-2147483648) := by decide

/-! ### Moves, loads and stores (V-mov, V-mem) -/

/-- V-mov: the delta is recorded, also of an equal value; the source register is not made active. -/
theorem test_mov :
    after (exec (.mov (reg "R2") none (some "R2") none "") State.reset) (fun t => t.history.map StepRecord.regDeltas) =
      some [[⟨"R2", 0, 0⟩]] ∧
    after (exec (.mov (reg "R1") none (some "R2") none "") (holding "R1" 5))
      (fun t => (t.gpr "R2", t.gprActive "R2", t.gprActive "R1")) = some (5, true, false) := by decide

theorem test_load_immediate :
    after (exec (.loadImmediate (lit 5) none (some "R1") "") State.reset)
      (fun t => (t.gpr "R1", t.cache.l1.misses, t.mem)) = some (5, 0, []) := by decide

/-- R94's example: the cell's value, the used flag alone, one miss and slot 0 filled. -/
theorem test_load_miss :
    after (exec (.loadAddress none none (some "R1") 0x100 "")
      (about { State.reset with mem := [(0x100, ⟨8, false, false⟩)] } (.loadAddress none none (some "R1") 0x100 "")))
      (fun t => (t.gpr "R1", t.mem, t.cache.l1.misses, t.cache.l1.lines.head?)) =
      some (8, [(0x100, ⟨8, false, true⟩)], 1, some ⟨0x100, 8, true, false, 1⟩) := by decide

/-- V-mem: the second LOAD of a cell hits in L1; W3's shape of a line that a hit leaves but for its stamp. -/
theorem test_load_hit :
    after (exec (.loadAddress none none (some "R1") 0x40 "")
      { about State.reset (.loadAddress none none (some "R1") 0x40 "") with
        cycle := 2
        cache := ⟨⟨[⟨0x40, 0, true, false, 1⟩, Line.blank], 0, 1, LevelStatus.cleared⟩, CacheLevel.blank 1, CacheLevel.blank 1⟩ })
      (fun t => (t.cache.l1.hits, t.cache.l1.misses, t.cache.l1.lines.head?, t.cache.l1.status)) =
      some (1, 1, some ⟨0x40, 0, true, false, 2⟩, ⟨true, true, some 0x40⟩) := by decide

/-- V-mem: the cell after the EXECUTE of a STORE, the line it makes, the delta. -/
theorem test_store :
    after (exec (.store (reg "R0") none none (some 0x40) "")
      { about (holding "R0" 3) (.store (reg "R0") none none (some 0x40) "") with cycle := 2, history := [] })
      (fun t => (t.mem, t.cache.l1.lines.head?, t.cache.l1.misses, t.history.map StepRecord.memDeltas)) =
      some ([(0x40, ⟨3, true, true⟩)], some ⟨0x40, 3, true, true, 2⟩, 1, [[⟨0x40, 0, 3⟩]]) := by decide

/-- V-mem: the STORE phase clears the cell's active flag and keeps its used flag; a blank cell leaves the list. -/
theorem test_store_phase :
    after (step { State.reset with phase := .execute, mem := [(0x40, ⟨3, true, true⟩), (0x41, ⟨0, true, false⟩)] }) State.mem =
      some [(0x40, ⟨3, false, true⟩)] := by decide

/-! ### Control opcodes (V-ctl) -/

theorem test_control :
    after (exec (.jmp none none none (some 0) "") State.reset) (fun t => (t.cursor, t.gprs)) = some (0, State.reset.gprs) ∧
    after (exec (.jz none none none none "") (holding "R1" 0)) (fun t => (t.cursor, t.pc)) = some (0, Reg.blank) ∧
    after (exec (.jnz (reg "R9") none (some "R9") none "") (machineWith strictly)) (fun t => t.cursor) = some 0 ∧
    after (exec (.halt none none none none "") State.reset) (fun t => (t.phase, t.cursor)) = some (.execute, 0) := by decide

/-! ### The victim (V-victim) -/

/-- Three lines, an invalid one for 0 and else a valid one with that stamp. -/
def threeLines (x y z : Nat) : List Line := [x, y, z].map (fun n => ⟨n, 0, decide (n ≠ 0), false, n⟩)

theorem test_victim_invalid :
    [victim (threeLines 0 0 0), victim (threeLines 4 0 0), victim (threeLines 4 5 0), victim (threeLines 0 5 6),
      victim (threeLines 4 0 6)] = [0, 1, 2, 0, 1] := by decide

theorem test_victim_oldest :
    [victim (threeLines 7 5 6), victim (threeLines 5 6 4), victim (threeLines 3 3 5), victim (threeLines 9 2 2)] =
      [1, 2, 0, 1] := by decide

/-! ### Malformed instructions (V-malf) -/

theorem test_malformed_requirements :
    [failedRequirement Config.default (.add (lit 1) none (some "R1") none ""),
      failedRequirement Config.default (.add (lit 1) (lit 2) none none ""),
      failedRequirement Config.default (.add (reg "R9") (lit 2) (some "R1") none ""),
      failedRequirement Config.default (.loadImmediate none none (some "R1") ""),
      failedRequirement Config.default (.loadAddress none none none 5 ""),
      failedRequirement Config.default (.store (reg "R1") none none none ""),
      failedRequirement Config.default (.store none none none (some 5) ""),
      failedRequirement Config.default (.mov (lit 1) none (some "r1") none "")] =
    [some .operand2, some .destination, some .operand1, some .operand1, some .destination, some .address, some .operand1,
      some .destination] := by decide

theorem test_malformed_skipped :
    after (exec (.loadAddress none none none 5 "") State.reset) (fun t => (t.mem, t.cache.l1.misses, t.phase)) =
      some ([], 0, .execute) ∧
    faultOf (exec (.loadAddress none none none 5 "") (about (machineWith strictly) (.loadAddress none none none 5 ""))) =
      some (.malformedInstruction 0 .load .destination) := by decide

/-! ### The step machine (V-cycle) -/

theorem test_step_idle : after (step State.reset) State.phase = some .idle ∧ stepReturns State.reset = false := by decide

theorem test_step_fetch :
    after (step (installProgram [.mov (lit 1) none (some "R0") none ""] State.reset))
      (fun t => (t.cycle, t.cursor, t.pc, t.bus.map BusRecord.transfer)) =
      some (1, 1, ⟨1, true⟩, [⟨.address, "PC", "Memory"⟩, ⟨.data, "Memory", "InstructionRegister"⟩]) := by decide

/-! ### The hypotheses of the obligations can be met -/

/-- `ADD 5, 3 → R0`. -/
abbrev addI : Instr := .add (lit 5) (lit 3) (some "R0") none ""

/-- `STORE R0 → [0x40]`. -/
abbrev storeI : Instr := .store (reg "R0") none none (some 0x40) ""

/-- `LOAD [0x40] → R1`. -/
abbrev loadI : Instr := .loadAddress none none (some "R1") 0x40 ""

theorem test_hyp_EncodingFormatsAndFields :
    Config.default.Wf ∧ (Instr.loadAddress none none none 0xFFFF "").Wf Config.default ∧
    (Instr.loadAddress none none none 0xFFFF "").record.address = some 0xFFFF ∧
    (Instr.mov (lit (-1)) (reg "R9") none none "").Wf Config.default ∧
    (Instr.mov (lit (-1)) (reg "R9") none none "").record.operand1 = some (.literal (-1)) ∧
    (Instr.mov (lit (-1)) (reg "R9") none none "").record.operand2 = some (.registerRef "R9") ∧
    (Instr.jz (lit 1) none none none "").Wf Config.default ∧ (Instr.jz (lit 1) none none none "").record.operand2 = none := by
  decide

theorem test_hyp_EncodeWritesTwoDigitsPerByte : (addI.encodeBytes Config.default)[2]? = some 3 := by decide

theorem test_hyp_DecodeOfEncodeRecoversOpcodeAndBytes : Config.default.Wf := by decide

theorem test_hyp_EncodeOfDecodeGivesTheBytes :
    Config.default.Wf ∧ decodeInstr Config.default [0x07] = .ok (.jmp none none none none "") ∧
    decodeInstr Config.default [0x03, 0xFF, 0x01] = .ok (.add (lit 255) (lit 1) (some "R0") none "") :=
  ⟨by decide, rfl, rfl⟩

theorem test_hyp_UnassignedFirstBytesRejected :
    Config.default.Wf ∧ 0x0C ≤ (0x0C : Byte).toNat ∧ 0x0C ≤ (0xFF : Byte).toNat ∧ 1 ≤ (0x01 : Byte).toNat ∧
    (0x0B : Byte).toNat ≤ 0x0B := by decide

theorem test_hyp_LoadProgramRefusesLowestRecord :
    (∃ k check, State.reset.loadProgram [.mov (lit 5) none (some "PC") none ""] = .refused (.illFormedProgram k check)) ∧
    HostCall.reset ∉ [HostCall.step, .loadProgram [.mov (lit 5) none (some "PC") none ""]] :=
  ⟨⟨_, _, rfl⟩, by decide⟩

theorem test_hyp_LoadProgramInstalls :
    (∀ i ∈ [addI, storeI], i.Wf State.reset.cfg) ∧
    ∃ i ∈ [addI, Instr.mov (lit 5) none (some "PC") none ""], ¬ i.Wf State.reset.cfg := by decide

/-- A step that faults: the PC at the top of `Word`. -/
def pcAtTop (c : Config) : State := { installProgram [addI] (machineWith c) with pc := ⟨2147483647, true⟩ }

theorem test_hyp_FaultLastsUntilReset :
    (∃ f, step (pcAtTop Config.default) = .fault f) ∧ (CoreMachine.construct Config.default).faulted = none ∧
    (⟨State.reset, some .noInstruction, []⟩ : CoreMachine).faulted = some .noInstruction ∧
    HostCall.reset ∉ [HostCall.step, .loadProgram [], .getState 0] := ⟨⟨_, rfl⟩, rfl, rfl, by decide⟩

theorem test_hyp_ObservingChangesNothing :
    ∀ c ∈ [HostCall.getState 0, .encode addI, .getState 1], (∃ o, c = .getState o) ∨ ∃ i, c = .encode i := by
  simp

theorem test_hyp_StepPerformsTheNextPhase :
    stepReturns State.reset = false ∧ stepReturns (ready addI) = true ∧ (∃ t, step (ready addI) = .next t) ∧
    stepReturns { ready addI with phase := .store } = false ∧ (CoreMachine.construct Config.default).faulted = none :=
  ⟨by decide, by decide, ⟨_, rfl⟩, by decide, rfl⟩

theorem test_hyp_StepRunsTheFetchedInstruction :
    (ready addI).phase = .decode ∧ (ready addI).ir = some addI ∧
    (installProgram [addI] State.reset).program[(installProgram [addI] State.reset).cursor]? = some addI ∧
    (∃ t, step (installProgram [addI] State.reset) = .next t) ∧
    (∃ t, step { installProgram [addI] State.reset with phase := .store } = .next t) :=
  ⟨rfl, rfl, rfl, ⟨_, rfl⟩, ⟨_, rfl⟩⟩

theorem test_hyp_FetchEffect :
    1 ≤ Config.default.wordBits ∧ (pcAtTop Config.default).phase = .idle ∧ (pcAtTop Config.default).program[0]? = some addI ∧
    FitsTo Config.default (0 + 1) 1 ∧ FitsTo Config.default 2147483647 2147483647 ∧
    FitsTo wrapping (2147483647 + 1) (-2147483648) ∧ Overflows Config.default (2147483647 + 1) := by decide

theorem test_hyp_DecodeEffect : ({ State.reset with phase := .fetch } : State).phase = .fetch := rfl

theorem test_hyp_StorePhaseEffect :
    ({ State.reset with phase := .execute } : State).phase = .execute ∧ Memory.wf [(0x40, ⟨3, true, true⟩)] := by decide

theorem test_hyp_EveryPhaseAppendsItsRecord :
    stepReturns (ready (.mov none none none none "")) = true ∧
    (∃ t, step (ready (.mov none none none none "")) = .next t ∧ t.phase = .execute) ∧
    (failedRequirement Config.default (.mov none none none none "")).isSome ∧
    (∃ t, step { State.reset with phase := .execute } = .next t ∧ t.phase ≠ .execute) :=
  ⟨by decide, ⟨_, rfl, by decide⟩, by decide, ⟨_, rfl, by decide⟩⟩

theorem test_hyp_InstructionTakesFourSteps :
    1 ≤ Config.default.wordBits ∧ State.reset.mem.wf ∧ (installProgram [addI] State.reset).phase = .idle ∧
    (installProgram [addI] State.reset).program[0]? = some addI ∧ FitsTo Config.default (0 + 1) 1 ∧
    (∃ d t, Reaches 2 (installProgram [addI] State.reset) d ∧ exec addI d = .next t) ∧
    ∃ d f, Reaches 2 (installProgram [.add (lit 2147483647) (lit 1) (some "R0") none ""] State.reset) d ∧
      exec (.add (lit 2147483647) (lit 1) (some "R0") none "") d = .fault f :=
  ⟨by decide, by decide, by decide, by decide, by decide, ⟨_, _, rfl, rfl⟩, ⟨_, _, rfl, rfl⟩⟩

theorem test_hyp_RunTakesFourStepsPerRecord :
    (installProgram [addI] State.reset).phase = .idle ∧ (installProgram [addI] State.reset).cursor = 0 ∧
    (∃ t, Reaches (4 * [addI].length) (installProgram [addI] State.reset) t) ∧
    ∃ t, Reaches (4 * 0) State.reset t := ⟨rfl, rfl, ⟨_, rfl⟩, ⟨_, rfl⟩⟩

theorem test_hyp_MalformedInstructionsAreSkipped :
    (Instr.mov none none (some "R0") none "").Wf Config.default ∧
    FirstUnmet Config.default (.mov none none (some "R0") none "") .operand1 ∧
    (∃ k op r, step (about (machineWith strictly) (.mov none none (some "R0") none "")) =
      .fault (.malformedInstruction k op r)) :=
  ⟨by decide, ⟨[.destination], [], rfl, by simp [Meets, Instr.record, Config.default],
    by simp [Meets, OperandMet, Instr.record]⟩, ⟨_, _, _, rfl⟩⟩

theorem test_hyp_IllFormedRecordsAreRefused :
    (Instr.mov (lit 5) none (some "PC") none "").failedCheck State.reset.cfg = some .wfNoSpecial := by decide

theorem test_hyp_FitBringsResultsIntoWord : 1 ≤ Config.default.wordBits := by decide

theorem test_hyp_OverflowFaultHasItsCauses :
    (∃ info, step (pcAtTop Config.default) = .fault (.arithOverflow info)) ∧
    ∃ info, step (ready (.div (lit (-2147483648)) (lit (-1)) (some "R0") none "")) = .fault (.arithOverflow info) :=
  ⟨⟨_, rfl⟩, ⟨_, rfl⟩⟩

/-- What the effects of the instructions assume of the state and the operands. -/
theorem test_hyp_LoadAddressEffect :
    State.reset.BankOk ∧ State.reset.mem.wf ∧ loadI.Wf Config.default ∧ "R1" ∈ Config.default.gprNames ∧
    State.reset.cache.hitScan 0x40 = none ∧
    (Cache.hitScan ⟨⟨[⟨0x40, 7, true, false, 1⟩], 0, 1, LevelStatus.cleared⟩, CacheLevel.blank 1, CacheLevel.blank 1⟩ 0x40) =
      some (.l1, 0) ∧
    FirstUnmet Config.default (.loadAddress none none none 5 "") .destination :=
  ⟨by decide, by decide, by decide, by decide, by decide, by decide, ⟨[], [], rfl, by simp, by simp [Meets, Instr.record]⟩⟩

theorem operandMet_literal (c : Config) (n : Int) : OperandMet c (some (.literal n)) := .inl ⟨n, rfl⟩

theorem operandMet_register {c : Config} {r : String} (h : r ∈ c.gprNames) : OperandMet c (some (.registerRef r)) :=
  .inr ⟨r, rfl, h⟩

theorem test_hyp_LoadImmediateEffect :
    State.reset.BankOk ∧ (Instr.loadImmediate (reg "R1") (lit 1) (some "R1") "").Wf Config.default ∧
    "R1" ∈ Config.default.gprNames ∧ OperandMet Config.default (reg "R1") ∧ OperandMet Config.default (lit 5) :=
  ⟨by decide, by decide, by decide, operandMet_register (by decide), operandMet_literal _ _⟩

theorem test_hyp_StoreEffect :
    State.reset.mem.wf ∧ storeI.Wf Config.default ∧ OperandMet Config.default (reg "R0") ∧
    (Instr.store (lit 5) none none (some 0xFFFF) "").Wf Config.default ∧ OperandMet Config.default (lit 5) :=
  ⟨by decide, by decide, operandMet_register (by decide), by decide, operandMet_literal _ _⟩

theorem test_hyp_AddWritesTheSum :
    1 ≤ Config.default.wordBits ∧ State.reset.BankOk ∧ addI.Wf Config.default ∧ "R0" ∈ Config.default.gprNames ∧
    OperandMet Config.default (lit 5) ∧ FitsTo Config.default (5 + 3) 8 ∧ FitsTo wrapping (2147483647 + 1) (-2147483648) ∧
    Overflows Config.default (2147483647 + 1) :=
  ⟨by decide, by decide, by decide, by decide, operandMet_literal _ _, by decide, by decide, by decide⟩

theorem test_hyp_SubWritesTheDifference :
    State.reset.BankOk ∧ (Instr.sub (reg "R1") (lit 1) (some "R0") none "").Wf Config.default ∧
    OperandMet Config.default (reg "R1") ∧ FitsTo Config.default (0 - 1) (-1) ∧
    FitsTo wrapping (-2147483648 - 1) 2147483647 ∧ Overflows Config.default (-2147483648 - 1) :=
  ⟨by decide, by decide, operandMet_register (by decide), by decide, by decide, by decide⟩

theorem test_hyp_MulWritesTheProduct :
    State.reset.BankOk ∧ (Instr.mul (reg "R1") (lit 4) (some "R0") none "").Wf Config.default ∧
    OperandMet Config.default (reg "R1") ∧ FitsTo Config.default (0 * 4) 0 ∧ FitsTo wrapping (65536 * 65536) 0 ∧
    Overflows Config.default (65536 * 65536) :=
  ⟨by decide, by decide, operandMet_register (by decide), by decide, by decide, by decide⟩

theorem test_hyp_DivWritesTheFloor :
    State.reset.BankOk ∧ (Instr.div (reg "R1") (lit (-1)) (some "R0") none "").Wf Config.default ∧
    OperandMet Config.default (reg "R1") ∧ IsFloorQuotient (-7) 2 (-4) ∧ IsFloorQuotient 7 (-2) (-4) ∧
    IsFloorQuotient 5 0 0 ∧ FitsTo wrapping 2147483648 (-2147483648) ∧ Overflows Config.default 2147483648 :=
  ⟨by decide, by decide, operandMet_register (by decide), by decide, by decide, by decide, by decide, by decide⟩

theorem test_hyp_MovEffect :
    State.reset.BankOk ∧ (Instr.mov (reg "R2") (reg "R9") (some "R2") (some 1) "").Wf Config.default ∧
    "R2" ∈ Config.default.gprNames ∧ OperandMet Config.default (reg "R2") ∧ OperandMet Config.default (lit (-4)) :=
  ⟨by decide, by decide, by decide, operandMet_register (by decide), operandMet_literal _ _⟩

theorem test_hyp_ControlOpcodesAreNoOps :
    (Instr.jmp none none none (some 0xFFFF) "").Wf Config.default ∧ (Instr.jz (reg "R9") none none none "").Wf Config.default ∧
    (Instr.jnz none (lit 1) none none "").Wf Config.default ∧ (Instr.halt none none (some "R9") none "").Wf Config.default := by
  decide

/-- A cache with the address 0x40 in L1, 0x41 in L2 and 0x42 in L3. -/
def spread : Cache where
  l1 := ⟨[Line.blank, ⟨0x40, 7, true, false, 3⟩], 1, 2, LevelStatus.cleared⟩
  l2 := ⟨[⟨0x41, 8, true, true, 4⟩], 0, 0, LevelStatus.cleared⟩
  l3 := ⟨[⟨0x42, 9, true, false, 5⟩], 0, 0, LevelStatus.cleared⟩

theorem test_hyp_HitScanFindsTheFirstLevel :
    spread.hitScan 0x40 = some (.l1, 1) ∧ spread.hitScan 0x41 = some (.l2, 0) ∧ spread.hitScan 0x42 = some (.l3, 0) ∧
    spread.hitScan 0x43 = none ∧ spread.Unique := by decide

theorem test_hyp_VictimIsFirstInvalidElseOldest :
    (∃ l ∈ threeLines 4 0 6, l.valid = false) ∧ (∀ l ∈ threeLines 9 2 2, l.valid = true) ∧ threeLines 9 2 2 ≠ [] := by decide

theorem test_hyp_ReadPathEffect :
    spread.hitScan 0x42 = some (.l3, 0) ∧ (spread.level .l3).lines[0]? = some ⟨0x42, 9, true, false, 5⟩ ∧
    spread.hitScan 0x43 = none := by decide

theorem test_hyp_WritePathEffect :
    spread.hitScan 0x41 = some (.l2, 0) ∧ (spread.level .l2).lines[0]? = some ⟨0x41, 8, true, true, 4⟩ ∧
    spread.hitScan 0x00 = none := by decide

theorem test_hyp_FourthReadEvictsTheFirst :
    [0x10, 0x11, 0x12, 0x13].Nodup ∧ (CacheLevel.blank 3).lines.length = 3 ∧
    (∀ l ∈ (CacheLevel.blank 3).lines, l.valid = false) ∧
    (⟨CacheLevel.blank 3, CacheLevel.blank 1, CacheLevel.blank 1⟩ : Cache).OuterEmpty := by decide

/-- A state in mid-run has every invariant. -/
theorem sound_ready : (about (holding "R0" 3) storeI).Sound where
  cfg := by decide
  bank := by decide
  mem := by decide
  words := by decide
  lines := by decide
  cache := ⟨by decide, by decide, by decide, by decide⟩
  stamps := ⟨by decide, by decide, by decide, by decide⟩
  fetch := ⟨by decide, fun k hk => (Nat.succ.inj hk.symm : k = 0) ▸ rfl, by decide, by decide⟩
  program := by decide
  busIds := by decide
  cycle := by decide

/-- Its step stores. -/
theorem step_ready : ∃ t, step (about (holding "R0" 3) storeI) = .next t := ⟨_, rfl⟩

theorem test_hyp_StepKeepsMemoryCanonical :
    (about (holding "R0" 3) storeI).MemOk ∧ ∃ t, step (about (holding "R0" 3) storeI) = .next t :=
  ⟨sound_ready.mem, step_ready⟩

theorem test_hyp_StepKeepsValuesInWord :
    1 ≤ Config.default.wordBits ∧ (about (holding "R0" 3) storeI).WordsOk ∧
    ∃ t, step (about (holding "R0" 3) storeI) = .next t := ⟨by decide, sound_ready.words, step_ready⟩

theorem test_hyp_StepKeepsCacheSound :
    (about (holding "R0" 3) storeI).CacheOk ∧ ∃ t, step (about (holding "R0" 3) storeI) = .next t :=
  ⟨sound_ready.cache, step_ready⟩

theorem test_hyp_StepKeepsStampsDistinct :
    (about (holding "R0" 3) storeI).StampsOk ∧ ∃ t, step (about (holding "R0" 3) storeI) = .next t :=
  ⟨sound_ready.stamps, step_ready⟩

theorem test_hyp_StepKeepsFetchedRecord :
    (about (holding "R0" 3) storeI).FetchOk ∧ ∃ t, step (about (holding "R0" 3) storeI) = .next t :=
  ⟨sound_ready.fetch, step_ready⟩

theorem test_hyp_StepKeepsFlagsTransient :
    (about (holding "R0" 3) storeI).FlagsOk ∧ ∃ t, step (about (holding "R0" 3) storeI) = .next t :=
  ⟨by decide, step_ready⟩

theorem test_hyp_StepKeepsLogsNumbered :
    (about (holding "R0" 3) storeI).BusIdsOk ∧ (about (holding "R0" 3) storeI).CycleOk ∧
    ∃ t, step (about (holding "R0" 3) storeI) = .next t := ⟨sound_ready.busIds, sound_ready.cycle, step_ready⟩

theorem test_hyp_EveryReachableStateIsSound :
    Config.default.Wf ∧ Config.Wf { wrapping with memSize := 0x101, l1Lines := 1, gprNames := ["A"] } := by decide

theorem test_hyp_SoundMachineFailsSoft :
    (about (holding "R0" 3) storeI).Sound ∧ wrapping.overflow = .wrap ∧ wrapping.strict = false ∧ wrapping.Wf :=
  ⟨sound_ready, by decide, by decide, by decide⟩

theorem test_hyp_StepNeverRewritesProgramOrLogs : ∃ t, step (about (holding "R0" 3) storeI) = .next t := step_ready

theorem test_hyp_OnlyStoreWritesMemory :
    (about (holding "R0" 3) storeI).mem.wf ∧
    (∃ t, step (about (holding "R0" 3) storeI) = .next t ∧ t.mem.read 0x40 ≠ (about (holding "R0" 3) storeI).mem.read 0x40) ∧
    (Memory.cell [(0x40, ⟨0, false, true⟩)] 0x40).used = true := ⟨by decide, ⟨_, rfl, by decide⟩, by decide⟩

theorem test_hyp_OnlyDestinationsAndPcChange :
    (∃ t, step (ready addI) = .next t ∧ t.gpr "R0" ≠ (ready addI).gpr "R0") ∧
    ∃ t, step (installProgram [addI] State.reset) = .next t ∧ t.pc.value ≠ State.reset.pc.value :=
  ⟨⟨_, rfl, by decide⟩, ⟨_, rfl, by decide⟩⟩

theorem test_hyp_LoadGivesTheMemoryValue :
    (about (holding "R0" 3) storeI).CacheOk ∧ (about (holding "R0" 3) storeI).BankOk ∧ loadI.Wf Config.default ∧
    "R1" ∈ Config.default.gprNames := ⟨sound_ready.cache, sound_ready.bank, by decide, by decide⟩

/-- The machine after the EXECUTE of the STORE. -/
def stored : State := finishExecute (Config.execBus (about (holding "R0" 3) storeI).view storeI)
  (storeToCell (about (holding "R0" 3) storeI) 0x40 3)

/-- Between the STORE and the LOAD: another program loaded, one step of it. -/
abbrev between : List HostCall := [.loadProgram [loadI], .step]

theorem test_hyp_LoadAfterStoreGivesTheStoredValue :
    (about (holding "R0" 3) storeI).CacheOk ∧ (about (holding "R0" 3) storeI).BankOk ∧
    OperandMet Config.default (reg "R0") ∧ "R1" ∈ Config.default.gprNames ∧
    exec storeI (about (holding "R0" 3) storeI) = .next stored ∧ HostCall.reset ∉ between ∧
    (∀ before after, between = before ++ HostCall.step :: after →
      ¬ StoresTo ((⟨stored, none, []⟩ : CoreMachine).calls before).state 0x40) ∧
    ∃ t, exec loadI ((⟨stored, none, []⟩ : CoreMachine).calls between).state = .next t := by
  refine ⟨sound_ready.cache, sound_ready.bank, operandMet_register (by decide), by decide, rfl, by decide, ?_, ⟨_, rfl⟩⟩
  intro before after h hs
  rcases before with _ | ⟨b, _ | ⟨c, rest⟩⟩
  · simp at h
  · obtain ⟨rfl, -⟩ := List.cons.inj h
    exact absurd hs.1 (by decide)
  · have := congrArg List.length h
    simp at this

theorem test_hyp_HostCallsIgnoreDraws :
    (⟨State.reset, none, []⟩ : CoreMachine).view = (⟨{ State.reset with draws := 7 }, none, []⟩ : CoreMachine).view := rfl

end Sys2Proof.Tests
end

section
/-! Lines under a write of one line, for both keys that a level keeps distinct: the address (10_state R35) and the stamp
(20_memory R59). -/

namespace Sys2Proof.Machine

/-- The values of `f` on the valid lines, in array order. -/
def validKeys (f : Line → Nat) (ls : List Line) : List Nat := (ls.filter (fun l => l.valid)).map f

theorem CacheLevel.validAddresses_eq (x : CacheLevel) : x.validAddresses = validKeys Line.address x.lines := rfl

theorem Cache.validStamps_eq (c : Cache) : c.validStamps = validKeys Line.stamp c.l1.lines := rfl

theorem mem_validKeys {f : Line → Nat} {ls : List Line} {n : Nat} :
    n ∈ validKeys f ls ↔ ∃ l ∈ ls, l.valid = true ∧ f l = n := by
  simp [validKeys, and_assoc]

theorem validKeys_perm (f : Line → Nat) {ls ks : List Line} (h : ls.Perm ks) : (validKeys f ls).Perm (validKeys f ks) :=
  (h.filter _).map f

theorem validKeys_cons_of_valid (f : Line → Nat) {l : Line} (h : l.valid = true) (ls : List Line) :
    validKeys f (l :: ls) = f l :: validKeys f ls := by
  simp [validKeys, h]

/-- A line after a write: the written one or one at another index. -/
theorem mem_set_cases {ls : List Line} {n : Nat} {l k : Line} (h : k ∈ ls.set n l) : k = l ∨ k ∈ ls.eraseIdx n := by
  by_cases hn : n < ls.length
  · exact List.mem_cons.1 ((List.set_perm_cons_eraseIdx hn l).mem_iff.1 h)
  · rw [List.set_eq_of_length_le (by omega)] at h
    rw [List.eraseIdx_of_length_le (by omega)]
    exact .inr h

/-- Distinct keys stay distinct when the written line's key is on no line at another index. -/
theorem nodup_validKeys_set {f : Line → Nat} {ls : List Line} {n : Nat} {l : Line} (hv : l.valid = true)
    (hd : (validKeys f ls).Nodup) (hl : f l ∉ validKeys f (ls.eraseIdx n)) : (validKeys f (ls.set n l)).Nodup := by
  by_cases hn : n < ls.length
  · rw [(validKeys_perm f (List.set_perm_cons_eraseIdx hn l)).nodup_iff, validKeys_cons_of_valid f hv]
    exact List.nodup_cons.2 ⟨hl, hd.sublist (((List.eraseIdx_sublist ls n).filter _).map f)⟩
  · rwa [List.set_eq_of_length_le (by omega)]

/-- Where keys are distinct, the key of the valid line at `n` is on no line at another index. -/
theorem not_mem_validKeys_eraseIdx {f : Line → Nat} {ls : List Line} {n : Nat} {k : Line} (hk : ls[n]? = some k)
    (hv : k.valid = true) (hd : (validKeys f ls).Nodup) : f k ∉ validKeys f (ls.eraseIdx n) := by
  obtain ⟨hn, rfl⟩ := List.getElem?_eq_some_iff.1 hk
  rw [← (validKeys_perm f (List.getElem_cons_eraseIdx_perm hn)).nodup_iff, validKeys_cons_of_valid f hv] at hd
  exact (List.nodup_cons.1 hd).1

end Sys2Proof.Machine
end

section
/-! The read path and the write path as one access (20_memory R50, R51), and what an access does when the outer levels are empty:
it writes one line of L1. -/

namespace Sys2Proof.Machine

/-- The cache after an access to `a` that changes the line of a hit by `touch` and fills a miss with `fill`
(20_memory R50, R51). -/
def Cache.access (c : Cache) (now a : Nat) (touch : Line → Line) (fill : Line) : Cache :=
  match c.hitScan a with
  | some (lv, j) => c.clearStatus.setLevel ((c.clearStatus.level lv).onHit j now a touch) lv
  | none => c.clearStatus.setLevel (c.clearStatus.l1.onMiss fill) .l1

theorem Cache.access_hit {c : Cache} {a : Nat} {lv : Level} {j : Nat} (h : c.hitScan a = some (lv, j)) (now : Nat)
    (touch : Line → Line) (fill : Line) :
    c.access now a touch fill = c.clearStatus.setLevel ((c.clearStatus.level lv).onHit j now a touch) lv := by
  simp [Cache.access, h]

theorem Cache.access_miss {c : Cache} {a : Nat} (h : c.hitScan a = none) (now : Nat) (touch : Line → Line) (fill : Line) :
    c.access now a touch fill = c.clearStatus.setLevel (c.clearStatus.l1.onMiss fill) .l1 := by
  simp [Cache.access, h]

/-- The read path is an access that keeps the hit line and fills from memory (20_memory R50). -/
theorem Cache.check_cache (c : Cache) (m : Memory) (now a : Nat) :
    (c.check m now a).cache = c.access now a id ⟨a, m.read a, true, false, now⟩ := by
  cases h : c.hitScan a with
  | none => rw [Cache.check_miss h, Cache.access_miss h]; rfl
  | some p => rw [Cache.check_hit h, Cache.access_hit h]

/-- The write path is an access that puts the value in the line, dirty (20_memory R51). -/
theorem Cache.update_eq (c : Cache) (now a : Nat) (v : Int) :
    c.update now a v = c.access now a (fun l => { l with value := v, dirty := true }) ⟨a, v, true, true, now⟩ := by
  cases h : c.hitScan a with
  | none => rw [Cache.update_miss h, Cache.access_miss h]; rfl
  | some p => rw [Cache.update_hit h, Cache.access_hit h]

theorem Cache.length_setLevel {c : Cache} {x : CacheLevel} {lv : Level}
    (h : x.lines.length = (c.level lv).lines.length) (k : Level) :
    ((c.setLevel x lv).level k).lines.length = (c.level k).lines.length := by
  by_cases hk : lv = k
  · subst hk; simpa using h
  · rw [Cache.level_setLevel_other _ _ hk]

/-- No access changes the number of lines (10_state R33). -/
theorem Cache.length_access (c : Cache) (now a : Nat) (touch : Line → Line) (fill : Line) (lv : Level) :
    ((c.access now a touch fill).level lv).lines.length = (c.level lv).lines.length := by
  cases h : c.hitScan a with
  | none =>
    rw [Cache.access_miss h, Cache.length_setLevel (by simp [Cache.level])]
    simp
  | some p =>
    rw [Cache.access_hit h, Cache.length_setLevel (by simp)]
    simp

theorem Cache.mem_setLevel {c : Cache} {x : CacheLevel} {lv k : Level} {l : Line}
    (h : l ∈ ((c.setLevel x lv).level k).lines) : lv = k ∧ l ∈ x.lines ∨ l ∈ (c.level k).lines := by
  by_cases hk : lv = k
  · subst hk; exact .inl ⟨rfl, by simpa using h⟩
  · rw [Cache.level_setLevel_other _ _ hk] at h; exact .inr h

/-- A line after an access: one of before, one of before touched and stamped, or the filled one. -/
theorem Cache.mem_access {c : Cache} {now a : Nat} {touch : Line → Line} {fill l : Line} {lv : Level}
    (h : l ∈ ((c.access now a touch fill).level lv).lines) :
    l ∈ (c.level lv).lines ∨ (∃ k ∈ (c.level lv).lines, l = { touch k with stamp := now }) ∨ l = fill := by
  cases hs : c.hitScan a with
  | none =>
    rw [Cache.access_miss hs] at h
    rcases Cache.mem_setLevel h with ⟨rfl, hl⟩ | hl
    · exact (CacheLevel.mem_onMiss hl).imp_right .inr
    · exact .inl (by simpa using hl)
  | some p =>
    rw [Cache.access_hit hs] at h
    rcases Cache.mem_setLevel h with ⟨rfl, hl⟩ | hl
    · rcases CacheLevel.mem_onHit hl with hl | ⟨k, hk, rfl⟩
      · exact .inl (by simpa using hl)
      · exact .inr (.inl ⟨k, by simpa using List.mem_of_getElem? hk, rfl⟩)
    · exact .inl (by simpa using hl)

/-- An access to `a` in cycle `now` that leaves `w` in L1 and the outer levels alone: one line is written, and it is the line that
held `a`, or no line did. -/
inductive L1Access (c c' : Cache) (now a : Nat) (w : Int) : Prop where
  | intro (n : Nat) (dirty : Bool) (lines : c'.l1.lines = c.l1.lines.set n ⟨a, w, true, dirty, now⟩)
      (only : (∃ k, c.l1.lines[n]? = some k ∧ k.valid = true ∧ k.address = a) ∨
        ∀ k ∈ c.l1.lines, k.valid = true → k.address ≠ a)
      (l2 : c'.l2 = c.clearStatus.l2) (l3 : c'.l3 = c.clearStatus.l3)

/-- With empty outer levels an access is one to L1, when `w` is the value that the hit line or the filled one has. -/
theorem Cache.access_l1Access {c : Cache} (ho : c.OuterEmpty) {now a : Nat} {touch : Line → Line} {fill : Line} {w : Int}
    (hit : ∀ j k, c.hitScan a = some (.l1, j) → c.l1.lines[j]? = some k →
      (touch k).valid = k.valid ∧ (touch k).address = k.address ∧ (touch k).value = w)
    (miss : c.hitScan a = none → ∃ d, fill = ⟨a, w, true, d, now⟩) : L1Access c (c.access now a touch fill) now a w := by
  have hs := Cache.hitScan_of_outerEmpty ho a
  cases hf : c.l1.find a with
  | none =>
    rw [hf] at hs
    obtain ⟨d, rfl⟩ := miss hs
    rw [Cache.access_miss hs]
    exact .intro (victim c.l1.lines) d rfl (.inr (CacheLevel.find_none hf)) rfl rfl
  | some j =>
    rw [hf] at hs
    obtain ⟨k, hk, hv, ha⟩ := CacheLevel.find_some hf
    obtain ⟨hv', ha', hw⟩ := hit j k hs hk
    rw [Cache.access_hit hs]
    refine .intro j (touch k).dirty ?_ (.inl ⟨k, hk, hv, ha⟩) rfl rfl
    show c.l1.lines.modify j _ = _
    rw [List.modify_eq_set_getElem?, hk, ← hw, ← ha, ← ha', ← hv, ← hv']
    rfl

/-- The read path with empty outer levels writes the answered value to a line of L1 (20_memory R50). -/
theorem Cache.check_l1Access {c : Cache} (ho : c.OuterEmpty) (m : Memory) (now a : Nat) :
    L1Access c (c.check m now a).cache now a (c.check m now a).value := by
  rw [Cache.check_cache]
  refine Cache.access_l1Access ho (fun j k hs hk => ⟨rfl, rfl, ?_⟩) fun hs => ⟨false, ?_⟩
  · simp [Cache.check_hit hs, Cache.level, hk]
  · rw [Cache.check_miss hs]

/-- The write path with empty outer levels writes its value to a line of L1 (20_memory R51). -/
theorem Cache.update_l1Access {c : Cache} (ho : c.OuterEmpty) (now a : Nat) (v : Int) :
    L1Access c (c.update now a v) now a v := by
  rw [Cache.update_eq]
  exact Cache.access_l1Access ho (fun _ _ _ _ => ⟨rfl, rfl, rfl⟩) fun _ => ⟨true, rfl⟩

/-- What the read path answers is a line's value or the cell's (20_memory R50). -/
theorem Cache.check_value (c : Cache) (m : Memory) (now a : Nat) :
    (∃ lv, ∃ l ∈ (c.level lv).lines, l.valid = true ∧ l.address = a ∧ (c.check m now a).value = l.value) ∨
      (c.check m now a).value = m.read a := by
  cases hs : c.hitScan a with
  | none => exact .inr (by rw [Cache.check_miss hs])
  | some p =>
    obtain ⟨l, hl, hv, ha⟩ := CacheLevel.find_some (Cache.hitScan_some hs)
    exact .inl ⟨p.1, l, List.mem_of_getElem? hl, hv, ha, by simp [Cache.check_hit hs, hl]⟩

section
variable {c c' : Cache} {now a : Nat} {w : Int}

theorem L1Access.outerEmpty (h : L1Access c c' now a w) (ho : c.OuterEmpty) : c'.OuterEmpty := by
  obtain ⟨_, _, _, _, h2, h3⟩ := h
  unfold Cache.OuterEmpty
  rw [h2, h3]
  exact ho

/-- Where addresses are unique, no line but the written one holds the accessed address. -/
theorem address_not_mem_eraseIdx {ls : List Line} {n : Nat} (hu : (validKeys Line.address ls).Nodup)
    (h : (∃ k, ls[n]? = some k ∧ k.valid = true ∧ k.address = a) ∨ ∀ k ∈ ls, k.valid = true → k.address ≠ a) :
    a ∉ validKeys Line.address (ls.eraseIdx n) := by
  rcases h with ⟨k, hk, hv, rfl⟩ | h
  · exact not_mem_validKeys_eraseIdx hk hv hu
  · intro hm
    obtain ⟨k, hk, hv, ha⟩ := mem_validKeys.1 hm
    exact h k (List.mem_of_mem_eraseIdx hk) hv ha

/-- An access puts no address in a second line (10_state R35). -/
theorem L1Access.unique (h : L1Access c c' now a w) (hu : c.Unique) : c'.Unique := by
  obtain ⟨n, d, hl, honly, h2, h3⟩ := h
  obtain ⟨hu1, hu2, hu3⟩ := hu
  refine ⟨?_, by rw [h2]; exact hu2, by rw [h3]; exact hu3⟩
  rw [CacheLevel.validAddresses_eq, hl]
  exact nodup_validKeys_set rfl hu1 (address_not_mem_eraseIdx hu1 honly)

/-- After an access that leaves the cell's value, and in a memory that differs in this cell only, L1 is coherent
(20_memory R55). -/
theorem L1Access.coherent (h : L1Access c c' now a w) {m m' : Memory} (hu : c.Unique) (hc : c.l1.Coherent m)
    (ha : m'.read a = w) (hm : ∀ b, b ≠ a → m'.read b = m.read b) : c'.l1.Coherent m' := by
  obtain ⟨n, d, hl, honly, -, -⟩ := h
  intro k hk hv
  rw [hl] at hk
  rcases mem_set_cases hk with rfl | hk
  · exact ha.symm
  · have hne : k.address ≠ a := fun he =>
      address_not_mem_eraseIdx hu.1 honly (mem_validKeys.2 ⟨k, hk, hv, he⟩)
    rw [hm _ hne]
    exact hc k (List.mem_of_mem_eraseIdx hk) hv

/-- The stamps after an access: the current cycle or one of before (20_memory R59). -/
theorem L1Access.mem_validStamps (h : L1Access c c' now a w) {n : Nat} (hn : n ∈ c'.validStamps) :
    n = now ∨ n ∈ c.validStamps := by
  obtain ⟨j, d, hl, -, -, -⟩ := h
  rw [Cache.validStamps_eq, hl] at hn
  obtain ⟨k, hk, hv, rfl⟩ := mem_validKeys.1 hn
  rcases mem_set_cases hk with rfl | hk
  · exact .inl rfl
  · exact .inr (mem_validKeys.2 ⟨k, List.mem_of_mem_eraseIdx hk, hv, rfl⟩)

/-- An access in a cycle that is no stamp yet keeps the stamps distinct (20_memory R59). -/
theorem L1Access.nodup_validStamps (h : L1Access c c' now a w) (hd : c.validStamps.Nodup) (hn : now ∉ c.validStamps) :
    c'.validStamps.Nodup := by
  obtain ⟨j, d, hl, -, -, -⟩ := h
  rw [Cache.validStamps_eq, hl]
  refine nodup_validKeys_set rfl hd fun hm => hn ?_
  obtain ⟨k, hk, hv, he⟩ := mem_validKeys.1 hm
  exact mem_validKeys.2 ⟨k, List.mem_of_mem_eraseIdx hk, hv, he⟩

end

end Sys2Proof.Machine
end

section
/-! What the operations keep of the memory's form and of the range of values (10_state R18, R30, R34, R36). -/

namespace Sys2Proof.Machine

theorem zero_inRange (bits : Nat) : Word.InRange bits 0 := by
  have hp : (0 : Int) < 2 ^ (bits - 1) := by positivity
  simp only [Word.InRange, Word.least, Word.greatest]
  omega

/-! ### The register bank -/

/-- Every value of the bank is in `Word`. -/
abbrev Bank.WordsOk (bits : Nat) (b : Bank) : Prop := ∀ p ∈ b, Word.InRange bits p.2.value

theorem Bank.WordsOk.put {bits : Nat} {b : Bank} (h : b.WordsOk bits) (r : String) {x : Reg}
    (hx : Word.InRange bits x.value) : (b.put r x).WordsOk bits := by
  intro p hp
  rcases Bank.mem_put hp with rfl | hp
  · exact hx
  · exact h p hp

theorem Bank.WordsOk.clearActive {bits : Nat} {b : Bank} (h : b.WordsOk bits) : b.clearActive.WordsOk bits := by
  intro p hp
  obtain ⟨q, hq, rfl⟩ := List.mem_map.1 hp
  exact h q hq

/-! ### The memory -/

/-- A memory in canonical form that lists addresses below `n` only (10_state R30). -/
abbrev Memory.Within (n : Nat) (m : Memory) : Prop := m.wf ∧ ∀ p ∈ m, p.1 < n

theorem Memory.Within.put {n a : Nat} {m : Memory} (h : m.Within n) (ha : a < n) (x : Cell) : (m.put a x).Within n := by
  refine ⟨Memory.wf_put h.1 a x, fun p hp => ?_⟩
  rcases Memory.mem_put hp with rfl | hp
  · exact ha
  · exact h.2 p hp

theorem Memory.Within.clearActive {n : Nat} {m : Memory} (h : m.Within n) : m.clearActive.Within n := by
  refine ⟨Memory.wf_clearActive h.1, fun p hp => ?_⟩
  obtain ⟨x, hx, -⟩ := Memory.mem_clearActive hp
  exact h.2 (p.1, x) hx

/-- A read gives a listed cell or a blank one. -/
theorem Memory.cell_mem (m : Memory) (a : Nat) : (a, m.cell a) ∈ m ∨ m.cell a = Cell.blank := by
  induction m with
  | nil => exact .inr rfl
  | cons p m ih =>
    obtain ⟨b, y⟩ := p
    rw [Memory.cell_cons]
    split_ifs with h
    · subst h; exact .inl List.mem_cons_self
    · exact ih.imp_left (List.mem_cons_of_mem _)

/-- Every value of the memory is in `Word`. -/
abbrev Memory.WordsOk (bits : Nat) (m : Memory) : Prop := ∀ p ∈ m, Word.InRange bits p.2.value

theorem Memory.WordsOk.read {bits : Nat} {m : Memory} (h : m.WordsOk bits) (a : Nat) :
    Word.InRange bits (m.read a) := by
  rcases m.cell_mem a with hm | hm
  · exact h _ hm
  · rw [Memory.read, hm]; exact zero_inRange bits

theorem Memory.WordsOk.put {bits : Nat} {m : Memory} (h : m.WordsOk bits) (a : Nat) {x : Cell}
    (hx : Word.InRange bits x.value) : (m.put a x).WordsOk bits := by
  intro p hp
  rcases Memory.mem_put hp with rfl | hp
  · exact hx
  · exact h p hp

theorem Memory.WordsOk.markUsed {bits : Nat} {m : Memory} (h : m.WordsOk bits) (a : Nat) :
    (m.markUsed a).WordsOk bits := h.put a (h.read a)

theorem Memory.WordsOk.markActive {bits : Nat} {m : Memory} (h : m.WordsOk bits) (a : Nat) :
    (m.markActive a).WordsOk bits := h.put a (h.read a)

theorem Memory.WordsOk.clearActive {bits : Nat} {m : Memory} (h : m.WordsOk bits) : m.clearActive.WordsOk bits := by
  intro p hp
  obtain ⟨x, hx, he⟩ := Memory.mem_clearActive hp
  rw [he]
  exact h _ hx

theorem Memory.read_markUsed {m : Memory} (hm : m.wf) (a b : Nat) : (m.markUsed a).read b = m.read b := by
  unfold Memory.read
  rw [Memory.cell_markUsed hm]
  split_ifs with h
  · rw [h]
  · rfl

theorem Memory.read_stored {m : Memory} (hm : m.wf) (a : Nat) (v : Int) (b : Nat) :
    (((m.write a v).markUsed a).markActive a).read b = if a = b then v else m.read b := by
  unfold Memory.read
  rw [Memory.cell_stored hm]
  split_ifs <;> rfl

theorem Memory.read_clearActive {m : Memory} (hm : m.wf) (a : Nat) : m.clearActive.read a = m.read a := by
  unfold Memory.read
  rw [Memory.cell_clearActive hm]

/-! ### The cache -/

/-- Every value of every level is in `Word`. -/
abbrev Cache.WordsOk (bits : Nat) (c : Cache) : Prop := ∀ lv, (c.level lv).WordsOk bits

theorem Cache.WordsOk.access {bits : Nat} {c : Cache} (h : c.WordsOk bits) {now a : Nat} {touch : Line → Line} {fill : Line}
    (ht : ∀ l : Line, Word.InRange bits l.value → Word.InRange bits (touch l).value)
    (hf : Word.InRange bits fill.value) : (c.access now a touch fill).WordsOk bits := by
  intro lv l hl
  rcases Cache.mem_access hl with hl | ⟨k, hk, rfl⟩ | rfl
  · exact h lv l hl
  · exact ht k (h lv k hk)
  · exact hf

theorem Cache.WordsOk.check {bits : Nat} {c : Cache} (h : c.WordsOk bits) {m : Memory} (hm : m.WordsOk bits)
    (now a : Nat) : (c.check m now a).cache.WordsOk bits := by
  rw [Cache.check_cache]
  exact h.access (fun _ hl => hl) (hm.read a)

theorem Cache.WordsOk.check_value {bits : Nat} {c : Cache} (h : c.WordsOk bits) {m : Memory} (hm : m.WordsOk bits)
    (now a : Nat) : Word.InRange bits (c.check m now a).value := by
  rcases c.check_value m now a with ⟨lv, l, hl, -, -, he⟩ | he
  · rw [he]; exact h lv l hl
  · rw [he]; exact hm.read a

theorem Cache.WordsOk.update {bits : Nat} {c : Cache} (h : c.WordsOk bits) (now a : Nat) {v : Int}
    (hv : Word.InRange bits v) : (c.update now a v).WordsOk bits := by
  rw [Cache.update_eq]
  exact h.access (fun _ _ => hv) hv

/-! ### The bus log -/

@[simp] theorem busRecords_length (c : Config) (id draw : Nat) (ts : List BusTransfer) :
    (busRecords c id draw ts).length = ts.length := by
  induction ts generalizing id draw with
  | nil => rfl
  | cons t ts ih => simp [busRecords, ih]

theorem busRecords_ids (c : Config) (id draw : Nat) (ts : List BusTransfer) :
    (busRecords c id draw ts).map BusRecord.id = List.range' id ts.length := by
  induction ts generalizing id draw with
  | nil => rfl
  | cons t ts ih => simp [busRecords, ih, List.range'_succ]

theorem busRecords_words {c : Config} (h : 1 ≤ c.wordBits) (id draw : Nat) (ts : List BusTransfer) :
    ∀ r ∈ busRecords c id draw ts, Word.InRange c.wordBits r.value := by
  induction ts generalizing id draw with
  | nil => exact fun r hr => absurd hr List.not_mem_nil
  | cons t ts ih => exact List.forall_mem_cons.2 ⟨drawWord_inRange h draw, ih (id + 1) (draw + 1)⟩

end Sys2Proof.Machine
end

section
/-! The invariants of `State.Sound`, one by one, under the five cases of a step (40_cycle R80) and under the four effects of an
EXECUTE. -/

namespace Sys2Proof.Machine

variable {s t : State} {i : Instr} {e : Effect}

/-! ### What no step touches -/

theorem StepCase.cfg (h : StepCase s t) : t.cfg = s.cfg := by
  cases h with
  | execute i e hp hi hw he => exact he.executed.cfg
  | _ => rfl

theorem StepCase.program (h : StepCase s t) : t.program = s.program := by
  cases h with
  | execute i e hp hi hw he => exact he.executed.program
  | _ => rfl

/-- No step changes the set of register names (10_state R20). -/
theorem StepCase.names (h : StepCase s t) : t.gprs.names = s.gprs.names := by
  cases h with
  | execute i e hp hi hw he => cases he <;> simp
  | store hp => exact Bank.names_clearActive _
  | _ => rfl

/-- No step changes the number of lines of a level (10_state R33). -/
theorem StepCase.linesLength (h : StepCase s t) (lv : Level) :
    (t.cache.level lv).lines.length = (s.cache.level lv).lines.length := by
  cases h with
  | execute i e hp hi hw he =>
    cases he with
    | load => simp only [finishExecute_cache, loadFromCell_cache, Cache.check_cache, Cache.length_access]
    | store => simp only [finishExecute_cache, storeToCell_cache, Cache.update_eq, Cache.length_access]
    | _ => rfl
  | store hp => cases lv <;> rfl
  | _ => rfl

theorem StepCase.bankOk (h : StepCase s t) (hs : s.BankOk) : t.BankOk := by
  unfold State.BankOk
  rw [h.names, h.cfg]
  exact hs

theorem StepCase.programOk (h : StepCase s t) (hs : s.ProgramOk) : t.ProgramOk := by
  unfold State.ProgramOk
  rw [h.cfg, h.program]
  exact hs

theorem StepCase.linesOk (h : StepCase s t) (hs : s.LinesOk) : t.LinesOk := by
  obtain ⟨h1, h2, h3⟩ := hs
  unfold State.LinesOk
  rw [h.cfg]
  exact ⟨(h.linesLength .l1).trans h1, (h.linesLength .l2).trans h2, (h.linesLength .l3).trans h3⟩

/-! ### The memory's form -/

theorem BodyEffect.memOk (h : BodyEffect i s e) (hs : s.MemOk) : e.state.MemOk := by
  have hs : s.mem.Within s.cfg.memSize := hs
  cases h with
  | skip => exact hs
  | dest => exact hs
  | load o1 o2 d a x hi hd ha => exact hs.put ha _
  | store o o2 d a x hi ha hv => exact ((hs.put ha _).put ha _).put ha _

/-- Every step keeps the memory's form (10_state R30). -/
theorem StepCase.memOk (h : StepCase s t) (hs : s.MemOk) : t.MemOk := by
  cases h with
  | execute i e hp hi hw he => exact he.memOk hs
  | store hp => exact Memory.Within.clearActive hs
  | _ => exact hs

/-! ### Values in `Word` -/

theorem State.wordsOk_iff : s.WordsOk ↔
    s.gprs.WordsOk s.cfg.wordBits ∧ Word.InRange s.cfg.wordBits s.pc.value ∧ Word.InRange s.cfg.wordBits s.irReg.value ∧
    s.mem.WordsOk s.cfg.wordBits ∧ s.cache.WordsOk s.cfg.wordBits ∧ ∀ r ∈ s.bus, Word.InRange s.cfg.wordBits r.value := by
  constructor
  · rintro ⟨hg, hp, hi, hm, h1, h2, h3, hb⟩
    exact ⟨hg, hp, hi, hm, fun lv => by cases lv <;> assumption, hb⟩
  · rintro ⟨hg, hp, hi, hm, hc, hb⟩
    exact ⟨hg, hp, hi, hm, hc .l1, hc .l2, hc .l3, hb⟩

theorem State.WordsOk.appendBus (hs : s.WordsOk) (hc : 1 ≤ s.cfg.wordBits) (ts : List BusTransfer) :
    (s.appendBus ts).WordsOk := by
  obtain ⟨hg, hp, hi, hm, h1, h2, h3, hb⟩ := hs
  exact ⟨hg, hp, hi, hm, h1, h2, h3, List.forall_mem_append.2 ⟨hb, busRecords_words hc _ _ ts⟩⟩

theorem BodyEffect.wordsOk (h : BodyEffect i s e) (hc : 1 ≤ s.cfg.wordBits) (hs : s.WordsOk) : e.state.WordsOk := by
  obtain ⟨hg, hp, hir, hm, hl, hb⟩ := State.wordsOk_iff.1 hs
  refine State.wordsOk_iff.2 ?_
  cases h with
  | skip => exact ⟨hg, hp, hir, hm, hl, hb⟩
  | dest d v hd hi ho hv => exact ⟨hg.put d (hv hc hs), hp, hir, hm, hl, hb⟩
  | load o1 o2 d a x hi hd ha =>
    exact ⟨hg.put d (hl.check_value hm s.cycle a), hp, hir, hm.markUsed a, hl.check hm s.cycle a, hb⟩
  | store o o2 d a x hi ha hv =>
    have hw := hv hc hs
    exact ⟨hg, hp, hir, ((hm.put a hw).markUsed a).markActive a, hl.update s.cycle a hw, hb⟩

/-- Every step keeps register, cell, line and bus values in `Word` (00_scope R16). -/
theorem StepCase.wordsOk (h : StepCase s t) (hc : 1 ≤ s.cfg.wordBits) (hs : s.WordsOk) : t.WordsOk := by
  cases h with
  | idle => exact hs
  | fetch i p hp hr hf =>
    obtain ⟨hg, -, -, hm, h1, h2, h3, hb⟩ := hs
    exact ⟨hg, fit_inRange hc hf, drawWord_inRange hc _, hm, h1, h2, h3,
      List.forall_mem_append.2 ⟨hb, busRecords_words hc _ _ fetchTransfers⟩⟩
  | decode => exact hs
  | execute i e hp hi hw he =>
    have hce : 1 ≤ e.state.cfg.wordBits := by
      obtain ⟨hcfg, -⟩ := he.frame
      rw [hcfg]; exact hc
    exact (he.wordsOk hc hs).appendBus hce _
  | store hp =>
    obtain ⟨hg, hpc, hi, hm, h1, h2, h3, hb⟩ := hs
    exact ⟨Bank.WordsOk.clearActive hg, hpc, hi, Memory.WordsOk.clearActive hm, h1, h2, h3, hb⟩

/-! ### The cache -/

/-- A level without valid lines is coherent with every memory. -/
theorem CacheLevel.coherent_of_invalid {x : CacheLevel} (h : ∀ l ∈ x.lines, l.valid = false) (m : Memory) :
    x.Coherent m := by
  intro l hl hv
  rw [h l hl] at hv
  exact absurd hv (by decide)

/-- With empty outer levels the coherence of L1 is that of the cache. -/
theorem State.coherent_of_l1 (ho : s.cache.OuterEmpty) (h : s.cache.l1.Coherent s.mem) : s.Coherent :=
  ⟨h, CacheLevel.coherent_of_invalid ho.1 _, CacheLevel.coherent_of_invalid ho.2.1 _⟩

/-- In a coherent cache the read path answers the cell's value, hit or miss (20_memory R55). -/
theorem State.Coherent.check_value (h : s.Coherent) (now a : Nat) :
    (s.cache.check s.mem now a).value = s.mem.read a := by
  obtain ⟨h1, h2, h3⟩ := h
  rcases s.cache.check_value s.mem now a with ⟨lv, l, hl, hv, rfl, he⟩ | he
  · rw [he]
    cases lv with
    | l1 => exact h1 l hl hv
    | l2 => exact h2 l hl hv
    | l3 => exact h3 l hl hv
  · exact he

/-- An access that leaves the cell's value in L1 keeps the cache sound, in a memory that differs in this cell only. -/
theorem State.CacheOk.l1Access (hs : s.CacheOk) {a : Nat} {w : Int} (h : L1Access s.cache t.cache s.cycle a w)
    (hw : t.mem.wf) (ha : t.mem.read a = w) (hm : ∀ b, b ≠ a → t.mem.read b = s.mem.read b) : t.CacheOk where
  memory := hw
  unique := h.unique hs.unique
  outer := h.outerEmpty hs.outer
  coherent := State.coherent_of_l1 (h.outerEmpty hs.outer) (h.coherent hs.unique hs.coherent.1 ha hm)

theorem BodyEffect.cacheOk (h : BodyEffect i s e) (hs : s.CacheOk) : e.state.CacheOk := by
  have hwf := hs.memory
  cases h with
  | skip => exact hs
  | dest => exact ⟨hwf, hs.unique, hs.outer, hs.coherent⟩
  | load o1 o2 d a x hi hd ha =>
    have hr := Memory.read_markUsed hwf a
    refine hs.l1Access (Cache.check_l1Access hs.outer s.mem s.cycle a) (Memory.wf_markUsed hwf a) ?_ fun b _ => hr b
    rw [hs.coherent.check_value]
    exact hr a
  | store o o2 d a x hi ha hv =>
    have hr := Memory.read_stored hwf a (resolve s o)
    refine hs.l1Access (Cache.update_l1Access hs.outer s.cycle a (resolve s o))
      (Memory.wf_markActive (Memory.wf_markUsed (Memory.wf_write hwf a _) a) a) ?_ fun b hb => ?_
    · exact (hr a).trans (if_pos rfl)
    · exact (hr b).trans (if_neg hb.symm)

/-- Every step keeps the cache sound (10_state R35; 20_memory R52, R53, R55, R56). -/
theorem StepCase.cacheOk (h : StepCase s t) (hs : s.CacheOk) : t.CacheOk := by
  cases h with
  | execute i e hp hi hw he =>
    obtain ⟨hm, hu, ho, hc⟩ := he.cacheOk hs
    exact ⟨hm, hu, ho, hc⟩
  | store hp =>
    refine ⟨Memory.wf_clearActive hs.memory, hs.unique, hs.outer, State.coherent_of_l1 hs.outer fun l hl hv => ?_⟩
    exact (hs.coherent.1 l hl hv).trans (Memory.read_clearActive hs.memory _).symm
  | _ => exact ⟨hs.memory, hs.unique, hs.outer, hs.coherent⟩

/-! ### The stamps of L1 -/

/-- The current cycle is no stamp of a valid line before its access (20_memory R59). -/
theorem State.StampsOk.cycle_fresh (hs : s.StampsOk) (hp : s.phase.mayHaveAccessed = false) :
    s.cycle ∉ s.cache.validStamps := fun hm => by
  obtain ⟨-, -, hlt⟩ := hs.past _ hm
  exact absurd (hlt hp) (lt_irrefl _)

/-- The access of an EXECUTE stamps its line with the current cycle (20_memory R59). -/
theorem State.StampsOk.l1Access (hs : s.StampsOk) (hp : s.phase = .decode) (ht : t.phase = .execute)
    (hcy : t.cycle = s.cycle) {a : Nat} {w : Int} (h : L1Access s.cache t.cache s.cycle a w) : t.StampsOk where
  distinct := h.nodup_validStamps hs.distinct (hs.cycle_fresh (by rw [hp]; rfl))
  past := fun n hn => by
    have hstart := hs.started (by rw [hp]; decide)
    rw [hcy, ht]
    rcases h.mem_validStamps hn with rfl | hn
    · exact ⟨hstart, le_rfl, fun hx => absurd hx (by decide)⟩
    · obtain ⟨h1, h2, -⟩ := hs.past n hn
      exact ⟨h1, h2, fun hx => absurd hx (by decide)⟩
  started := fun _ => by rw [hcy]; exact hs.started (by rw [hp]; decide)
  outer := h.outerEmpty hs.outer

/-- A state in which the access may have been made, with the stamps, the counters of the outer levels and the cycle of before. -/
theorem State.StampsOk.of_mayHaveAccessed (hs : s.StampsOk) (hst : t.cache.validStamps = s.cache.validStamps)
    (ho : t.cache.OuterEmpty) (hcy : t.cycle = s.cycle) (hp : t.phase.mayHaveAccessed = true)
    (hstart : t.phase ≠ .idle → s.phase ≠ .idle) : t.StampsOk where
  distinct := by rw [hst]; exact hs.distinct
  past := fun n hn => by
    rw [hst] at hn
    obtain ⟨h1, h2, -⟩ := hs.past n hn
    rw [hcy, hp]
    exact ⟨h1, h2, fun hx => absurd hx (by decide)⟩
  started := fun h => by rw [hcy]; exact hs.started (hstart h)
  outer := ho

theorem BodyEffect.stampsOk (h : BodyEffect i s e) (hp : s.phase = .decode) (ts : List BusTransfer) (hs : s.StampsOk) :
    (finishExecute ts e).StampsOk := by
  have hne : s.phase ≠ .idle := by rw [hp]; decide
  cases h with
  | skip => exact hs.of_mayHaveAccessed rfl hs.outer rfl rfl fun _ => hne
  | dest => exact hs.of_mayHaveAccessed rfl hs.outer rfl rfl fun _ => hne
  | load o1 o2 d a x hi hd ha => exact hs.l1Access hp rfl rfl (Cache.check_l1Access hs.outer s.mem s.cycle a)
  | store o o2 d a x hi ha hv => exact hs.l1Access hp rfl rfl (Cache.update_l1Access hs.outer s.cycle a (resolve s o))

/-- Every step keeps the stamps of L1 distinct and past (20_memory R59). -/
theorem StepCase.stampsOk (h : StepCase s t) (hs : s.StampsOk) : t.StampsOk := by
  cases h with
  | idle => exact hs.of_mayHaveAccessed rfl hs.outer rfl rfl fun h => absurd rfl h
  | fetch i p hp hr hf =>
    refine ⟨hs.distinct, fun n hn => ?_, fun _ => Nat.succ_pos _, hs.outer⟩
    obtain ⟨h1, h2, -⟩ := hs.past n hn
    exact ⟨h1, Nat.le_succ_of_le h2, fun _ => Nat.lt_succ_of_le h2⟩
  | decode hp =>
    refine ⟨hs.distinct, fun n hn => ?_, fun _ => hs.started (by rw [hp]; decide), hs.outer⟩
    obtain ⟨h1, h2, h3⟩ := hs.past n hn
    exact ⟨h1, h2, fun _ => h3 (by rw [hp]; rfl)⟩
  | execute i e hp hi hw he => exact he.stampsOk hp _ hs
  | store hp => exact hs.of_mayHaveAccessed rfl hs.outer rfl rfl fun _ => by rw [hp]; decide

/-! ### The fetched record and the logs -/

/-- Every step keeps `ir` and the cursor in agreement (10_state R23, R24). -/
theorem StepCase.fetchOk (h : StepCase s t) (hs : s.FetchOk) : t.FetchOk := by
  cases h with
  | idle => exact ⟨hs.bounded, hs.current, hs.absent, fun h => absurd rfl h⟩
  | fetch i p hp hr hf =>
    obtain ⟨hlt, -⟩ := List.getElem?_eq_some_iff.1 hr
    refine ⟨hlt, fun k hk => ?_, fun h0 => absurd h0 (Nat.succ_ne_zero _), fun _ => Nat.succ_pos _⟩
    obtain rfl : s.cursor = k := Nat.succ.inj hk
    exact hr.symm
  | decode hp => exact ⟨hs.bounded, hs.current, hs.absent, fun _ => hs.started (by rw [hp]; decide)⟩
  | execute i e hp hi hw he =>
    have hx := he.executed
    constructor
    · rw [hx.cursor, hx.program]; exact hs.bounded
    · rw [hx.cursor, hx.program, hx.ir]; exact hs.current
    · rw [hx.cursor, hx.ir]; exact hs.absent
    · rw [hx.cursor]; exact fun _ => hs.started (by rw [hp]; decide)
  | store hp => exact ⟨hs.bounded, hs.current, hs.absent, fun _ => hs.started (by rw [hp]; decide)⟩

/-- Records numbered on from the length of the log keep ids and positions the same (10_state R36). -/
theorem State.BusIdsOk.append (hs : s.BusIdsOk) {c : Config} {draw : Nat} {ts : List BusTransfer}
    (h : t.bus = s.bus ++ busRecords c s.bus.length draw ts) : t.BusIdsOk := by
  have hs : s.bus.map BusRecord.id = List.range s.bus.length := hs
  simp only [State.BusIdsOk, h, List.map_append, hs, busRecords_ids, List.length_append, busRecords_length,
    List.range_eq_range']
  simpa using List.range'_append_1 (s := 0) (m := s.bus.length) (n := ts.length)

/-- Every step keeps the ids of the bus log its positions (10_state R36). -/
theorem StepCase.busIdsOk (h : StepCase s t) (hs : s.BusIdsOk) : t.BusIdsOk := by
  cases h with
  | fetch => exact hs.append rfl
  | execute i e hp hi hw he => exact hs.append he.executed.bus
  | _ => exact hs

/-- A step record counts toward `cycle` just when it is one of FETCH (60_exceptions R122). -/
theorem State.CycleOk.append (hs : s.CycleOk) {r : StepRecord} (h : t.history = s.history ++ [r])
    (hcy : t.cycle = s.cycle + if r.phase = .fetch then 1 else 0) : t.CycleOk := by
  have hs : s.cycle = s.history.countP (fun r => r.phase == .fetch) := hs
  simp only [State.CycleOk, h, hcy, hs, List.countP_append, List.countP_singleton, beq_iff_eq]

/-- Every step keeps `cycle` the number of FETCH records (60_exceptions R122). -/
theorem StepCase.cycleOk (h : StepCase s t) (hs : s.CycleOk) : t.CycleOk := by
  cases h with
  | idle => exact hs
  | execute i e hp hi hw he => exact hs.append he.executed.history he.executed.cycle
  | _ => exact hs.append rfl rfl

end Sys2Proof.Machine
end

section
/-! The reset state (10_state R40) and what every host call keeps (60_exceptions R126). -/

namespace Sys2Proof.Machine

variable {s t : State}

/-! ### The reset values -/

/-- A newly built machine is in the reset state (70_reset R129). -/
theorem State.resetCall_construct (c : Config) : (State.construct c).resetCall = State.construct c := rfl

theorem State.construct_names (c : Config) : (State.construct c).gprs.names = c.gprNames := by
  simp [Bank.names, List.map_map, Function.comp_def]

/-- A bank of blank registers reads as a blank register under every name. -/
theorem Bank.get_blank (names : List String) (r : String) :
    Bank.get (names.map (fun n => (n, Reg.blank))) r = Reg.blank := by
  rcases Bank.get_mem (names.map (fun n => (n, Reg.blank))) r with h | h
  · obtain ⟨n, -, hn⟩ := List.mem_map.1 h
    exact (congrArg Prod.snd hn).symm
  · exact h

/-- The parameter that says how many lines a level has (00_scope R9). -/
def Level.lineCount (c : Config) : Level → Nat
  | .l1 => c.l1Lines
  | .l2 => c.l2Lines
  | .l3 => c.l3Lines

theorem State.resetCall_level (s : State) (lv : Level) :
    s.resetCall.cache.level lv = CacheLevel.blank (lv.lineCount s.cfg) := by
  cases lv <;> rfl

theorem CacheLevel.mem_blank {n : Nat} {l : Line} (h : l ∈ (CacheLevel.blank n).lines) : l = Line.blank :=
  List.eq_of_mem_replicate h

theorem CacheLevel.invalid_blank (n : Nat) : ∀ l ∈ (CacheLevel.blank n).lines, l.valid = false := by
  intro l hl
  rw [CacheLevel.mem_blank hl]
  rfl

theorem CacheLevel.wordsOk_blank (bits n : Nat) : (CacheLevel.blank n).WordsOk bits := by
  intro l hl
  rw [CacheLevel.mem_blank hl]
  exact zero_inRange bits

/-- Without valid lines there are no keys of valid lines. -/
theorem validKeys_of_invalid (f : Line → Nat) {ls : List Line} (h : ∀ l ∈ ls, l.valid = false) : validKeys f ls = [] := by
  rw [validKeys, List.filter_eq_nil_iff.2 fun l hl => by simp [h l hl], List.map_nil]

theorem State.resetCall_linesOk (s : State) : s.resetCall.LinesOk :=
  ⟨List.length_replicate, List.length_replicate, List.length_replicate⟩

theorem State.resetCall_wordsOk (s : State) : s.resetCall.WordsOk := by
  have h0 := zero_inRange s.cfg.wordBits
  refine State.wordsOk_iff.2 ⟨fun p hp => ?_, h0, h0, fun p hp => absurd hp List.not_mem_nil, fun lv => ?_,
    fun r hr => absurd hr List.not_mem_nil⟩
  · obtain ⟨n, -, rfl⟩ := List.mem_map.1 hp
    exact h0
  · rw [State.resetCall_level]
    exact CacheLevel.wordsOk_blank _ _

theorem State.resetCall_outerEmpty (s : State) : s.resetCall.cache.OuterEmpty :=
  ⟨CacheLevel.invalid_blank _, CacheLevel.invalid_blank _, rfl, rfl, rfl, rfl⟩

/-- After reset no level has a valid line. -/
theorem State.resetCall_validKeys (s : State) (f : Line → Nat) (lv : Level) :
    validKeys f (s.resetCall.cache.level lv).lines = [] := by
  rw [State.resetCall_level]
  exact validKeys_of_invalid f (CacheLevel.invalid_blank _)

theorem State.resetCall_unique (s : State) : s.resetCall.cache.Unique := by
  have h (lv : Level) : (s.resetCall.cache.level lv).validAddresses.Nodup := by
    rw [CacheLevel.validAddresses_eq, State.resetCall_validKeys]
    exact List.nodup_nil
  exact ⟨h .l1, h .l2, h .l3⟩

theorem State.resetCall_validStamps (s : State) : s.resetCall.cache.validStamps = [] :=
  s.resetCall_validKeys Line.stamp .l1

/-! ### Soundness under the host's calls -/

/-- Reset leaves a sound state (10_state R40). -/
theorem State.resetCall_sound (hc : s.cfg.Wf) (hp : s.ProgramOk) : s.resetCall.Sound where
  cfg := hc
  bank := State.construct_names s.cfg
  mem := ⟨Memory.wf_nil, fun p hm => absurd hm List.not_mem_nil⟩
  words := s.resetCall_wordsOk
  lines := s.resetCall_linesOk
  cache := ⟨Memory.wf_nil, s.resetCall_unique, s.resetCall_outerEmpty,
    State.coherent_of_l1 s.resetCall_outerEmpty (CacheLevel.coherent_of_invalid (CacheLevel.invalid_blank _) _)⟩
  stamps := {
    distinct := by rw [s.resetCall_validStamps]; exact List.nodup_nil
    past := by rw [s.resetCall_validStamps]; exact fun n hn => absurd hn List.not_mem_nil
    started := fun h => absurd rfl h
    outer := s.resetCall_outerEmpty }
  fetch := ⟨Nat.zero_le _, fun k hk => absurd hk.symm (Nat.succ_ne_zero k), fun _ => rfl, fun h => absurd rfl h⟩
  program := hp
  busIds := rfl
  cycle := rfl

/-- A newly built machine is sound (70_reset R129). -/
theorem State.construct_sound {c : Config} (hc : c.Wf) : (State.construct c).Sound := by
  rw [← State.resetCall_construct c]
  exact State.resetCall_sound hc rfl

/-- Loading an accepted program keeps a state sound, in mid-instruction too: IDLE is a phase in which the access of the cycle may
have been made (40_cycle R89, 20_memory R59). -/
theorem State.Sound.installProgram (hs : s.Sound) {p : List Instr} (hp : programFailure s.cfg p = none) :
    (installProgram p s).Sound where
  cfg := hs.cfg
  bank := hs.bank
  mem := hs.mem
  words := hs.words
  lines := hs.lines
  cache := ⟨hs.cache.memory, hs.cache.unique, hs.cache.outer, hs.cache.coherent⟩
  stamps := hs.stamps.of_mayHaveAccessed rfl hs.stamps.outer rfl rfl fun h => absurd rfl h
  fetch := ⟨Nat.zero_le _, fun k hk => absurd hk.symm (Nat.succ_ne_zero k), fun _ => rfl, fun h => absurd rfl h⟩
  program := hp
  busIds := hs.busIds
  cycle := hs.cycle

/-- Every step keeps a state sound. -/
theorem State.Sound.step (hs : s.Sound) (h : StepCase s t) : t.Sound where
  cfg := by rw [h.cfg]; exact hs.cfg
  bank := h.bankOk hs.bank
  mem := h.memOk hs.mem
  words := h.wordsOk hs.cfg.1 hs.words
  lines := h.linesOk hs.lines
  cache := h.cacheOk hs.cache
  stamps := h.stampsOk hs.stamps
  fetch := h.fetchOk hs.fetch
  program := h.programOk hs.program
  busIds := h.busIdsOk hs.busIds
  cycle := h.cycleOk hs.cycle

/-- `loadProgram` answers a next state for an accepted program only, and it is the program installed (40_cycle R89). -/
theorem State.loadProgram_next {p : List Instr} (h : s.loadProgram p = .next t) :
    programFailure s.cfg p = none ∧ t = Machine.installProgram p s := by
  unfold State.loadProgram at h
  split at h
  · exact absurd h (by simp)
  · injection h with h
    exact ⟨‹_›, h.symm⟩

/-- The four things a host call can do to the state (60_exceptions R126). -/
inductive CallCase (s : State) : State → Prop where
  | kept : CallCase s s
  | reset : CallCase s s.resetCall
  | load (p : List Instr) (hp : programFailure s.cfg p = none) : CallCase s (Machine.installProgram p s)
  | step {t : State} (h : StepCase s t) : CallCase s t

theorem CoreMachine.callLoadProgram_cases (m : CoreMachine) (p : List Instr) :
    CallCase m.state (m.callLoadProgram p).1.state := by
  unfold CoreMachine.callLoadProgram
  split
  case h_1 u h =>
    obtain ⟨hp, rfl⟩ := State.loadProgram_next h
    exact .load p hp
  · exact .kept
  · exact .kept

theorem CoreMachine.callStep_cases (m : CoreMachine) : CallCase m.state m.callStep.1.state := by
  unfold CoreMachine.callStep
  split
  · exact .kept
  · split
    case h_1 u h => exact .step (step_cases h)
    · exact .kept
    · exact .kept

/-- What a host call can do to the state. -/
theorem CoreMachine.call_cases (m : CoreMachine) (c : HostCall) : CallCase m.state (m.call c).1.state := by
  cases c with
  | reset => exact .reset
  | loadProgram p => exact m.callLoadProgram_cases p
  | step => exact m.callStep_cases
  | getState obs => exact .kept
  | encode i => exact .kept

/-- The package of an induction over host calls: what a state has and every call keeps, every sequence of calls keeps. -/
theorem CoreMachine.calls_invariant {P : State → Prop} (hP : ∀ s t, P s → CallCase s t → P t) (cs : List HostCall)
    {m : CoreMachine} (hm : P m.state) : P (m.calls cs).state := by
  induction cs generalizing m with
  | nil => exact hm
  | cons c cs ih => exact ih (hP _ _ hm (m.call_cases c))

/-- Every host call keeps a state sound. -/
theorem State.Sound.call (hs : s.Sound) (h : CallCase s t) : t.Sound := by
  cases h with
  | kept => exact hs
  | reset => exact State.resetCall_sound hs.cfg hs.program
  | load p hp => exact hs.installProgram hp
  | step h => exact hs.step h

/-- Settles O51: a newly built machine is sound, and every host call keeps it so. -/
theorem everyReachableStateIsSound : Obligations.EveryReachableStateIsSound := by
  intro c cs hc
  exact CoreMachine.calls_invariant (fun _ _ => State.Sound.call) cs (State.construct_sound hc)

/-- Settles O12: the reset state is the newly built one with the program kept, whose fields the laws of blank registers and
levels give. -/
theorem resetCallLeavesResetValues : Obligations.ResetCallLeavesResetValues := by
  refine ⟨fun c => rfl, fun m => ?_⟩
  refine ⟨rfl, rfl, rfl, State.construct_names m.state.cfg, Bank.get_blank m.state.cfg.gprNames, rfl, rfl, rfl, rfl, rfl, rfl,
    rfl, fun _ => rfl, fun lv => ?_, m.state.resetCall_linesOk, rfl, rfl⟩
  have hlevel : (m.call .reset).1.state.cache.level lv = CacheLevel.blank (lv.lineCount m.state.cfg) :=
    m.state.resetCall_level lv
  rw [hlevel]
  exact ⟨fun _ => CacheLevel.mem_blank, rfl, rfl, rfl⟩

end Sys2Proof.Machine
end

section
/-! What `getState` shows (10_state R39). -/

namespace Sys2Proof.Machine

/-- A drawn status is the one of before or the cleared one (10_state R33). -/
theorem LevelStatus.drawFrom_cases (kept : Bool) (st : LevelStatus) :
    st.drawFrom kept = st ∨ st.drawFrom kept = LevelStatus.cleared := by
  cases kept
  · exact .inr rfl
  · exact .inl rfl

/-- An observation of a level shows its lines and counters, and its status or the cleared one (10_state R33). -/
theorem Cache.observed_level (c : Cache) (obs : Nat) (lv : Level) :
    ((c.observed obs).level lv).lines = (c.level lv).lines ∧ ((c.observed obs).level lv).hits = (c.level lv).hits ∧
    ((c.observed obs).level lv).misses = (c.level lv).misses ∧
    (((c.observed obs).level lv).status = (c.level lv).status ∨
      ((c.observed obs).level lv).status = LevelStatus.cleared) := by
  cases lv <;> exact ⟨rfl, rfl, rfl, LevelStatus.drawFrom_cases _ _⟩

/-- An observation shows of the bus log what the active flags play no part in (10_state R36). -/
theorem State.getState_bus_map {α : Type} (s : State) (obs : Nat) {f : BusRecord → α}
    (hf : ∀ r b, f { r with active := b } = f r) : (s.getState obs).bus.map f = s.bus.map f := by
  simp [State.getState, hf]

/-- Settles O15: the snapshot's fields are the state's, and `getState` answers with it. -/
theorem snapshotShowsTheState : Obligations.SnapshotShowsTheState := by
  intro m o
  have hbus {α : Type} {f : BusRecord → α} := m.state.getState_bus_map o (f := f)
  exact ⟨rfl, rfl, rfl, rfl, rfl, rfl, rfl, rfl, rfl, rfl, hbus fun _ _ => rfl, hbus fun _ _ => rfl, hbus fun _ _ => rfl,
    hbus fun _ _ => rfl, m.state.cache.observed_level o⟩

end Sys2Proof.Machine
end

section
/-! What an EXECUTE of LOAD and of STORE leaves, and that a step changes a cell's value by a STORE to it only
(41_load_store R94, R96; 20_memory R41). -/

namespace Sys2Proof.Machine

variable {s t : State} {i : Instr} {e : Effect} {a : Nat}

/-- An operand that the spec calls met is one that the model resolves (40_cycle R87). -/
theorem okOperand_of_operandMet {c : Config} {o : Option Operand} (h : OperandMet c o) : okOperand c o = true := by
  obtain ⟨n, rfl⟩ | ⟨r, rfl, hr⟩ := h
  · rfl
  · exact decide_eq_true hr

/-- The EXECUTE of a well-formed STORE whose requirements are met (41_load_store R96). -/
theorem exec_store_of_met {o : Operand} {q : Option Operand} {d : Option String} {x : String}
    (hw : (Instr.store (some o) q d (some a) x).Wf s.cfg) (ho : OperandMet s.cfg (some o)) :
    exec (.store (some o) q d (some a) x) s =
      .next (finishExecute (Config.execBus s.view (.store (some o) q d (some a) x)) (storeToCell s a (resolve s o))) := by
  simp only [exec, execStore, requireOperand_some (okOperand_of_operandMet ho)]
  exact executePhase_effect hw

/-- The EXECUTE of a well-formed LOAD with an address whose requirement is met (41_load_store R94). -/
theorem exec_loadAddress_of_met {p q : Option Operand} {d x : String}
    (hw : (Instr.loadAddress p q (some d) a x).Wf s.cfg) (hd : d ∈ s.cfg.gprNames) :
    exec (.loadAddress p q (some d) a x) s =
      .next (finishExecute (Config.execBus s.view (.loadAddress p q (some d) a x)) (loadFromCell s d a)) := by
  simp only [exec, execLoadAddress, requireDestination_some hd]
  exact executePhase_effect hw

/-- A LOAD gives its destination the cell's value where the cache is coherent (20_memory R55). -/
theorem gpr_loadFromCell (hc : s.Coherent) (hb : s.BankOk) {d : String} (hd : d ∈ s.cfg.gprNames)
    (ts : List BusTransfer) : (finishExecute ts (loadFromCell s d a)).gpr d = s.mem.read a := by
  have hd : d ∈ s.gprs.names := hb.symm ▸ hd
  simp only [State.gpr, finishExecute_gprs, loadFromCell_gprs, Bank.get_put_self hd, hc.check_value]

/-- An EXECUTE other than of a STORE to `a` keeps the value at `a`. -/
theorem BodyEffect.read_of_not_store (h : BodyEffect i s e) (hm : s.mem.wf)
    (hi : ∀ o1 o2 d x, i ≠ .store o1 o2 d (some a) x) : e.state.mem.read a = s.mem.read a := by
  cases h with
  | skip => rfl
  | dest => rfl
  | load o1 o2 d b x hb hd hlt => exact Memory.read_markUsed hm b a
  | store o o2 d b x hb hlt hv =>
    have hne : b ≠ a := fun he => hi (some o) o2 d x (he ▸ hb)
    exact (Memory.read_stored hm b (resolve s o) a).trans (if_neg hne)

/-- A step that is no STORE to `a` keeps the value at `a` (20_memory R41). -/
theorem StepCase.read_of_not_storesTo (h : StepCase s t) (hm : s.mem.wf) (hs : ¬ StoresTo s a) :
    t.mem.read a = s.mem.read a := by
  cases h with
  | execute i e hp hi hw he =>
    exact he.read_of_not_store hm fun o1 o2 d x hst => hs ⟨hp, o1, o2, d, x, hst ▸ hi⟩
  | store hp => exact Memory.read_clearActive hm a
  | _ => rfl

end Sys2Proof.Machine
end

section
/-! Write-through (20_memory R58): what holds after a STORE and is kept by every host call but `reset` and another STORE to the
same address. -/

namespace Sys2Proof.Machine

/-- A state of a machine with parameters `c` in which the cache is sound and the cell at `a` has the value `v`. -/
structure State.HoldsAt (c : Config) (a : Nat) (v : Int) (u : State) : Prop where
  cfg : u.cfg = c
  bank : u.BankOk
  cache : u.CacheOk
  read : u.mem.read a = v

variable {s t : State} {c : Config} {a : Nat} {v : Int}

theorem State.HoldsAt.step (hs : s.HoldsAt c a v) (h : StepCase s t) (hn : ¬ StoresTo s a) : t.HoldsAt c a v where
  cfg := h.cfg.trans hs.cfg
  bank := h.bankOk hs.bank
  cache := h.cacheOk hs.cache
  read := (h.read_of_not_storesTo hs.cache.memory hn).trans hs.read

/-- Loading a program touches neither memory nor cache (40_cycle R89). -/
theorem State.HoldsAt.installProgram (hs : s.HoldsAt c a v) (p : List Instr) :
    (Machine.installProgram p s).HoldsAt c a v where
  cfg := hs.cfg
  bank := hs.bank
  cache := ⟨hs.cache.memory, hs.cache.unique, hs.cache.outer, hs.cache.coherent⟩
  read := hs.read

/-- A STORE leaves its value in the cell, in a sound cache. -/
theorem State.HoldsAt.of_store (hc : s.CacheOk) (hb : s.BankOk) {o : Operand} (ho : OperandMet s.cfg (some o))
    {q : Option Operand} {d : Option String} {x : String}
    (h : exec (.store (some o) q d (some a) x) s = .next t) : t.HoldsAt s.cfg a (resolve s o) := by
  obtain ⟨hw, e, he, rfl⟩ := exec_effect h
  obtain ⟨hmem, huniq, houter, hcoh⟩ := he.cacheOk hc
  have ht := h.symm.trans (exec_store_of_met hw ho)
  injection ht with ht
  refine ⟨he.executed.cfg, ?_, ⟨hmem, huniq, houter, hcoh⟩, ?_⟩
  · rw [ht]
    exact hb
  · rw [ht]
    exact (Memory.read_stored hc.memory a (resolve s o) a).trans (if_pos rfl)

theorem CoreMachine.callLoadProgram_state (m : CoreMachine) (p : List Instr) :
    (m.callLoadProgram p).1.state = m.state ∨ (m.callLoadProgram p).1.state = installProgram p m.state := by
  unfold CoreMachine.callLoadProgram
  split
  case h_1 u h => exact .inr (State.loadProgram_next h).2
  · exact .inl rfl
  · exact .inl rfl

/-- The call `step` makes a step of the state or keeps it (60_exceptions R112). -/
theorem CoreMachine.callStep_state (m : CoreMachine) :
    m.callStep.1.state = m.state ∨ StepCase m.state m.callStep.1.state := by
  unfold CoreMachine.callStep
  split
  · exact .inl rfl
  · split
    case h_1 u h => exact .inr (step_cases h)
    · exact .inl rfl
    · exact .inl rfl

/-- Every host call but `reset` and the step of a STORE to `a` keeps the value at `a` (20_memory R58). -/
theorem State.HoldsAt.call {m : CoreMachine} (hm : m.state.HoldsAt c a v) {k : HostCall} (hk : k ≠ .reset)
    (hn : k = .step → ¬ StoresTo m.state a) : (m.call k).1.state.HoldsAt c a v := by
  cases k with
  | reset => exact absurd rfl hk
  | loadProgram p =>
    rcases m.callLoadProgram_state p with h | h
    · exact h.symm ▸ hm
    · exact h.symm ▸ hm.installProgram p
  | step =>
    rcases m.callStep_state with h | h
    · exact h.symm ▸ hm
    · exact hm.step h (hn rfl)
  | getState obs => exact hm
  | encode i => exact hm

theorem State.HoldsAt.calls (cs : List HostCall) {m : CoreMachine} (hm : m.state.HoldsAt c a v) (hr : HostCall.reset ∉ cs)
    (hn : ∀ before after, cs = before ++ .step :: after → ¬ StoresTo (m.calls before).state a) :
    (m.calls cs).state.HoldsAt c a v := by
  induction cs generalizing m with
  | nil => exact hm
  | cons k cs ih =>
    obtain ⟨hk, hr⟩ := not_or.1 (mt List.mem_cons.2 hr)
    refine ih (hm.call (Ne.symm hk) ?_) hr fun before after h => ?_
    · rintro rfl
      exact hn [] cs rfl
    · exact hn (k :: before) after (congrArg (k :: ·) h)

/-- Settles O57: the stored value stays in the cell through the host calls, and in a coherent cache LOAD gives it, hit or
miss. -/
theorem loadAfterStoreGivesTheStoredValue : Obligations.LoadAfterStoreGivesTheStoredValue := by
  intro s s1 t rs cs o p1 p2 q e d a x y m hc hb ho hd hstore hr hn hload
  have hu : (m.calls cs).state.HoldsAt s.cfg a (resolve s o) :=
    State.HoldsAt.calls cs (State.HoldsAt.of_store hc hb ho hstore) hr hn
  have hd : d ∈ (m.calls cs).state.cfg.gprNames := hu.cfg.symm ▸ hd
  obtain ⟨hw, -⟩ := exec_effect hload
  have ht := hload.symm.trans (exec_loadAddress_of_met hw hd)
  injection ht with ht
  rw [ht, gpr_loadFromCell hu.cache.coherent hu.bank hd]
  exact hu.read

end Sys2Proof.Machine
end

section
/-! The hit scan and the victim (20_memory R48, R49). -/

namespace Sys2Proof.Machine

/-- A level's scan finds nothing exactly when no valid line has the address. -/
theorem CacheLevel.find_eq_none_iff {x : CacheLevel} {a : Nat} :
    x.find a = none ↔ ∀ l ∈ x.lines, l.valid = true → l.address ≠ a := by
  simp only [CacheLevel.find, List.findIdx?_eq_none_iff, ← Bool.not_eq_true, Line.holds_iff, not_and, ne_eq]

/-- The scan stops at the first level that holds the address (20_memory R48). -/
theorem Cache.find_none_of_hitScan_later {c : Cache} {a : Nat} {lv k : Level} {j : Nat} (h : c.hitScan a = some (lv, j))
    (hk : k = .l1 ∧ lv ≠ .l1 ∨ k = .l2 ∧ lv = .l3) : (c.level k).find a = none := by
  unfold Cache.hitScan at h
  cases h1 : c.l1.find a with
  | some n =>
    obtain ⟨rfl, -⟩ : .l1 = lv ∧ n = j := by simpa [h1] using h
    simp at hk
  | none =>
    cases h2 : c.l2.find a with
    | some n =>
      obtain ⟨rfl, -⟩ : .l2 = lv ∧ n = j := by simpa [h1, h2] using h
      obtain rfl : k = .l1 := by simpa using hk
      exact h1
    | none =>
      obtain ⟨rfl, -⟩ | ⟨rfl, -⟩ := hk
      · exact h1
      · exact h2

theorem Cache.Unique.nodup {c : Cache} (h : c.Unique) (lv : Level) :
    (validKeys Line.address (c.level lv).lines).Nodup := by
  obtain ⟨h1, h2, h3⟩ := h
  cases lv with
  | l1 => exact h1
  | l2 => exact h2
  | l3 => exact h3

/-- Two valid lines of one address are one line, where valid addresses are distinct (10_state R35). -/
theorem index_eq_of_nodup_validKeys {f : Line → Nat} {ls : List Line} (hd : (validKeys f ls).Nodup) {j n : Nat} {k l : Line}
    (hk : ls[j]? = some k) (hkv : k.valid = true) (hl : ls[n]? = some l) (hlv : l.valid = true) (h : f l = f k) : n = j := by
  by_contra hne
  refine not_mem_validKeys_eraseIdx hk hkv hd (mem_validKeys.2 ⟨l, ?_, hlv, h⟩)
  exact List.mem_eraseIdx_iff_getElem?.2 ⟨n, hne, hl⟩

theorem Cache.check_hit_eq_isSome (c : Cache) (m : Memory) (now a : Nat) :
    (c.check m now a).hit = (c.hitScan a).isSome := by
  cases h : c.hitScan a with
  | none => rw [Cache.check_miss h]; rfl
  | some p => rw [Cache.check_hit h]; rfl

/-- Settles O38: the found line is the first level's own, and distinct addresses make it the only one. -/
theorem hitScanFindsTheFirstLevel : Obligations.HitScanFindsTheFirstLevel := by
  intro c a
  refine ⟨fun lv j h => ?_, ?_, fun m now => c.check_hit_eq_isSome m now a, fun now v lv j h => ?_⟩
  · obtain ⟨l, hl, hv, ha⟩ := CacheLevel.find_some (Cache.hitScan_some h)
    refine ⟨⟨l, hl, hv, ha⟩, fun k hk => CacheLevel.find_none (Cache.find_none_of_hitScan_later h hk), ?_⟩
    exact fun hu n k hk hkv hka => index_eq_of_nodup_validKeys (hu.nodup lv) hl hv hk hkv (hka.trans ha.symm)
  · simp only [Cache.hitScan_none, CacheLevel.find_eq_none_iff]
  · rw [Cache.update_hit h, Cache.level_setLevel_self]
    exact congrArg (· + 1) (c.clearStatus_hits lv)

theorem smallestStamp_cons (l : Line) {ls : List Line} (h : ls ≠ []) :
    smallestStamp (l :: ls) = min l.stamp (smallestStamp ls) := by
  cases ls with
  | nil => exact absurd rfl h
  | cons k ls => rfl

theorem smallestStamp_le {ls : List Line} {k : Line} (hk : k ∈ ls) : smallestStamp ls ≤ k.stamp := by
  induction ls with
  | nil => exact absurd hk List.not_mem_nil
  | cons l ls ih =>
    by_cases hls : ls = []
    · subst hls
      rw [List.mem_singleton.1 hk]
      exact le_rfl
    · rw [smallestStamp_cons l hls]
      rcases List.mem_cons.1 hk with rfl | hk
      · exact min_le_left _ _
      · exact (min_le_right _ _).trans (ih hk)

/-- The smallest stamp is the stamp of some line. -/
theorem exists_stamp_eq_smallestStamp {ls : List Line} (h : ls ≠ []) : ∃ l ∈ ls, l.stamp = smallestStamp ls := by
  induction ls with
  | nil => exact absurd rfl h
  | cons l ls ih =>
    by_cases hls : ls = []
    · exact ⟨l, List.mem_cons_self, by rw [hls]; rfl⟩
    · rw [smallestStamp_cons l hls]
      rcases min_choice l.stamp (smallestStamp ls) with hm | hm
      · exact ⟨l, List.mem_cons_self, hm.symm⟩
      · obtain ⟨k, hk, he⟩ := ih hls
        exact ⟨k, List.mem_cons_of_mem l hk, he.trans hm.symm⟩

/-- The victim is the first invalid line, where there is one (20_memory R49). -/
theorem victim_of_invalid {ls : List Line} (h : ∃ l ∈ ls, l.valid = false) :
    (∃ l, ls[victim ls]? = some l ∧ l.valid = false) ∧ ∀ j l, j < victim ls → ls[j]? = some l → l.valid = true := by
  cases hf : ls.findIdx? (fun l => !l.valid) with
  | none =>
    obtain ⟨l, hl, hv⟩ := h
    have hv' := List.findIdx?_eq_none_iff.1 hf l hl
    simp [hv] at hv'
  | some n =>
    have hn : victim ls = n := by rw [victim, hf]
    obtain ⟨hlt, hv, hbefore⟩ := List.findIdx?_eq_some_iff_getElem.1 hf
    rw [hn]
    refine ⟨⟨ls[n], List.getElem?_eq_getElem hlt, by simpa using hv⟩, fun j l hj hl => ?_⟩
    obtain ⟨hjlt, rfl⟩ := List.getElem?_eq_some_iff.1 hl
    simpa using hbefore j hj

/-- With all lines valid the victim is the first one with the smallest stamp (20_memory R49). -/
theorem victim_of_valid {ls : List Line} (hne : ls ≠ []) (h : ∀ l ∈ ls, l.valid = true) :
    ∃ l, ls[victim ls]? = some l ∧ (∀ k ∈ ls, l.stamp ≤ k.stamp) ∧
      ∀ j k, j < victim ls → ls[j]? = some k → l.stamp < k.stamp := by
  have hf : ls.findIdx? (fun l => !l.valid) = none := List.findIdx?_eq_none_iff.2 fun l hl => by simp [h l hl]
  have hvic : victim ls = ls.findIdx (fun l => l.stamp == smallestStamp ls) := by rw [victim, hf]
  obtain ⟨o, ho, hos⟩ := exists_stamp_eq_smallestStamp hne
  have hlt : victim ls < ls.length := hvic ▸ List.findIdx_lt_length_of_exists ⟨o, ho, beq_iff_eq.2 hos⟩
  have hmin : ls[victim ls].stamp = smallestStamp ls := by
    have hp := List.findIdx_getElem (xs := ls) (p := fun l => l.stamp == smallestStamp ls) (w := hvic ▸ hlt)
    simpa only [hvic, beq_iff_eq] using hp
  refine ⟨ls[victim ls], List.getElem?_eq_getElem hlt, fun k hk => hmin ▸ smallestStamp_le hk, fun j k hj hk => ?_⟩
  obtain ⟨hjlt, rfl⟩ := List.getElem?_eq_some_iff.1 hk
  rw [hmin]
  have hne : ls[j].stamp ≠ smallestStamp ls := by
    have hp := List.not_of_lt_findIdx (hvic ▸ hj)
    simpa using hp
  exact lt_of_le_of_ne (smallestStamp_le (List.getElem_mem hjlt)) hne.symm

/-- Settles O39: the two cases of the victim. -/
theorem victimIsFirstInvalidElseOldest : Obligations.VictimIsFirstInvalidElseOldest :=
  fun _ hne => ⟨victim_of_invalid, victim_of_valid hne⟩

end Sys2Proof.Machine
end

section
/-! What an access leaves of every level (20_memory R47, R50, R51). -/

namespace Sys2Proof.Machine

variable {c : Cache} {a : Nat}

/-- An access clears the status of every level but the one it is made at (20_memory R47). -/
theorem Cache.level_setLevel_clearStatus_other (c : Cache) (x : CacheLevel) {lv k : Level} (h : k ≠ lv) :
    (c.clearStatus.setLevel x lv).level k = { c.level k with status := ⟨false, false, none⟩ } := by
  rw [Cache.level_setLevel_other _ _ h.symm]
  cases k <;> rfl

/-- Every level after an access that hits. -/
theorem Cache.access_level_of_hit {lv : Level} {j : Nat} {l : Line} (h : c.hitScan a = some (lv, j))
    (hl : (c.level lv).lines[j]? = some l) (now : Nat) (touch : Line → Line) (fill : Line) :
    (c.access now a touch fill).level lv =
      ⟨(c.level lv).lines.set j { touch l with stamp := now }, (c.level lv).hits + 1, (c.level lv).misses,
        ⟨true, true, some a⟩⟩ ∧
    ∀ k, k ≠ lv → (c.access now a touch fill).level k = { c.level k with status := ⟨false, false, none⟩ } := by
  rw [Cache.access_hit h]
  refine ⟨?_, fun k hk => c.level_setLevel_clearStatus_other _ hk⟩
  rw [Cache.level_setLevel_self]
  simp [CacheLevel.onHit, List.modify_eq_set_getElem?, hl]

/-- Every level after an access that misses. -/
theorem Cache.access_level_of_miss (h : c.hitScan a = none) (now : Nat) (touch : Line → Line) (fill : Line) :
    (c.access now a touch fill).level .l1 =
      ⟨c.l1.lines.set (victim c.l1.lines) fill, c.l1.hits, c.l1.misses + 1, ⟨true, false, some fill.address⟩⟩ ∧
    ∀ k, k ≠ .l1 → (c.access now a touch fill).level k = { c.level k with status := ⟨false, false, none⟩ } := by
  rw [Cache.access_miss h]
  exact ⟨rfl, fun k hk => c.level_setLevel_clearStatus_other _ hk⟩

/-- Settles O40: the read path is an access that keeps the hit line and fills from memory. -/
theorem readPathEffect : Obligations.ReadPathEffect := by
  intro c m now a r
  have hr : r.cache = c.access now a id ⟨a, m.read a, true, false, now⟩ := c.check_cache m now a
  rw [hr]
  refine ⟨fun lv j l h hl => ?_, fun h => ?_⟩
  · have hans : r.level = lv ∧ r.hit = true ∧ r.value = l.value := by
      simp [r, Cache.check_hit h, hl]
    obtain ⟨hlevel, hhit, hvalue⟩ := hans
    exact ⟨hlevel, hhit, hvalue, Cache.access_level_of_hit h hl now id _⟩
  · have hans : r.level = .l1 ∧ r.hit = false ∧ r.value = m.read a := by
      simp [r, Cache.check_miss h]
    obtain ⟨hlevel, hhit, hvalue⟩ := hans
    exact ⟨hlevel, hhit, hvalue, Cache.access_level_of_miss h now id _⟩

/-- Settles O41: the write path is an access that puts the value in the line, dirty. -/
theorem writePathEffect : Obligations.WritePathEffect := by
  intro c now a v r
  have hr : r = c.access now a (fun l => { l with value := v, dirty := true }) ⟨a, v, true, true, now⟩ :=
    c.update_eq now a v
  rw [hr]
  exact ⟨fun lv j l h hl => Cache.access_level_of_hit h hl now _ _, fun h => Cache.access_level_of_miss h now _ _⟩

end Sys2Proof.Machine
end

section
/-! The encoding of a record from the fields present (30_encoding R69, R71, R72), and its text form (R73). -/

namespace Sys2Proof

/-! ### The fields that an encoding holds -/

theorem InstrRecord.fieldBytes_of_address {r : InstrRecord} {a : Nat} (h : r.address = some a) :
    r.fieldBytes = some (BitVec.ofNat 8 (a / 256), BitVec.ofNat 8 (a % 256)) := by
  simp [fieldBytes, h]

theorem InstrRecord.fieldBytes_of_operands {r : InstrRecord} {x y : Operand} (ha : r.address = none)
    (hx : r.operand1 = some x) (hy : r.operand2 = some y) : r.fieldBytes = some (x.byte, y.byte) := by
  simp [fieldBytes, ha, hx, hy]

theorem InstrRecord.fieldBytes_of_missing {r : InstrRecord} (ha : r.address = none)
    (h : r.operand1 = none ∨ r.operand2 = none) : r.fieldBytes = none := by
  rcases h with h | h <;> simp [fieldBytes, ha, h]

theorem Instr.encodeBytes_of_some {i : Instr} {x y : Byte} (h : i.record.fieldBytes = some (x, y)) (c : Config) :
    i.encodeBytes c = [c.opcodeByte i.opcode, x, y] := by
  simp [encodeBytes, h]

theorem Instr.encodeBytes_of_none {i : Instr} (h : i.record.fieldBytes = none) (c : Config) :
    i.encodeBytes c = [c.opcodeByte i.opcode] := by
  simp [encodeBytes, h]

/-- An encoding is one opcode byte, alone or with two field bytes (30_encoding R69). -/
theorem Instr.encodeBytes_cases (c : Config) (i : Instr) :
    i.encodeBytes c = [c.opcodeByte i.opcode] ∨ ∃ x y, i.encodeBytes c = [c.opcodeByte i.opcode, x, y] := by
  cases h : i.record.fieldBytes with
  | none => exact .inl (encodeBytes_of_none h c)
  | some p => exact .inr ⟨p.1, p.2, encodeBytes_of_some h c⟩

theorem Instr.head?_encodeBytes (c : Config) (i : Instr) : (i.encodeBytes c).head? = some (c.opcodeByte i.opcode) := by
  obtain h | ⟨x, y, h⟩ := i.encodeBytes_cases c <;> rw [h] <;> rfl

/-- An encoding depends on the opcode and the encoded fields only. -/
theorem Instr.encodeBytes_congr {i j : Instr} (ho : i.opcode = j.opcode)
    (hf : i.record.fieldBytes = j.record.fieldBytes) (c : Config) : i.encodeBytes c = j.encodeBytes c := by
  simp [encodeBytes, ho, hf]

/-- The instruction of a record has that record (30_encoding R65). -/
@[simp] theorem InstrRecord.record_instr (r : InstrRecord) : r.instr.record = r := by
  obtain ⟨op, o1, o2, d, a, t⟩ := r
  cases op
  case load => cases a <;> rfl
  all_goals rfl

theorem Operand.toNat_byte_literal (n : Int) : ((Operand.literal n).byte.toNat : Int) = n % 256 := by
  simp [byte, BitVec.toNat_ofInt, Int.emod_nonneg]

/-- The two bytes of an address of the memory give it back, the high byte first (30_encoding R71). -/
theorem addressOfBytes_ofNat {a : Nat} (h : a < 0x10000) :
    addressOfBytes (BitVec.ofNat 8 (a / 256)) (BitVec.ofNat 8 (a % 256)) = a := by
  simp only [addressOfBytes, BitVec.toNat_ofNat]
  omega

theorem Instr.Wf.address_lt {c : Config} {i : Instr} (hi : i.Wf c) {a : Nat} (h : i.record.address = some a) :
    a < c.memSize := by
  obtain ⟨-, ha, -⟩ := Machine.Instr.wf_iff.1 hi
  simpa [InstrRecord.addressOk, h] using ha

/-- Settles O2: the three formats by the fields present, and the fields that are not encoded. -/
theorem encodingFormatsAndFields : Obligations.EncodingFormatsAndFields := by
  intro c i hc hi
  obtain ⟨-, -, hmem, -⟩ := hc
  refine ⟨fun a ha => ?_, fun x y ha hx hy => ?_, fun ha h => ?_, fun d t => ?_⟩
  · have hlt : a < 0x10000 := (hi.address_lt ha).trans_le hmem
    exact ⟨_, _, Instr.encodeBytes_of_some (InstrRecord.fieldBytes_of_address ha) c, addressOfBytes_ofNat hlt⟩
  · refine ⟨_, _, Instr.encodeBytes_of_some (InstrRecord.fieldBytes_of_operands ha hx hy) c, ?_, ?_, ?_, ?_⟩
    all_goals rintro z rfl
    · exact Operand.toNat_byte_literal z
    · rfl
    · exact Operand.toNat_byte_literal z
    · rfl
  · exact Instr.encodeBytes_of_none (InstrRecord.fieldBytes_of_missing ha h) c
  · exact Instr.encodeBytes_congr (by simp [Instr.opcode]) (by simp [InstrRecord.fieldBytes]) c

/-! ### The text form -/

theorem Instr.toList_encode (c : Config) (i : Instr) :
    (i.encode c).toList = (i.encodeBytes c).flatMap (hexByte c.hexCase) := by
  simp [encode]

/-- The digit of a nibble is the one at its place in the alphabet (30_encoding R73, 00_scope R12). -/
theorem getElem?_hexAlphabet (h : HexCase) : ∀ n < 16, (Machine.hexAlphabet h)[n]? = some (hexDigit h n) := by
  cases h <;> decide

theorem length_flatMap_hexByte (h : HexCase) (bs : List Byte) : (bs.flatMap (hexByte h)).length = 2 * bs.length := by
  simp [hexByte, List.length_flatMap, Nat.mul_comm]

/-- The digits of byte `k` stand at `2 * k` and `2 * k + 1` (30_encoding R73). -/
theorem getElem?_flatMap_hexByte (h : HexCase) {bs : List Byte} {k : Nat} {b : Byte} (hb : bs[k]? = some b) :
    (bs.flatMap (hexByte h))[2 * k]? = some (hexDigit h (b.toNat / 16)) ∧
    (bs.flatMap (hexByte h))[2 * k + 1]? = some (hexDigit h (b.toNat % 16)) := by
  induction bs generalizing k with
  | nil => simp at hb
  | cons x xs ih =>
    cases k with
    | zero => simp_all [hexByte]
    | succ k => simpa [hexByte, Nat.mul_succ] using ih (by simpa using hb)

/-- Settles O3: the digits of a byte are found at twice its index, and an encoding has one or three bytes. -/
theorem encodeWritesTwoDigitsPerByte : Obligations.EncodeWritesTwoDigitsPerByte := by
  intro c i digits
  rw [i.toList_encode c]
  refine ⟨length_flatMap_hexByte _ _, ?_, fun k b hb => ?_⟩
  · rw [length_flatMap_hexByte]
    obtain h | ⟨x, y, h⟩ := i.encodeBytes_cases c <;> simp [h]
  · obtain ⟨hhigh, hlow⟩ := getElem?_flatMap_hexByte c.hexCase hb
    have hlt : b.toNat < 256 := b.isLt
    rw [hhigh, hlow, getElem?_hexAlphabet _ _ (by omega), getElem?_hexAlphabet _ _ (by omega)]
    exact ⟨rfl, rfl⟩

end Sys2Proof
end

section
/-! The opcode bytes (30_encoding R70, R75, R77), and the decoder on the first byte. -/

namespace Sys2Proof

theorem Opcode.mem_all (o : Opcode) : o ∈ Opcode.all := by
  cases o <;> decide

theorem OpcodeBytes.toList_eq_map (c : Config) : c.opcodeBytes.toList = Opcode.all.map c.opcodeByte := rfl

theorem mem_opcodeBytes_iff_exists {c : Config} {b : Byte} : b ∈ c.opcodeBytes.toList ↔ ∃ o, c.opcodeByte o = b := by
  simp [OpcodeBytes.toList_eq_map, Opcode.mem_all]

theorem opcodeOfByte_eq_none_iff {c : Config} {b : Byte} : opcodeOfByte c b = none ↔ b ∉ c.opcodeBytes.toList := by
  simp [opcodeOfByte, mem_opcodeBytes_iff_exists, Opcode.mem_all]

/-- The eleven distinct bytes of an allowed `OPCODE_BYTE` fill the range 0x01 to 0x0B, which has eleven bytes
(30_encoding R75). -/
theorem Config.Wf.mem_opcodeBytes_iff {c : Config} (hc : c.Wf) (b : Byte) :
    b ∈ c.opcodeBytes.toList ↔ 1 ≤ b.toNat ∧ b.toNat ≤ 0x0B := by
  obtain ⟨-, -, -, -, -, -, -, -, hd, hr, -⟩ := hc
  refine ⟨hr b, fun ⟨hlow, hhigh⟩ => ?_⟩
  have hsub : c.opcodeBytes.toList.map BitVec.toNat ⊆ List.range' 1 11 := by
    intro n hn
    obtain ⟨x, hx, rfl⟩ := List.mem_map.1 hn
    obtain ⟨hxlow, hxhigh⟩ := hr x hx
    exact List.mem_range'_1.2 ⟨hxlow, by omega⟩
  have hperm : (c.opcodeBytes.toList.map BitVec.toNat).Perm (List.range' 1 11) :=
    ((hd.map BitVec.toNat_injective).subperm hsub).perm_of_length_le (by simp [OpcodeBytes.toList])
  obtain ⟨x, hx, hxb⟩ := List.mem_map.1 (hperm.mem_iff.2 (List.mem_range'_1.2 ⟨hlow, by omega⟩))
  exact BitVec.toNat_injective hxb ▸ hx

/-- Settles O7: the opcode bytes of an allowed setting fill 0x01 to 0x0B, and the decoder looks the first byte up. -/
theorem unassignedFirstBytesRejected : Obligations.UnassignedFirstBytesRejected := by
  intro c hc b
  refine ⟨fun hb => ?_, fun hlow hhigh => ?_⟩
  · have hnot : b ∉ c.opcodeBytes.toList := by
      rw [hc.mem_opcodeBytes_iff]
      rcases hb with rfl | hb
      · decide
      · omega
    have hnone : opcodeOfByte c b = none := opcodeOfByte_eq_none_iff.2 hnot
    refine ⟨by simp [decodeBytes, hnone], fun x y => by simp [decodeBytes, hnone], fun i hi => hnot ?_⟩
    rw [i.head?_encodeBytes c] at hi
    exact mem_opcodeBytes_iff_exists.2 ⟨i.opcode, Option.some.inj hi⟩
  · cases h : opcodeOfByte c b with
    | none => exact absurd ((hc.mem_opcodeBytes_iff b).2 ⟨hlow, hhigh⟩) (opcodeOfByte_eq_none_iff.1 h)
    | some o => exact ⟨o, by simp [decodeBytes, h]⟩

/-- Settles O1: under the default setting the decoder finds each spelled first byte, or none, among the eleven. -/
theorem spelledWordsDecode : Obligations.SpelledWordsDecode :=
  ⟨rfl, rfl, rfl, rfl, rfl, rfl, rfl, rfl, rfl, rfl⟩

end Sys2Proof
end

section
/-! The load checks as predicates on a record's fields (30_encoding R68), and the programs `loadProgram` accepts. -/

namespace Sys2Proof.Machine

variable {c : Config} {i : Instr}

theorem literalOk_all_eq_false_iff {o : Option Operand} :
    o.all (Operand.literalOk c) = false ↔ ∃ n, o = some (.literal n) ∧ ¬ Word.InRange c.wordBits n := by
  rcases o with _ | ⟨n⟩ | ⟨r⟩ <;> simp [Operand.literalOk]

theorem notSpecial_all_eq_false_iff {o : Option Operand} :
    o.all Operand.notSpecial = false ↔ ∃ r, o = some (.registerRef r) ∧ IsSpecialName r := by
  rcases o with _ | ⟨n⟩ | ⟨r⟩ <;> simp [Operand.notSpecial, or_iff_not_imp_left]

theorem literalsOk_eq_false_iff : i.record.literalsOk c = false ↔ BadLiteral c i := by
  simp only [InstrRecord.literalsOk, BadLiteral, Bool.and_eq_false_iff, literalOk_all_eq_false_iff, or_and_right, exists_or]

theorem addressOk_eq_false_iff : i.record.addressOk c = false ↔ BadAddress c i := by
  unfold InstrRecord.addressOk BadAddress
  cases i.record.address <;> simp

theorem noSpecial_eq_false_iff : i.record.noSpecial = false ↔ NamesSpecial i := by
  have hdest : i.record.destination.all (fun d => !decide (IsSpecialName d)) = false ↔
      ∃ r, i.record.destination = some r ∧ IsSpecialName r := by
    cases i.record.destination <;> simp [or_iff_not_imp_left]
  simp only [InstrRecord.noSpecial, NamesSpecial, Bool.and_eq_false_iff, notSpecial_all_eq_false_iff, hdest, or_and_right,
    exists_or, or_assoc]

/-- The first failed check and its form, in the order the checks run (30_encoding R68, 60_exceptions R118). -/
theorem failedCheck_cases (c : Config) (i : Instr) :
    BadLiteral c i ∧ i.failedCheck c = some .wfLiteral ∨
    ¬ BadLiteral c i ∧ BadAddress c i ∧ i.failedCheck c = some .wfAddress ∨
    ¬ BadLiteral c i ∧ ¬ BadAddress c i ∧ NamesSpecial i ∧ i.failedCheck c = some .wfNoSpecial ∨
    ¬ BadLiteral c i ∧ ¬ BadAddress c i ∧ ¬ NamesSpecial i ∧ i.failedCheck c = none := by
  simp only [← literalsOk_eq_false_iff, ← addressOk_eq_false_iff, ← noSpecial_eq_false_iff, Instr.failedCheck]
  cases i.record.literalsOk c
  · simp
  · cases i.record.addressOk c
    · simp
    · cases i.record.noSpecial <;> simp

theorem wf_iff_forms : i.Wf c ↔ ¬ BadLiteral c i ∧ ¬ BadAddress c i ∧ ¬ NamesSpecial i := by
  obtain ⟨h, hf⟩ | ⟨-, h, hf⟩ | ⟨-, -, h, hf⟩ | ⟨hl, ha, hs, hf⟩ := failedCheck_cases c i <;> simp [Instr.Wf, *]

theorem programFailureFrom_eq_none_iff {k : Nat} {p : List Instr} :
    programFailureFrom c k p = none ↔ ∀ i ∈ p, i.Wf c := by
  induction p generalizing k with
  | nil => simp [programFailureFrom]
  | cons x xs ih => cases h : x.failedCheck c <;> simp [programFailureFrom, Instr.Wf, h, ih]

theorem State.loadProgram_next_iff {s : State} {p : List Instr} :
    (∃ t, s.loadProgram p = .next t) ↔ ∀ i ∈ p, i.Wf s.cfg := by
  rw [← programFailureFrom_eq_none_iff (k := 0)]
  refine ⟨fun ⟨t, ht⟩ => (State.loadProgram_next ht).1, fun h => ⟨installProgram p s, ?_⟩⟩
  simp [State.loadProgram, programFailure, h]

/-- `loadProgram` accepts or refuses, and nothing else (40_cycle R89). -/
theorem State.loadProgram_refused_iff {s : State} {p : List Instr} :
    (∃ k check, s.loadProgram p = .refused (.illFormedProgram k check)) ↔ ¬ ∃ t, s.loadProgram p = .next t := by
  unfold State.loadProgram
  cases programFailure s.cfg p <;> simp

/-- Settles O8: the check found has its form and none before it, and a program is accepted when no record fails one. -/
theorem checksFindTheirForms : Obligations.ChecksFindTheirForms := by
  refine ⟨fun c i => ?_, fun s p => ⟨?_, ?_⟩⟩
  · obtain ⟨h, hf⟩ | ⟨hl, h, hf⟩ | ⟨hl, ha, h, hf⟩ | ⟨hl, ha, hs, hf⟩ := failedCheck_cases c i <;> simp [Instr.Wf, *]
  · simp only [State.loadProgram_next_iff, wf_iff_forms]
  · simp only [State.loadProgram_refused_iff, State.loadProgram_next_iff, wf_iff_forms, not_forall, exists_prop, not_and_or,
      not_not]

end Sys2Proof.Machine
end

section
/-! The step, one equation per phase that is due, and what it returns (40_cycle R79, R80). -/

namespace Sys2Proof.Machine

variable {s t : State} {i : Instr}

theorem step_of_idle_or_store (hp : s.phase = .idle ∨ s.phase = .store) : step s = fetchOrIdle s := by
  rcases hp with hp | hp <;> simp [step, hp]

/-- With a record at the cursor the step is its FETCH (40_cycle R80, R81). -/
theorem step_of_record (hp : s.phase = .idle ∨ s.phase = .store) (hr : s.program[s.cursor]? = some i) :
    step s = fetchPhase i s := by
  simp [step_of_idle_or_store hp, fetchOrIdle, hr]

/-- With no record left the step sets IDLE (40_cycle R80). -/
theorem step_of_ended (hp : s.phase = .idle ∨ s.phase = .store) (hc : s.program.length ≤ s.cursor) :
    step s = .next { s with phase := .idle } := by
  simp [step_of_idle_or_store hp, fetchOrIdle, hc]

theorem step_of_fetch (hp : s.phase = .fetch) : step s = .next (decodePhase s) := by
  simp [step, hp]

theorem step_of_execute (hp : s.phase = .execute) : step s = .next (storePhase s) := by
  simp [step, hp]

theorem stepReturns_eq_false_iff :
    stepReturns s = false ↔ (s.phase = .idle ∨ s.phase = .store) ∧ s.program.length ≤ s.cursor := by
  cases hp : s.phase <;> simp [stepReturns, hp]

theorem stepReturns_of_no_record (hp : s.phase = .idle ∨ s.phase = .store) (hr : s.program[s.cursor]? = none) :
    stepReturns s = false :=
  stepReturns_eq_false_iff.2 ⟨hp, List.getElem?_eq_none_iff.1 hr⟩

/-- A step that returns true performs the next phase and records it (40_cycle R80, R84). -/
theorem StepCase.performs (h : StepCase s t) (hr : stepReturns s = true) :
    (∃ r, t.history = s.history ++ [r]) ∧
    ((s.phase = .idle ∧ t.phase = .fetch) ∨ (s.phase = .store ∧ t.phase = .fetch) ∨
     (s.phase = .fetch ∧ t.phase = .decode) ∨ (s.phase = .decode ∧ t.phase = .execute) ∨
     (s.phase = .execute ∧ t.phase = .store)) := by
  cases h with
  | idle hp hnone => exact absurd (hr.symm.trans (stepReturns_of_no_record hp hnone)) (by decide)
  | fetch i p hp => exact ⟨⟨_, rfl⟩, by simpa using hp⟩
  | decode hp => exact ⟨⟨_, rfl⟩, by simp [hp]⟩
  | execute i e hp hi hw he => exact ⟨⟨_, he.executed.history⟩, by simp [hp]⟩
  | store hp => exact ⟨⟨_, rfl⟩, by simp [hp]⟩

/-- Settles O16: the end of the program is told by `stepReturns`, and the cases of a step give the phases. -/
theorem stepPerformsTheNextPhase : Obligations.StepPerformsTheNextPhase := by
  refine ⟨fun s => ⟨stepReturns_eq_false_iff, fun h => ?_, fun h t ht => (step_cases ht).performs h⟩, fun m t hf ht => ?_⟩
  · obtain ⟨hp, hc⟩ := stepReturns_eq_false_iff.1 h
    exact step_of_ended hp hc
  · simp [CoreMachine.call, CoreMachine.callStep, hf, ht]

/-- Settles O19: the step from FETCH is DECODE, whose updates are these fields. -/
theorem decodeEffect : Obligations.DecodeEffect :=
  fun _ hp => step_of_fetch hp

/-- Settles O10: a program of well-formed records is installed, and one that is not accepted is refused. -/
theorem loadProgramInstalls : Obligations.LoadProgramInstalls := by
  intro s p
  refine ⟨fun h => ?_, fun ⟨i, hi, hbad⟩ => State.loadProgram_refused_iff.2 fun hnext => ?_⟩
  · obtain ⟨t, ht⟩ := State.loadProgram_next_iff.2 h
    obtain ⟨-, rfl⟩ := State.loadProgram_next ht
    exact ⟨_, ht, rfl, rfl, rfl, rfl, rfl, rfl, rfl, rfl, rfl, rfl, rfl, rfl, rfl, rfl⟩
  · exact hbad (State.loadProgram_next_iff.1 hnext i hi)

end Sys2Proof.Machine
end

section
/-! A run of a program: four steps per record (40_cycle R91). -/

namespace Sys2Proof.Machine

variable {s t u v : State} {p : List Instr} {m : Nat}

/-- A run ends with its last step. -/
theorem reaches_succ_last {n : Nat} : Reaches (n + 1) s t ↔ ∃ u, Reaches n s u ∧ step u = .next t := by
  rw [reaches_add]
  simp only [reaches_succ, reaches_zero, exists_eq_right]

/-- A state that a step leaves as it is stays for ever. -/
theorem reaches_of_fixed (h : step s = .next s) (n : Nat) : Reaches n s s := by
  induction n with
  | zero => exact reaches_zero.2 rfl
  | succ n ih => exact reaches_succ.2 ⟨s, h, ih⟩

/-- How many phases the record being processed has still to go after this one (40_cycle R79). -/
def Phase.remaining : Phase → Nat
  | .idle => 0
  | .fetch => 3
  | .decode => 2
  | .execute => 1
  | .store => 0

/-- `u` stands after `m` steps of a run of `p` from cursor 0: four for each fetched record, less those the last one has still to
go, and that record is in `ir` (40_cycle R91). -/
structure RunsAt (p : List Instr) (m : Nat) (u : State) : Prop where
  program : u.program = p
  count : m + u.phase.remaining = 4 * u.cursor
  current : ∀ k, u.cursor = k + 1 → u.ir = p[k]?
  started : m ≠ 0 → u.phase ≠ .idle

theorem Phase.remaining_lt (q : Phase) : q.remaining < 4 := by
  cases q <;> decide

theorem Phase.remaining_eq_zero_iff {q : Phase} : q.remaining = 0 ↔ q = .idle ∨ q = .store := by
  cases q <;> decide

/-- The phases of a record in their order, found by how many are still to go (40_cycle R79). -/
theorem Phase.getElem?_cycle {q : Phase} (h : q ≠ .idle) :
    [Phase.fetch, .decode, .execute, .store][3 - q.remaining]? = some q := by
  cases q with
  | idle => exact absurd rfl h
  | _ => rfl

/-- Before `4N` steps a run of `N` records has not come to its end. -/
theorem RunsAt.stepReturns (h : RunsAt p m u) (hm : m < 4 * p.length) : stepReturns u = true := by
  rw [← Bool.not_eq_false, stepReturns_eq_false_iff]
  rintro ⟨hp, hc⟩
  have hrem := Phase.remaining_eq_zero_iff.2 hp
  have hcount := h.count
  rw [h.program] at hc
  omega

/-- A step within a record takes a run one phase on. -/
theorem RunsAt.within_record (h : RunsAt p m u) (hrem : u.phase.remaining = v.phase.remaining + 1)
    (hprogram : v.program = u.program) (hcursor : v.cursor = u.cursor) (hir : v.ir = u.ir) (hv : v.phase ≠ .idle) :
    RunsAt p (m + 1) v where
  program := hprogram.trans h.program
  count := by
    have hcount := h.count
    rw [hcursor]
    omega
  current := by
    rw [hcursor, hir]
    exact h.current
  started := fun _ => hv

/-- A step of a run before its end takes it one phase on. -/
theorem RunsAt.step (h : RunsAt p m u) (hm : m < 4 * p.length) (hs : StepCase u v) : RunsAt p (m + 1) v := by
  cases hs with
  | idle hp hnone => exact absurd ((h.stepReturns hm).symm.trans (stepReturns_of_no_record hp hnone)) (by decide)
  | fetch i x hp hr hf =>
    have hrem := Phase.remaining_eq_zero_iff.2 hp
    have hcount := h.count
    refine ⟨h.program, ?_, fun k hk => ?_, fun _ => by simp⟩
    · simp only [fetched_phase, fetched_cursor, Phase.remaining]
      omega
    · obtain rfl : u.cursor = k := Nat.succ.inj hk
      rw [fetched_ir, ← h.program, hr]
  | decode hp => exact h.within_record (by rw [hp]; rfl) rfl rfl rfl (by simp)
  | execute i e hp hi hw he =>
    have hx := he.executed
    exact h.within_record (by rw [hp]; rfl) hx.program hx.cursor hx.ir (by simp)
  | store hp => exact h.within_record (by rw [hp]; rfl) rfl rfl rfl (by simp)

/-- Every run from IDLE with cursor 0 stands where `RunsAt` says, up to its `4N` steps. -/
theorem RunsAt.of_reaches (hp : s.phase = .idle) (hc : s.cursor = 0) (hm : m ≤ 4 * s.program.length)
    (h : Reaches m s u) : RunsAt s.program m u := by
  induction m generalizing u with
  | zero =>
    obtain rfl := reaches_zero.1 h
    exact ⟨rfl, by simp [hp, hc, Phase.remaining], fun k hk => by omega, fun h => absurd rfl h⟩
  | succ m ih =>
    obtain ⟨w, hw, hs⟩ := reaches_succ_last.1 h
    exact (ih (by omega) hw).step hm (step_cases hs)

/-- After `m + 1` steps the phase performed is number `m mod 4` of the cycle, and the record in `ir` is number `m / 4`. -/
theorem RunsAt.performed (h : RunsAt p (m + 1) v) :
    [Phase.fetch, .decode, .execute, .store][m % 4]? = some v.phase ∧ v.ir = p[m / 4]? := by
  obtain ⟨-, hcount, hcurrent, hstarted⟩ := h
  have hlt := v.phase.remaining_lt
  have hmod : m % 4 = 3 - v.phase.remaining := by omega
  rw [hmod]
  exact ⟨Phase.getElem?_cycle (hstarted (by omega)), hcurrent _ (by omega)⟩

/-- After `4N` steps all `N` records are done. -/
theorem RunsAt.ended (h : RunsAt p (4 * p.length) t) :
    (t.phase = .idle ∨ t.phase = .store) ∧ t.cursor = p.length := by
  have hlt := t.phase.remaining_lt
  have hcount := h.count
  exact ⟨Phase.remaining_eq_zero_iff.1 (by omega), by omega⟩

/-- Settles O23: by induction on the steps, a run stands where `RunsAt` says; at its end the step sets IDLE, and in IDLE it is
the identity. -/
theorem runTakesFourStepsPerRecord : Obligations.RunTakesFourStepsPerRecord := by
  intro s t hidle hzero hrun
  have hat {m : Nat} {u : State} (hm : m ≤ 4 * s.program.length) (h : Reaches m s u) : RunsAt s.program m u :=
    RunsAt.of_reaches hidle hzero hm h
  have hend := hat le_rfl hrun
  obtain ⟨hphase, hcursor⟩ := hend.ended
  have hpast : t.program.length ≤ t.cursor := by rw [hend.program, hcursor]
  refine ⟨fun m hm => ?_, stepReturns_eq_false_iff.2 ⟨hphase, hpast⟩, hcursor,
    stepReturns_eq_false_iff.2 ⟨.inl rfl, hpast⟩, fun k => ?_⟩
  · obtain ⟨v, hv, -⟩ := reaches_add.1 (show Reaches (m + 1 + (4 * s.program.length - (m + 1))) s t by
      rwa [Nat.add_sub_cancel' hm])
    obtain ⟨u, hu, -⟩ := reaches_succ_last.1 hv
    exact ⟨u, v, hu, (hat hm.le hu).stepReturns hm, hv, (hat hm hv).performed⟩
  · have hfixed := step_of_ended (s := { t with phase := .idle }) (.inl rfl) hpast
    rw [Nat.add_assoc, Nat.add_comm 1 k]
    exact reaches_add.2 ⟨t, hrun, reaches_succ.2 ⟨_, step_of_ended hphase hpast, reaches_of_fixed hfixed k⟩⟩

end Sys2Proof.Machine
end

section
/-! `fit` (42_arithmetic R97; 00_scope R6): the value of `Word` congruent to a result is the one that wrapping gives. -/

namespace Sys2Proof.Machine

variable {c : Config} {r v : Int}

/-- Wrapping changes a result by a multiple of `2^bits` (00_scope R6). -/
theorem dvd_sub_wrapWord (bits : Nat) (r : Int) : (2 ^ bits : Int) ∣ r - wrapWord bits r := by
  have h := Int.dvd_self_sub_emod (x := r + 2 ^ (bits - 1)) (m := 2 ^ bits)
  rwa [wrapWord, sub_sub_eq_add_sub]

/-- `Word` has one value of each residue modulo `2^bits` (00_scope R5). -/
theorem eq_of_inRange_of_dvd_sub {bits : Nat} (hb : 1 ≤ bits) {x y : Int} (hx : Word.InRange bits x)
    (hy : Word.InRange bits y) (h : (2 ^ bits : Int) ∣ x - y) : x = y := by
  have hpow : (2 : Int) ^ bits = 2 * 2 ^ (bits - 1) := (mul_pow_sub_one (by omega) 2).symm
  simp only [Word.InRange, Word.least, Word.greatest] at hx hy
  have hlt : |x - y| < 2 ^ bits := by rw [abs_lt]; omega
  exact sub_eq_zero.1 (Int.eq_zero_of_abs_lt_dvd h hlt)

theorem fit_eq_none_iff : fit c r = none ↔ Overflows c r := by
  unfold fit
  split_ifs with h
  · simp [Overflows, h]
  · cases ho : c.overflow <;> simp [Overflows, h, ho]

theorem fit_eq_some_iff (hb : 1 ≤ c.wordBits) : fit c r = some v ↔ FitsTo c r v := by
  unfold fit
  split_ifs with h
  · constructor
    · rintro ⟨⟩
      exact .inl ⟨h, rfl⟩
    · rintro (⟨-, rfl⟩ | ⟨hout, -⟩)
      · rfl
      · exact absurd h hout
  · cases ho : c.overflow with
    | fault => simp [FitsTo, h, ho]
    | wrap =>
      have hw := wrapWord_inRange hb r
      have hd := dvd_sub_wrapWord c.wordBits r
      constructor
      · rintro ⟨⟩
        exact .inr ⟨h, ho, hw, hd⟩
      · rintro (⟨hin, -⟩ | ⟨-, -, hv, hdv⟩)
        · exact absurd hin h
        · refine congrArg some (eq_of_inRange_of_dvd_sub hb hw hv ?_)
          simpa using dvd_sub hdv hd

end Sys2Proof.Machine
end

section
/-! The phases FETCH and STORE, field by field (40_cycle R81, R83). -/

namespace Sys2Proof.Machine

/-- Settles O18: the fields of `fetched`, for the value that `fit` brings the PC to. -/
theorem fetchEffect : Obligations.FetchEffect := by
  intro s i hb hp hr
  rw [step_of_record hp hr, fetchPhase]
  refine ⟨fun p hfit => ?_, fun hover => ?_⟩
  · rw [(fit_eq_some_iff hb).2 hfit]
    exact ⟨fetched i p s, _, _, _, _, _, _, _, rfl, rfl, rfl, rfl, rfl, rfl, drawWord_inRange hb _, drawWord_inRange hb _,
      drawWord_inRange hb _, rfl, rfl, rfl, rfl, rfl, ⟨rfl, rfl, rfl⟩⟩
  · rw [fit_eq_none_iff.2 hover]
    exact ⟨_, _, rfl⟩

@[simp] theorem Cache.drawStatus_lines (c : Cache) (n : Nat) (lv : Level) :
    ((c.drawStatus n).level lv).lines = (c.level lv).lines := by
  cases lv <;> rfl
@[simp] theorem Cache.drawStatus_hits (c : Cache) (n : Nat) (lv : Level) :
    ((c.drawStatus n).level lv).hits = (c.level lv).hits := by
  cases lv <;> rfl
@[simp] theorem Cache.drawStatus_misses (c : Cache) (n : Nat) (lv : Level) :
    ((c.drawStatus n).level lv).misses = (c.level lv).misses := by
  cases lv <;> rfl

/-- The draw of a level's status gives the one of before or the cleared one (40_cycle R83). -/
theorem Cache.drawStatus_status (c : Cache) (n : Nat) (lv : Level) :
    ((c.drawStatus n).level lv).status = (c.level lv).status ∨
      ((c.drawStatus n).level lv).status = LevelStatus.cleared := by
  cases lv <;> exact LevelStatus.drawFrom_cases _ _

/-- The STORE phase keeps every value, used flag, line and counter (40_cycle R83). -/
theorem storePhase_valuesKept {s : State} (hm : s.mem.wf) : ValuesKept s (storePhase s) where
  gprs r := by simp only [State.gpr, storePhase_gprs, Bank.get_clearActive]
  names := Bank.names_clearActive s.gprs
  mem a := Memory.read_clearActive hm a
  used a := by rw [storePhase_mem, Memory.cell_clearActive hm]
  lines := s.cache.drawStatus_lines s.draws
  hits := s.cache.drawStatus_hits s.draws
  misses := s.cache.drawStatus_misses s.draws

/-- Settles O20: the fields of `storePhase`, with the flags of registers and cells cleared one by one. -/
theorem storePhaseEffect : Obligations.StorePhaseEffect := by
  intro s hp hm
  refine ⟨storePhase s, step_of_execute hp, rfl, storePhase_valuesKept hm, fun r => ?_, fun a => ?_,
    s.cache.drawStatus_status s.draws, rfl, rfl, rfl, rfl, rfl, rfl, rfl, rfl, rfl⟩
  · simp only [State.gprActive, storePhase_gprs, Bank.get_clearActive]
  · rw [storePhase_mem, Memory.cell_clearActive hm]

end Sys2Proof.Machine
end

section
/-! The requirements in the spec's words (30_encoding R67; 40_cycle R87; 60_exceptions R114), and the skip or the fault of a
malformed instruction. -/

namespace Sys2Proof.Machine

variable {c : Config} {i : Instr} {s : State}

theorem okReg_eq_true_iff {d : Option String} : okReg c d = true ↔ ∃ r, d = some r ∧ r ∈ c.gprNames := by
  cases d <;> simp [okReg]

theorem okOperand_eq_true_iff {o : Option Operand} : okOperand c o = true ↔ OperandMet c o := by
  refine ⟨fun h => ?_, okOperand_of_operandMet⟩
  match o, h with
  | some (.literal n), _ => exact .inl ⟨n, rfl⟩
  | some (.registerRef r), h => exact .inr ⟨r, rfl, of_decide_eq_true h⟩

/-- The check that a record does not meet a requirement (40_cycle R87). -/
def unmet (c : Config) (x : InstrRecord) : Requirement → Bool
  | .destination => !okReg c x.destination
  | .operand1 => !okOperand c x.operand1
  | .operand2 => !okOperand c x.operand2
  | .address => x.address.isNone

theorem unmet_eq_false_iff {x : InstrRecord} {r : Requirement} : unmet c x r = false ↔ Meets c x r := by
  cases r with
  | destination => rw [unmet, Bool.not_eq_false', okReg_eq_true_iff, Meets]
  | operand1 => rw [unmet, Bool.not_eq_false', okOperand_eq_true_iff, Meets]
  | operand2 => rw [unmet, Bool.not_eq_false', okOperand_eq_true_iff, Meets]
  | address => rw [unmet, Option.isNone_eq_false_iff, Option.isSome_iff_exists, Meets]

theorem find?_unmet_cons (x : InstrRecord) (r : Requirement) (rs : List Requirement) :
    (r :: rs).find? (unmet c x) = if unmet c x r then some r else rs.find? (unmet c x) := by
  rw [List.find?_cons]
  cases unmet c x r <;> rfl

/-- The checks of every instruction run in the order of its required fields (60_exceptions R114). -/
theorem failedRequirement_eq_find? (c : Config) (i : Instr) :
    failedRequirement c i = (requiredFields i).find? (unmet c i.record) := by
  cases i <;> simp only [requiredFields, find?_unmet_cons, List.find?_nil] <;> rfl

theorem failedRequirement_eq_some_iff {r : Requirement} : failedRequirement c i = some r ↔ FirstUnmet c i r := by
  rw [failedRequirement_eq_find?, List.find?_eq_some_iff_append, ← Bool.not_eq_false, unmet_eq_false_iff]
  simp only [Bool.not_eq_true', unmet_eq_false_iff]
  exact ⟨fun ⟨hr, before, after, he, hb⟩ => ⟨before, after, he, hb, hr⟩,
    fun ⟨before, after, he, hb, hr⟩ => ⟨hr, before, after, he, hb⟩⟩

/-- An EXECUTE whose body changes no field but the general registers, the memory and the cache keeps the others as
40_cycle R85 says. -/
theorem executed_of_data (i : Instr) (s : State) (g : Bank) (m : Memory) (k : Cache) (r : List RegDelta)
    (w : List MemDelta) :
    Executed i s (finishExecute (Config.execBus s.view i) ⟨{ s with gprs := g, mem := m, cache := k }, r, w⟩) r w :=
  ⟨rfl, rfl, rfl, rfl, rfl, rfl, rfl, rfl, rfl, rfl, rfl⟩

/-- A malformed instruction is skipped, or under STRICT faults with the first requirement it does not meet (40_cycle R87,
60_exceptions R114). -/
theorem skippedIfMalformed (hw : i.Wf s.cfg) : SkippedIfMalformed i s := by
  intro r hr
  obtain ⟨b, hexec, hb⟩ := exec_eq_executePhase i s
  have hb : exec i s = executePhase i s (.error r) := hb r (failedRequirement_eq_some_iff.2 hr) ▸ hexec
  refine ⟨fun hs => ?_, fun hs => hb.trans (executePhase_strict hw hs)⟩
  exact ⟨_, hb.trans (executePhase_skip hw hs), executed_of_data i s s.gprs s.mem s.cache [] [], ⟨rfl, rfl, rfl⟩⟩

end Sys2Proof.Machine
end

section
/-! LOAD in both forms and STORE (41_load_store). -/

namespace Sys2Proof

/-- A record with an address of the memory encodes as its opcode byte and the address, high byte first (30_encoding R71). -/
theorem Instr.encodeBytes_of_address {i : Instr} {a : Nat} (ha : i.record.address = some a) (hlt : a < 0x10000)
    (c : Config) :
    ∃ hi lo : Byte, i.encodeBytes c = [c.opcodeByte i.opcode, hi, lo] ∧ hi.toNat * 256 + lo.toNat = a :=
  ⟨_, _, encodeBytes_of_some (InstrRecord.fieldBytes_of_address ha) c, addressOfBytes_ofNat hlt⟩

namespace Machine

variable {i : Instr} {s : State} {o : Operand} {o2 : Option Operand} {d x : String} {v : Int}

/-- The EXECUTE of a well-formed LOAD without an address whose requirements are met (41_load_store R95). -/
theorem exec_loadImmediate_of_met (hw : (Instr.loadImmediate (some o) o2 (some d) x).Wf s.cfg)
    (hd : d ∈ s.cfg.gprNames) (ho : OperandMet s.cfg (some o)) :
    exec (.loadImmediate (some o) o2 (some d) x) s =
      .next (finishExecute (Config.execBus s.view (.loadImmediate (some o) o2 (some d) x))
        (writeDest s d (resolve s o))) := by
  simp only [exec, execLoadImmediate, requireDestination_some hd, requireOperand_some (okOperand_of_operandMet ho)]
  exact executePhase_effect hw

/-- An EXECUTE whose body is `writeDest` writes that register and nothing else of registers, memory and cache
(40_cycle R88). -/
theorem writesRegister_of_exec (hb : s.BankOk) (hd : d ∈ s.cfg.gprNames)
    (h : exec i s = .next (finishExecute (Config.execBus s.view i) (writeDest s d v))) : WritesRegister i s d v :=
  ⟨_, h, executed_of_data i s _ s.mem s.cache _ _, writeDest_written (hb.symm ▸ hd) rfl, rfl, rfl⟩

/-- On a hit the read path answers the value of the line that the scan found (20_memory R50). -/
theorem Cache.check_value_of_hit {c : Cache} {a j : Nat} {lv : Level} {l : Line} (h : c.hitScan a = some (lv, j))
    (hl : (c.level lv).lines[j]? = some l) (m : Memory) (now : Nat) : (c.check m now a).value = l.value := by
  simp [Cache.check_hit h, hl]

/-- Settles O29: the value is what the read path answers, and `loadFromCell` gives the rest. -/
theorem loadAddressEffect : Obligations.LoadAddressEffect := by
  refine ⟨fun s o1 o2 d a x hb hm hw hd => ?_, fun o1 o2 d a x => ⟨fun s => skippedIfMalformed, fun ha => ?_⟩⟩
  · refine ⟨_, (s.cache.check s.mem s.cycle a).value, exec_loadAddress_of_met hw hd, fun lv j l h hl => ?_, fun h => ?_,
      fun hc => hc.coherent.check_value s.cycle a, ?_, ?_, fun b => ?_, rfl⟩
    · exact Cache.check_value_of_hit h hl s.mem s.cycle
    · rw [Cache.check_miss h]
    · exact executed_of_data _ s _ _ _ _ _
    · exact writeDest_written (hb.symm ▸ hd) rfl
    · exact (Memory.cell_markUsed hm a b).trans (if_congr eq_comm rfl rfl)
  · exact Instr.encodeBytes_of_address rfl ha Config.default

/-- Settles O30: operand1, resolved, is what `writeDest` writes. -/
theorem loadImmediateEffect : Obligations.LoadImmediateEffect := by
  refine ⟨fun s o o2 d x hb hw hd ho => ?_,
    fun o1 o2 d x => ⟨fun s => skippedIfMalformed, fun h => ?_, fun y z hy hz => ?_⟩⟩
  · have hwrites := writesRegister_of_exec hb hd (exec_loadImmediate_of_met hw hd ho)
    exact ⟨fun n hn => by subst hn; exact hwrites, fun r hr => by subst hr; exact hwrites⟩
  · exact Instr.encodeBytes_of_none (i := .loadImmediate o1 o2 d x) (InstrRecord.fieldBytes_of_missing rfl (.inr h)) _
  · exact Instr.encodeBytes_of_some (i := .loadImmediate o1 o2 d x) (InstrRecord.fieldBytes_of_operands rfl hy hz) _

/-- Settles O31: operand1, resolved, is what `storeToCell` puts into the cell and the cache. -/
theorem storeEffect : Obligations.StoreEffect := by
  refine ⟨fun s o o2 d a x hm hw ho => ?_, fun o1 o2 d a x => ⟨fun s => skippedIfMalformed, fun b hb hlt => ?_⟩⟩
  · refine ⟨_, resolve s o, exec_store_of_met hw ho, ?_, ?_, ?_, rfl, fun b => ?_, rfl⟩
    · rintro n rfl; rfl
    · rintro r rfl; rfl
    · exact executed_of_data _ s _ _ _ _ _
    · exact (Memory.cell_stored hm a (resolve s o) b).trans (if_congr eq_comm rfl rfl)
  · exact Instr.encodeBytes_of_address (i := .store o1 o2 d a x) hb hlt Config.default

end Machine
end Sys2Proof
end

section
/-! ADD, SUB, MUL and DIV (42_arithmetic). -/

namespace Sys2Proof

theorem Word.greatest_eq_neg_least_sub_one (bits : Nat) : Word.greatest bits = -Word.least bits - 1 := by
  rw [Word.greatest, Word.least, neg_neg]

namespace Machine

variable {i : Instr} {s : State} {op : Opcode} {x y : Operand} {d : String} {f : Int → Int → Int} {v1 v2 r v q : Int}

/-! ### The body that the four share -/

theorem writeFit_of_fitsTo (hc : 1 ≤ s.cfg.wordBits) (h : FitsTo s.cfg r v) :
    writeFit s op d v1 v2 r = .ok (writeDest s d v) := by
  rw [writeFit, (fit_eq_some_iff hc).2 h]

theorem writeFit_of_overflows (h : Overflows s.cfg r) :
    writeFit s op d v1 v2 r = .error (.arithOverflow (.execute op v1 v2 r (s.cursor - 1))) := by
  rw [writeFit, fit_eq_none_iff.2 h]

/-- With its requirements met, an arithmetic body is `writeFit` of the result of the resolved operands (40_cycle R86). -/
theorem arithBody_of_met (hd : d ∈ s.cfg.gprNames) (hx : OperandMet s.cfg (some x)) (hy : OperandMet s.cfg (some y)) :
    arithBody s op (some x) (some y) (some d) f =
      .ok (writeFit s op d (resolve s x) (resolve s y) (f (resolve s x) (resolve s y))) := by
  simp only [arithBody, requireDestination_some hd, requireOperand_some (okOperand_of_operandMet hx),
    requireOperand_some (okOperand_of_operandMet hy)]
  rfl

/-- An EXECUTE that is the frame over an arithmetic body writes `fit` of the exact result, or faults (42_arithmetic R97). -/
theorem writesFit_of_arithBody (hexec : exec i s = executePhase i s (arithBody s op (some x) (some y) (some d) f))
    (hc : 1 ≤ s.cfg.wordBits) (hb : s.BankOk) (hw : i.Wf s.cfg) (hd : d ∈ s.cfg.gprNames)
    (hx : OperandMet s.cfg (some x)) (hy : OperandMet s.cfg (some y)) :
    WritesFit i s op d (resolve s x) (resolve s y) (f (resolve s x) (resolve s y)) := by
  rw [arithBody_of_met hd hx hy] at hexec
  refine ⟨fun v hv => writesRegister_of_exec hb hd ?_, fun hover => ?_⟩
  · rw [hexec, writeFit_of_fitsTo hc hv, executePhase_effect hw]
  · rw [hexec, writeFit_of_overflows hover, executePhase_fault hw]

/-! ### The quotient of DIV -/

theorem isFloorQuotient_floorDiv (v1 v2 : Int) : IsFloorQuotient v1 v2 (floorDiv v1 v2) := by
  rcases lt_trichotomy v2 0 with hneg | rfl | hpos
  · obtain ⟨hdiv, hlt, hle⟩ := (Int.fdiv_fmod_unique' (a := v1) hneg).1 ⟨rfl, rfl⟩
    rw [floorDiv, if_neg hneg.ne]
    exact .inr (.inr ⟨hneg, by linarith, by linarith⟩)
  · exact .inl ⟨rfl, if_pos rfl⟩
  · obtain ⟨hdiv, hle, hlt⟩ := (Int.fdiv_fmod_unique (a := v1) hpos).1 ⟨rfl, rfl⟩
    rw [floorDiv, if_neg hpos.ne']
    exact .inr (.inl ⟨hpos, by linarith, by linarith⟩)

/-- Only the least value of `Word`, divided by -1, has its quotient outside `Word` (42_arithmetic R102): no quotient is below
the least value, and with a divisor of at most -2 a positive one is at most half the dividend's absolute value. -/
theorem IsFloorQuotient.not_inRange_iff {bits : Nat} (hq : IsFloorQuotient v1 v2 q) (h1 : Word.InRange bits v1) :
    ¬ Word.InRange bits q ↔ v1 = Word.least bits ∧ v2 = -1 := by
  rw [Word.InRange, Word.greatest_eq_neg_least_sub_one] at *
  obtain ⟨hlo, hhi⟩ := h1
  obtain ⟨rfl, rfl⟩ | ⟨hpos, hle, hlt⟩ | ⟨hneg, hle, hlt⟩ := hq
  · omega
  · have hql : Word.least bits ≤ q := by nlinarith
    have hqg : q ≤ -Word.least bits - 1 := by nlinarith
    omega
  · have hql : Word.least bits ≤ q := by nlinarith
    constructor
    · intro hout
      have hqg : -Word.least bits ≤ q := by omega
      have hv2 : v2 = -1 := by
        by_contra hne
        have hle2 : v2 ≤ -2 := by omega
        nlinarith
      subst hv2
      omega
    · rintro ⟨rfl, rfl⟩
      omega

/-! ### The four instructions -/

/-- Settles O32: ADD is the shared arithmetic body over the sum. -/
theorem addWritesTheSum : Obligations.AddWritesTheSum :=
  ⟨fun _ _ _ _ _ _ => writesFit_of_arithBody (f := (· + ·)) rfl,
    fun _ _ _ _ _ => ⟨fun _ => skippedIfMalformed, Instr.head?_encodeBytes _ _⟩⟩

/-- Settles O33: SUB is the shared arithmetic body over the difference. -/
theorem subWritesTheDifference : Obligations.SubWritesTheDifference :=
  ⟨fun _ _ _ _ _ _ => writesFit_of_arithBody (f := (· - ·)) rfl,
    fun _ _ _ _ _ => ⟨fun _ => skippedIfMalformed, Instr.head?_encodeBytes _ _⟩⟩

/-- Settles O34: MUL is the shared arithmetic body over the product. -/
theorem mulWritesTheProduct : Obligations.MulWritesTheProduct :=
  ⟨fun _ _ _ _ _ _ => writesFit_of_arithBody (f := (· * ·)) rfl,
    fun _ _ _ _ _ => ⟨fun _ => skippedIfMalformed, Instr.head?_encodeBytes _ _⟩⟩

/-- Settles O35: DIV is the shared arithmetic body over `floorDiv`, which is the floor quotient. -/
theorem divWritesTheFloor : Obligations.DivWritesTheFloor := by
  refine ⟨fun s x y d a u hc hb hw hd hx hy => ?_,
    fun _ _ _ _ _ => ⟨fun _ => skippedIfMalformed, Instr.head?_encodeBytes _ _⟩⟩
  have hq := isFloorQuotient_floorDiv (resolve s x) (resolve s y)
  exact ⟨_, hq, writesFit_of_arithBody rfl hc hb hw hd hx hy, fun h1 _ => hq.not_inRange_iff h1⟩

end Machine
end Sys2Proof
end

section
/-! MOV (43_move). -/

namespace Sys2Proof.Machine

variable {s : State} {o : Operand} {o2 : Option Operand} {d x : String} {a : Option Nat}

/-- The EXECUTE of a well-formed MOV whose requirements are met (43_move R103). -/
theorem exec_mov_of_met (hw : (Instr.mov (some o) o2 (some d) a x).Wf s.cfg) (hd : d ∈ s.cfg.gprNames)
    (ho : OperandMet s.cfg (some o)) :
    exec (.mov (some o) o2 (some d) a x) s =
      .next (finishExecute (Config.execBus s.view (.mov (some o) o2 (some d) a x)) (writeDest s d (resolve s o))) := by
  simp only [exec, execMov, requireDestination_some hd, requireOperand_some (okOperand_of_operandMet ho)]
  exact executePhase_effect hw

/-- Settles O36: operand1, resolved, is what `writeDest` writes; without operand2 and address no field is encoded. -/
theorem movEffect : Obligations.MovEffect := by
  refine ⟨fun s o o2 d a x hb hw hd ho => ?_,
    fun o1 o2 d a x => ⟨fun s => skippedIfMalformed, Instr.head?_encodeBytes _ _, fun h2 ha => ?_⟩⟩
  · have hwrites := writesRegister_of_exec hb hd (exec_mov_of_met hw hd ho)
    exact ⟨fun n hn => by subst hn; exact hwrites, fun r hr => by subst hr; exact hwrites⟩
  · exact Instr.encodeBytes_of_none (i := .mov o1 o2 d a x) (InstrRecord.fieldBytes_of_missing ha (.inr h2)) _

end Sys2Proof.Machine
end

section
/-! JMP, JZ, JNZ and HALT (44_control). -/

namespace Sys2Proof.Machine

/-- An EXECUTE that is the frame over `skip`, with no requirement before it, skips a well-formed record also under STRICT
(60_exceptions R114). -/
theorem skips_of_exec_eq {i : Instr} {s : State} (hexec : exec i s = executePhase i s (.ok (.ok (skip s))))
    (hw : i.Wf s.cfg) : Skips i s :=
  ⟨_, hexec.trans (executePhase_effect hw), executed_of_data i s s.gprs s.mem s.cache [] [], ⟨rfl, rfl, rfl⟩⟩

/-- Settles O37: each of the four is the frame over `skip`; without operands and address no field is encoded. -/
theorem controlOpcodesAreNoOps : Obligations.ControlOpcodesAreNoOps := by
  refine ⟨fun s o1 o2 d a x => ⟨skips_of_exec_eq rfl, skips_of_exec_eq rfl, skips_of_exec_eq rfl, skips_of_exec_eq rfl⟩,
    fun o1 o2 d a x => ⟨Instr.head?_encodeBytes _ _, Instr.head?_encodeBytes _ _, Instr.head?_encodeBytes _ _,
      Instr.head?_encodeBytes _ _, ?_, ?_⟩⟩
  · exact Instr.encodeBytes_of_none (i := .jmp none none d none x) (InstrRecord.fieldBytes_of_missing rfl (.inl rfl)) _
  · exact Instr.encodeBytes_of_none (i := .halt none none d none x) (InstrRecord.fieldBytes_of_missing rfl (.inl rfl)) _

end Sys2Proof.Machine
end

section
/-! What a step can fault by, said once (60_exceptions R113, R114; log 10). -/

namespace Sys2Proof.Machine

variable {s : State} {g : Fault}

/-- The cases in which a step faults (60_exceptions R113, R114; log 10). -/
inductive FaultCase (s : State) : Fault → Prop where
  | fetch (i : Instr) (hp : s.phase = .idle ∨ s.phase = .store) (hr : s.program[s.cursor]? = some i)
      (hf : fit s.cfg (s.pc.value + 1) = none) : FaultCase s (.arithOverflow (.fetch s.pc.value s.cursor))
  | noInstruction (hp : s.phase = .decode) (hi : s.ir = none) : FaultCase s .noInstruction
  | execute (i : Instr) {g : Fault} (hp : s.phase = .decode) (hi : s.ir = some i) (h : exec i s = .fault g) : FaultCase s g

theorem fetchOrIdle_faultCase (hp : s.phase = .idle ∨ s.phase = .store) (h : fetchOrIdle s = .fault g) : FaultCase s g := by
  unfold fetchOrIdle at h
  split at h
  case h_1 i hi =>
    unfold fetchPhase at h
    split at h
    · injection h with h
      exact h ▸ .fetch i hp hi ‹_›
    · exact absurd h (by simp)
  · exact absurd h (by simp)

/-- What a step can fault by. -/
theorem step_faultCase (h : step s = .fault g) : FaultCase s g := by
  unfold step at h
  split at h
  · exact fetchOrIdle_faultCase (.inl ‹_›) h
  · exact fetchOrIdle_faultCase (.inr ‹_›) h
  · exact absurd h (by simp)
  · unfold executeCurrent at h
    split at h
    case h_1 i hi => exact .execute i ‹_› hi h
    case h_2 hi =>
      injection h with h
      exact h ▸ .noInstruction ‹_› hi
  · exact absurd h (by simp)

end Sys2Proof.Machine
end

section
/-! What raises the fault of a malformed instruction (60_exceptions R114). -/

namespace Sys2Proof.Machine

variable {i : Instr} {s : State} {g : Fault} {k : Nat} {op : Opcode} {r : Requirement}

/-- The frame faults in two cases only: the body's fault, or a failed requirement under STRICT (40_cycle R87). -/
theorem executePhase_eq_fault {b : Except Requirement (Except Fault Effect)} (h : executePhase i s b = .fault g) :
    b = .ok (.error g) ∨
    ∃ q, b = .error q ∧ s.cfg.strict = true ∧ g = .malformedInstruction (s.cursor - 1) i.opcode q := by
  unfold executePhase at h
  split at h
  · exact absurd h (by simp)
  · split at h
    · split at h
      · injection h with h
        exact .inr ⟨_, rfl, ‹_›, h.symm⟩
      · exact absurd h (by simp)
    · injection h with h
      exact .inl (h ▸ rfl)
    · exact absurd h (by simp)

/-- What a body answers past its requirements raises no fault but an overflow (60_exceptions R113). -/
def OverflowsOnly (b : Except Fault Effect) : Prop := ∀ g, b = .error g → ∃ info, g = .arithOverflow info

theorem OverflowsOnly.ok (e : Effect) : OverflowsOnly (.ok e) := nofun

theorem failedRequirement_eq_none_iff {c : Config} :
    failedRequirement c i = none ↔ ∀ q ∈ requiredFields i, unmet c i.record q = false := by
  rw [failedRequirement_eq_find?, List.find?_eq_none]
  simp only [Bool.not_eq_true]

/-- With its requirements met, an arithmetic body gets to its result (42_arithmetic R97). -/
theorem arithBody_of_requirements_met {p : Opcode} {f : Int → Int → Int} {x : InstrRecord}
    (hmet : ∀ q ∈ [Requirement.destination, .operand1, .operand2], unmet s.cfg x q = false) :
    ∃ b, arithBody s p x.operand1 x.operand2 x.destination f = .ok b ∧ OverflowsOnly b := by
  obtain ⟨hd, h1, h2⟩ : okReg s.cfg x.destination = true ∧ okOperand s.cfg x.operand1 = true ∧
      okOperand s.cfg x.operand2 = true := by simpa [unmet] using hmet
  have hb : ∃ b, arithBody s p x.operand1 x.operand2 x.destination f = .ok b := by
    simp only [arithBody, requireDestination_eq, requireOperand_eq, hd, h1, h2, if_true]
    exact ⟨_, rfl⟩
  obtain ⟨b, hb⟩ := hb
  refine ⟨b, hb, fun g hg => ?_⟩
  obtain ⟨_, _, _, _, _, hinfo⟩ := arithBody_fault (hb.trans (congrArg _ hg))
  exact ⟨_, hinfo⟩

/-- With every requirement met, EXECUTE is the frame over a body past its requirements (40_cycle R87). -/
theorem exec_eq_of_requirements_met (h : failedRequirement s.cfg i = none) :
    ∃ b, exec i s = executePhase i s (.ok b) ∧ OverflowsOnly b := by
  have hmet := failedRequirement_eq_none_iff.1 h
  have arith {p : Opcode} {f : Int → Int → Int} (hexec : exec i s = executePhase i s
      (arithBody s p i.record.operand1 i.record.operand2 i.record.destination f))
      (hreq : requiredFields i = [.destination, .operand1, .operand2]) :
      ∃ b, exec i s = executePhase i s (.ok b) ∧ OverflowsOnly b := by
    obtain ⟨b, hb, hg⟩ := arithBody_of_requirements_met (hreq ▸ hmet)
    exact ⟨b, hexec.trans (congrArg _ hb), hg⟩
  cases i with
  | loadAddress o1 o2 d a x =>
    have hd : okReg s.cfg d = true := by simpa [requiredFields, unmet, Instr.record] using hmet
    simp only [exec, execLoadAddress, requireDestination_eq, hd, if_true]
    exact ⟨_, rfl, .ok _⟩
  | loadImmediate o1 o2 d x | mov o1 o2 d a x =>
    obtain ⟨hd, h1⟩ : okReg s.cfg d = true ∧ okOperand s.cfg o1 = true := by
      simpa [requiredFields, unmet, Instr.record] using hmet
    simp only [exec, execLoadImmediate, execMov, requireDestination_eq, requireOperand_eq, hd, h1, if_true]
    exact ⟨_, rfl, .ok _⟩
  | store o1 o2 d a x =>
    obtain ⟨h1, ha⟩ : okOperand s.cfg o1 = true ∧ a.isSome = true := by
      simpa [requiredFields, unmet, Instr.record] using hmet
    obtain ⟨n, rfl⟩ := Option.isSome_iff_exists.1 ha
    simp only [exec, execStore, requireOperand_eq, h1, if_true]
    exact ⟨_, rfl, .ok _⟩
  | add o1 o2 d a x | sub o1 o2 d a x | mul o1 o2 d a x | div o1 o2 d a x =>
    exact arith rfl rfl
  | jmp o1 o2 d a x | jz o1 o2 d a x | jnz o1 o2 d a x | halt o1 o2 d a x =>
    exact ⟨.ok (skip s), rfl, .ok _⟩

/-- EXECUTE raises the fault of R114 under STRICT only, with the first requirement that its record does not meet. -/
theorem exec_malformed (h : exec i s = .fault (.malformedInstruction k op r)) :
    s.cfg.strict = true ∧ FirstUnmet s.cfg i r ∧ k = s.cursor - 1 ∧ op = i.opcode := by
  cases hf : failedRequirement s.cfg i with
  | none =>
    obtain ⟨b, hb, hover⟩ := exec_eq_of_requirements_met hf
    obtain hg | ⟨q, hq, -⟩ := executePhase_eq_fault (hb.symm.trans h)
    · injection hg with hg
      obtain ⟨info, hinfo⟩ := hover _ hg
      exact absurd hinfo (by simp)
    · exact absurd hq (by simp)
  | some q =>
    obtain ⟨b, hb, herr⟩ := exec_eq_executePhase i s
    obtain hg | ⟨p, hp, hs, hinfo⟩ := executePhase_eq_fault (hb.symm.trans h)
    · exact absurd ((herr q hf).symm.trans hg) (by simp)
    · obtain rfl : q = p := by injection (herr q hf).symm.trans hp
      injection hinfo with hk hop hr
      exact ⟨hs, failedRequirement_eq_some_iff.1 (hr ▸ hf), hk, hop⟩

/-- Settles O25: of the cases in which a step faults, only an EXECUTE raises this one, for the first unmet requirement. -/
theorem malformedInstructionsAreSkipped : Obligations.MalformedInstructionsAreSkipped := by
  refine ⟨fun i s => skippedIfMalformed, fun s k op r h => ?_⟩
  cases step_faultCase h with
  | execute i hp hi hexec =>
    obtain ⟨hs, hr, hk, hop⟩ := exec_malformed hexec
    exact ⟨hs, hp, i, hi, hr, hk, hop⟩

end Sys2Proof.Machine
end

section
/-! The marks that a fault and a refusal leave, and what `reset` alone clears (60_exceptions R112, R115). -/

namespace Sys2Proof.Machine

variable {m : CoreMachine} {s : State} {f : Fault} {r : Refusal}

/-! ### The calls `loadProgram` and `step`, one equation per outcome -/

theorem CoreMachine.callLoadProgram_of_wf {p : List Instr} (h : programFailure m.state.cfg p = none) :
    m.callLoadProgram p = ({ m with state := installProgram p m.state }, .nothing) := by
  simp [CoreMachine.callLoadProgram, State.loadProgram, h]

theorem CoreMachine.callLoadProgram_of_failure {p : List Instr} {k : Nat} {check : WfCheck}
    (h : programFailure m.state.cfg p = some (k, check)) :
    m.callLoadProgram p =
      ({ m with refusals := m.refusals ++ [.illFormedProgram k check] }, .refused (.illFormedProgram k check)) := by
  simp [CoreMachine.callLoadProgram, State.loadProgram, h]

theorem CoreMachine.callStep_of_faulted (h : m.faulted = some f) : m.callStep = (m, .returned false) := by
  simp [CoreMachine.callStep, h]

theorem CoreMachine.callStep_of_next (hm : m.faulted = none) (h : step m.state = .next s) :
    m.callStep = ({ m with state := s }, .returned (stepReturns m.state)) := by
  simp [CoreMachine.callStep, hm, h]

theorem CoreMachine.callStep_of_fault (hm : m.faulted = none) (h : step m.state = .fault f) :
    m.callStep = ({ m with faulted := some f }, .faulted f) := by
  simp [CoreMachine.callStep, hm, h]

theorem CoreMachine.callStep_of_refused (hm : m.faulted = none) (h : step m.state = .refused r) :
    m.callStep = ({ m with refusals := m.refusals ++ [r] }, .refused r) := by
  simp [CoreMachine.callStep, hm, h]

/-! ### What the calls other than `reset` keep -/

/-- The package of an induction over host calls without `reset`, for what a machine and not only its state has. -/
theorem CoreMachine.calls_invariant_of_no_reset {P : CoreMachine → Prop}
    (hP : ∀ m c, c ≠ HostCall.reset → P m → P (m.call c).1) {cs : List HostCall} (hcs : HostCall.reset ∉ cs) (hm : P m) :
    P (m.calls cs) := by
  induction cs generalizing m with
  | nil => exact hm
  | cons c cs ih =>
    obtain ⟨hc, hcs⟩ := not_or.1 (hcs ∘ List.mem_cons.2)
    exact ih hcs (hP m c (Ne.symm hc) hm)

theorem CoreMachine.call_faulted {c : HostCall} (hc : c ≠ .reset) (hm : m.faulted = some f) :
    (m.call c).1.faulted = some f := by
  cases c with
  | reset => exact absurd rfl hc
  | loadProgram p =>
    cases h : programFailure m.state.cfg p with
    | none => simpa [CoreMachine.call, CoreMachine.callLoadProgram_of_wf h]
    | some x => simpa [CoreMachine.call, CoreMachine.callLoadProgram_of_failure h]
  | step => simpa [CoreMachine.call, CoreMachine.callStep_of_faulted hm]
  | getState obs => exact hm
  | encode i => exact hm

theorem CoreMachine.refusals_prefix_callStep (m : CoreMachine) : m.refusals <+: m.callStep.1.refusals := by
  cases hm : m.faulted with
  | some f => simp [CoreMachine.callStep_of_faulted hm]
  | none =>
    cases h : Machine.step m.state with
    | next s => simp [CoreMachine.callStep_of_next hm h]
    | fault f => simp [CoreMachine.callStep_of_fault hm h]
    | refused r => simp [CoreMachine.callStep_of_refused hm h]

theorem CoreMachine.refusals_prefix_call {c : HostCall} (hc : c ≠ .reset) : m.refusals <+: (m.call c).1.refusals := by
  cases c with
  | reset => exact absurd rfl hc
  | loadProgram p =>
    cases h : programFailure m.state.cfg p with
    | none => simp [CoreMachine.call, CoreMachine.callLoadProgram_of_wf h]
    | some x => simp [CoreMachine.call, CoreMachine.callLoadProgram_of_failure h]
  | step => exact m.refusals_prefix_callStep
  | getState obs => exact List.prefix_rfl
  | encode i => exact List.prefix_rfl

/-- The refusal marks have no part in a step's outcome (60_exceptions R115). -/
theorem CoreMachine.callStep_ignores_refusals (m : CoreMachine) (rs : List Refusal) :
    ({ m with refusals := rs } : CoreMachine).callStep.1.state = m.callStep.1.state ∧
    ({ m with refusals := rs } : CoreMachine).callStep.2 = m.callStep.2 := by
  cases hm : m.faulted with
  | some f => simp [CoreMachine.callStep, hm]
  | none => cases h : Machine.step m.state <;> simp [CoreMachine.callStep, hm, h]

/-- Settles O13: a step of a faulted machine is no step, and of the calls only `reset` clears the mark. -/
theorem faultLastsUntilReset : Obligations.FaultLastsUntilReset := by
  refine ⟨fun m f hm h => ?_, fun m f => CoreMachine.callStep_of_faulted, fun cs m f hm hcs => ?_, fun m => rfl⟩
  · simp [CoreMachine.call, CoreMachine.callStep_of_fault hm h]
  · exact CoreMachine.calls_invariant_of_no_reset (P := fun n => n.faulted = some f) (fun _ _ => CoreMachine.call_faulted) hcs hm

/-! ### The lowest failing record -/

theorem le_of_programFailureFrom {c : Config} {n k : Nat} {check : WfCheck} {p : List Instr}
    (h : programFailureFrom c n p = some (k, check)) : n ≤ k := by
  induction p generalizing n with
  | nil => simp [programFailureFrom] at h
  | cons x xs ih =>
    cases hx : x.failedCheck c with
    | none =>
      rw [programFailureFrom, hx] at h
      exact Nat.le_of_succ_le (ih h)
    | some q =>
      simp only [programFailureFrom, hx, Option.some.injEq, Prod.mk.injEq] at h
      exact h.1.le

/-- The record found is the lowest that fails a check, and the check its first failing one (60_exceptions R115). -/
theorem programFailureFrom_eq_some_iff {c : Config} {n k : Nat} {check : WfCheck} {p : List Instr} :
    programFailureFrom c n p = some (n + k, check) ↔
      ∃ i, p[k]? = some i ∧ i.failedCheck c = some check ∧ ∀ j, j < k → ∀ x, p[j]? = some x → x.Wf c := by
  induction p generalizing n k with
  | nil => simp [programFailureFrom]
  | cons x xs ih =>
    cases hx : x.failedCheck c with
    | some q =>
      cases k with
      | zero => simp [programFailureFrom, hx]
      | succ k =>
        have hbad : ¬ x.Wf c := by simp [hx]
        exact iff_of_false (by simp [programFailureFrom, hx]) fun ⟨i, _, _, hlow⟩ => hbad (hlow 0 k.succ_pos x rfl)
    | none =>
      simp only [programFailureFrom, hx]
      cases k with
      | zero =>
        exact iff_of_false (fun h => absurd (le_of_programFailureFrom h) (by omega)) (by simp [hx])
      | succ k =>
        rw [show n + (k + 1) = n + 1 + k by omega, ih]
        simp only [Nat.forall_lt_succ_left, List.getElem?_cons_succ]
        simp [Instr.Wf, hx]

theorem State.loadProgram_eq_refused_iff {p : List Instr} {k : Nat} {check : WfCheck} :
    s.loadProgram p = .refused (.illFormedProgram k check) ↔ programFailure s.cfg p = some (k, check) := by
  unfold State.loadProgram
  cases programFailure s.cfg p <;> simp [Prod.ext_iff]

/-- Settles O9: the lowest failing record is what the search finds, and the marks only grow between two resets. -/
theorem loadProgramRefusesLowestRecord : Obligations.LoadProgramRefusesLowestRecord := by
  refine ⟨fun m p k check => ⟨?_, fun h => ?_⟩, fun cs m hcs => ?_, fun m => rfl, fun m => m.callStep_ignores_refusals⟩
  · rw [State.loadProgram_eq_refused_iff, programFailure, ← programFailureFrom_eq_some_iff (n := 0), Nat.zero_add]
  · exact CoreMachine.callLoadProgram_of_failure (State.loadProgram_eq_refused_iff.1 h)
  · exact CoreMachine.calls_invariant_of_no_reset (P := fun n => m.refusals <+: n.refusals)
      (fun _ _ hc h => h.trans (CoreMachine.refusals_prefix_call hc)) hcs List.prefix_rfl

end Sys2Proof.Machine
end

section
/-! The newly built machine (70_reset R129): a `reset` leaves it as it is, and its first step finds no record. -/

namespace Sys2Proof.Machine

/-- `reset` changes nothing on a newly built machine (70_reset R129). -/
theorem CoreMachine.call_reset_construct (c : Config) :
    ((CoreMachine.construct c).call .reset).1 = CoreMachine.construct c :=
  congrArg (CoreMachine.mk · none []) (State.resetCall_construct c)

/-- With no program there is no record to fetch (40_cycle R80). -/
theorem step_construct (c : Config) : step (State.construct c) = .next (State.construct c) :=
  step_of_ended (.inl (State.construct_phase c)) (Nat.zero_le _)

theorem stepReturns_construct (c : Config) : stepReturns (State.construct c) = false :=
  stepReturns_of_no_record (.inl (State.construct_phase c)) (by simp)

/-- The first step of a newly built machine returns false and changes nothing (70_reset R129, 40_cycle R80). -/
theorem CoreMachine.callStep_construct (c : Config) :
    (CoreMachine.construct c).callStep = (CoreMachine.construct c, .returned false) := by
  rw [CoreMachine.callStep_of_next rfl (step_construct c), ← stepReturns_construct c]
  rfl

theorem State.construct_gprs_blank {c : Config} {p : String × Reg} (hp : p ∈ (State.construct c).gprs) :
    p.2 = Reg.blank := by
  obtain ⟨n, -, rfl⟩ := List.mem_map.1 hp
  rfl

/-- Settles O11: the first step of a newly built machine finds no record, and the reset state is built from the default
parameters. -/
theorem resetStateValues : Obligations.ResetStateValues := by
  refine ⟨fun c => ⟨CoreMachine.call_reset_construct c, State.construct_program c,
    congrArg Prod.snd (CoreMachine.callStep_construct c)⟩, rfl, State.construct_names Config.default,
    fun p hp => State.construct_gprs_blank hp, ?_⟩
  exact ⟨rfl, rfl, rfl, rfl, rfl, rfl, rfl, rfl, rfl, State.reset.resetCall_linesOk⟩

end Sys2Proof.Machine
end

section
/-! Decoding and encoding as partial inverses (30_encoding R74): the decoder finds an opcode by its byte, and the representative
record has the decoded bytes. -/

namespace Sys2Proof

variable {c : Config}

/-! ### The opcode byte -/

/-- The bytes of an allowed `OPCODE_BYTE` tell the opcodes apart (00_scope R10). -/
theorem Config.Wf.opcodeByte_injective (hc : c.Wf) : Function.Injective c.opcodeByte := by
  obtain ⟨-, -, -, -, -, -, -, -, hd, -⟩ := hc
  rw [OpcodeBytes.toList_eq_map] at hd
  exact fun o p h => List.inj_on_of_nodup_map hd o.mem_all p.mem_all h

theorem opcodeByte_of_opcodeOfByte {b : Byte} {o : Opcode} (h : opcodeOfByte c b = some o) : c.opcodeByte o = b :=
  beq_iff_eq.1 (List.find?_some (p := fun o => c.opcodeByte o == b) h)

theorem opcodeOfByte_opcodeByte (hc : c.Wf) (o : Opcode) : opcodeOfByte c (c.opcodeByte o) = some o := by
  cases h : opcodeOfByte c (c.opcodeByte o) with
  | none => exact absurd (mem_opcodeBytes_iff_exists.2 ⟨o, rfl⟩) (opcodeOfByte_eq_none_iff.1 h)
  | some p => exact congrArg some (hc.opcodeByte_injective (opcodeByte_of_opcodeOfByte h))

/-- Settles O4: the opcode is found by its byte, and the bytes after it are answered as they stand. -/
theorem decodeOfEncodeRecoversOpcodeAndBytes : Obligations.DecodeOfEncodeRecoversOpcodeAndBytes := by
  intro c hc i
  have ho := opcodeOfByte_opcodeByte hc i.opcode
  cases hf : i.record.fieldBytes with
  | none => rw [Instr.encodeBytes_of_none hf, decodeBytes, ho]
  | some p => rw [Instr.encodeBytes_of_some hf, decodeBytes, ho]

/-! ### The bytes after it -/

/-- The low byte of the literal that a byte gives is that byte (30_encoding R72). -/
theorem byte_literalOfByte (x : Byte) : (literalOfByte x).byte = x := by
  simp [literalOfByte, Operand.byte]

/-- The address that two bytes give is written as those bytes (30_encoding R71). -/
theorem fieldBytes_addressOfBytes {r : InstrRecord} {x y : Byte} (h : r.address = some (addressOfBytes x y)) :
    r.fieldBytes = some (x, y) := by
  rw [InstrRecord.fieldBytes_of_address h, addressOfBytes, Option.some_inj, Prod.mk.injEq]
  constructor <;> exact BitVec.eq_of_toNat_eq (by rw [BitVec.toNat_ofNat]; omega)

/-- Two literals of bytes are written as those bytes (30_encoding R72). -/
theorem fieldBytes_literalOfByte {r : InstrRecord} {x y : Byte} (ha : r.address = none)
    (hx : r.operand1 = some (literalOfByte x)) (hy : r.operand2 = some (literalOfByte y)) :
    r.fieldBytes = some (x, y) := by
  rw [InstrRecord.fieldBytes_of_operands ha hx hy, byte_literalOfByte, byte_literalOfByte]

/-- The representative record has the decoded opcode and field bytes (log 6). -/
theorem Decoded.record_representative (c : Config) (p : Decoded) :
    (p.representative c).opcode = p.opcode ∧ (p.representative c).record.fieldBytes = p.fieldBytes := by
  obtain ⟨op, _ | ⟨x, y⟩⟩ := p
  · cases op <;> exact ⟨rfl, rfl⟩
  · cases op with
    | add | sub | mul | div | mov => exact ⟨rfl, fieldBytes_literalOfByte rfl rfl rfl⟩
    | load | store | jmp | jz | jnz | halt => exact ⟨rfl, fieldBytes_addressOfBytes rfl⟩

/-- The bytes that the decoder accepts are those of the opcode and field bytes it answers (30_encoding R69, R74). -/
theorem encodeBytes_of_decodeBytes {bytes : List Byte} {p : Decoded} (h : decodeBytes c bytes = .ok p) {i : Instr}
    (ho : i.opcode = p.opcode) (hf : i.record.fieldBytes = p.fieldBytes) : i.encodeBytes c = bytes := by
  unfold decodeBytes at h
  split at h
  · split at h
    case h_1 o hb =>
      injection h with h
      subst h
      rw [Instr.encodeBytes_of_none hf, ho, opcodeByte_of_opcodeOfByte hb]
    · exact absurd h (by simp)
  · split at h
    case h_1 o hb =>
      injection h with h
      subst h
      rw [Instr.encodeBytes_of_some hf, ho, opcodeByte_of_opcodeOfByte hb]
    · exact absurd h (by simp)
  · exact absurd h (by simp)

/-- Settles O5: the representative record has the decoded opcode and field bytes, and these are the bytes that were read. -/
theorem encodeOfDecodeGivesTheBytes : Obligations.EncodeOfDecodeGivesTheBytes := by
  intro c _ bytes i h
  unfold decodeInstr at h
  cases hp : decodeBytes c bytes with
  | error e => simp [hp, Except.map] at h
  | ok p =>
    obtain rfl : p.representative c = i := by simpa [hp, Except.map] using h
    obtain ⟨ho, hf⟩ := p.record_representative c
    exact encodeBytes_of_decodeBytes hp ho hf

/-- Settles O6: the records of each pair have the same opcode and the same field bytes. -/
theorem encodingLosesFields : Obligations.EncodingLosesFields := by
  intro c x y r n d e t u
  have haddr {w : InstrRecord} (h : w.address = some (x.toNat * 256 + y.toNat)) : w.fieldBytes = some (x, y) :=
    fieldBytes_addressOfBytes h
  have hlow : (Operand.literal n).byte = (Operand.literal (n % 256)).byte := by
    apply BitVec.eq_of_toNat_eq
    zify
    simp only [Operand.toNat_byte_literal, Int.emod_emod_of_dvd, dvd_refl]
  refine ⟨?_, ?_, ?_⟩ <;> refine Instr.encodeBytes_congr (by rfl) ?_ c
  · exact (haddr rfl).trans (fieldBytes_literalOfByte rfl rfl rfl).symm
  · exact (haddr rfl).trans (fieldBytes_literalOfByte rfl rfl rfl).symm
  · exact congrArg (fun b => some ((0x00 : Byte), b)) hlow

end Sys2Proof
end

section
/-! What every step keeps (10_state R18 to R38; 20_memory R52 to R59), and that a sound state fails soft (60_exceptions R110,
R111). -/

namespace Sys2Proof.Machine

variable {s t : State}

/-- Settles O43: of the operations on the memory each keeps its form. -/
theorem stepKeepsMemoryCanonical : Obligations.StepKeepsMemoryCanonical :=
  fun _ _ hs h => (step_cases h).memOk hs

/-- Settles O44: what a step writes is a draw, an operand, a read value or what `fit` gives, each in `Word`. -/
theorem stepKeepsValuesInWord : Obligations.StepKeepsValuesInWord :=
  fun _ _ hc hs h => (step_cases h).wordsOk hc hs

/-- Settles O45: an access with empty outer levels writes one line of L1, with the cell's value. -/
theorem stepKeepsCacheSound : Obligations.StepKeepsCacheSound :=
  fun _ _ hs h => (step_cases h).cacheOk hs

/-- Settles O46: the one access of a cycle stamps its line with that cycle. -/
theorem stepKeepsStampsDistinct : Obligations.StepKeepsStampsDistinct :=
  fun _ _ hs h => (step_cases h).stampsOk hs

/-- Settles O49: records are numbered on from the length of the log, and only FETCH counts a cycle. -/
theorem stepKeepsLogsNumbered : Obligations.StepKeepsLogsNumbered :=
  fun _ _ ⟨hb, hc⟩ h => ⟨(step_cases h).busIdsOk hb, (step_cases h).cycleOk hc⟩

/-! ### The record being processed -/

/-- A phase other than IDLE has the record before the cursor in `ir` (10_state R23, R24). -/
theorem State.FetchOk.exists_record (hs : s.FetchOk) (hp : s.phase ≠ .idle) : ∃ i ∈ s.program, s.ir = some i := by
  obtain ⟨k, hk⟩ := Nat.exists_eq_succ_of_ne_zero (Nat.one_le_iff_ne_zero.1 (hs.started hp))
  have hlt : k < s.program.length := Nat.lt_of_succ_le (hk ▸ hs.bounded)
  exact ⟨s.program[k], List.getElem_mem hlt, (hs.current k hk).trans (List.getElem?_eq_getElem hlt)⟩

/-- No EXECUTE raises the model's own stop (log 10). -/
theorem exec_ne_noInstruction (i : Instr) (s : State) : exec i s ≠ .fault .noInstruction := by
  intro h
  obtain ⟨r, -, hr⟩ | ⟨x, y, r, -, -, hr⟩ := exec_fault h
  · exact absurd hr (by simp)
  · exact absurd hr (by simp)

/-- With a record fetched, EXECUTE has one (40_cycle R85). -/
theorem State.FetchOk.step_ne_noInstruction (hs : s.FetchOk) : step s ≠ .fault .noInstruction := by
  intro h
  cases step_faultCase h with
  | noInstruction hp hi =>
    obtain ⟨i, -, hsome⟩ := hs.exists_record (by rw [hp]; decide)
    exact absurd (hi.symm.trans hsome) (by simp)
  | execute i hp hi hexec => exact exec_ne_noInstruction i s hexec

/-- Settles O47: the record before the cursor is in `ir` when EXECUTE is next, and each phase keeps it so. -/
theorem stepKeepsFetchedRecord : Obligations.StepKeepsFetchedRecord :=
  fun _ hs => ⟨hs.step_ne_noInstruction, fun _ h => (step_cases h).fetchOk hs⟩

/-! ### Active flags -/

theorem Bank.mem_clearActive {b : Bank} {p : String × Reg} (h : p ∈ b.clearActive) : p.2.active = false := by
  obtain ⟨q, -, rfl⟩ := List.mem_map.1 h
  rfl

/-- Only EXECUTE sets an active flag, and the STORE phase that follows clears them all (10_state R21, R32). -/
theorem StepCase.flagsOk (h : StepCase s t) (hs : s.FlagsOk) : t.FlagsOk := by
  cases h with
  | idle hp | fetch i p hp => exact fun _ => hs (by rcases hp with hp | hp <;> rw [hp] <;> decide)
  | decode hp => exact fun _ => hs (by rw [hp]; decide)
  | execute i e => exact fun hne => absurd rfl hne
  | store hp =>
    refine fun _ => ⟨fun p hmem => Bank.mem_clearActive hmem, fun p hmem => ?_⟩
    obtain ⟨x, -, hx⟩ := Memory.mem_clearActive hmem
    rw [hx]

/-- Settles O48: active flags are set by EXECUTE only and all cleared by STORE. -/
theorem stepKeepsFlagsTransient : Obligations.StepKeepsFlagsTransient :=
  fun _ _ hs h => (step_cases h).flagsOk hs

/-! ### The logs -/

/-- The bus log only grows (10_state R37). -/
theorem StepCase.bus_prefix (h : StepCase s t) : s.bus <+: t.bus := by
  cases h with
  | fetch => exact List.prefix_append _ _
  | execute i e hp hi hw he => exact he.executed.bus ▸ List.prefix_append _ _
  | _ => exact List.prefix_rfl

/-- The history only grows (10_state R38). -/
theorem StepCase.history_prefix (h : StepCase s t) : s.history <+: t.history := by
  cases h with
  | idle => exact List.prefix_rfl
  | execute i e hp hi hw he => exact he.executed.history ▸ List.prefix_append _ _
  | _ => exact List.prefix_append _ _

/-- Settles O53: the cases of a step, field by field. -/
theorem stepNeverRewritesProgramOrLogs : Obligations.StepNeverRewritesProgramOrLogs := by
  intro s t h
  have hc := step_cases h
  exact ⟨hc.program, hc.cfg, hc.names, hc.linesLength, hc.bus_prefix, hc.history_prefix⟩

/-! ### The reset state and fail-soft -/

/-- Settles O50: the reset state is a newly built machine with the default parameters, which are allowed ones. -/
theorem resetHasTheInvariants : Obligations.ResetHasTheInvariants := by
  refine ⟨State.construct_sound (by decide), fun _ => ⟨fun p hp => ?_, fun p hp => absurd hp List.not_mem_nil⟩⟩
  rw [State.construct_gprs_blank hp]
  rfl

/-- A step refuses only at the EXECUTE of an ill-formed record (log 9). -/
theorem step_refused {r : Refusal} (h : step s = .refused r) :
    s.phase = .decode ∧ ∃ i, s.ir = some i ∧ ¬ i.Wf s.cfg := by
  have hfetch : fetchOrIdle s ≠ .refused r := by
    unfold fetchOrIdle fetchPhase
    split
    · split <;> simp
    · simp
  cases hp : s.phase with
  | idle => exact absurd (step_of_idle_or_store (.inl hp) ▸ h) hfetch
  | store => exact absurd (step_of_idle_or_store (.inr hp) ▸ h) hfetch
  | fetch => exact absurd (step_of_fetch hp ▸ h) (by simp)
  | execute => exact absurd (step_of_execute hp ▸ h) (by simp)
  | decode =>
    refine ⟨rfl, ?_⟩
    simp only [step, hp, executeCurrent] at h
    cases hi : s.ir with
    | none => simp [hi] at h
    | some i => exact ⟨i, rfl, exec_refused (r := r) (by simpa [hi] using h)⟩

/-- A sound state refuses no step: `loadProgram` has checked the record (60_exceptions R110, R115). -/
theorem State.Sound.step_ne_refused (hs : s.Sound) (r : Refusal) : Machine.step s ≠ .refused r := by
  intro h
  obtain ⟨hp, i, hi, hbad⟩ := step_refused h
  obtain ⟨j, hj, hij⟩ := hs.fetch.exists_record (by rw [hp]; decide)
  obtain rfl : i = j := Option.some.inj (hi.symm.trans hij)
  exact hbad (programFailureFrom_eq_none_iff.1 hs.program i hj)

/-- Under `wrap` every result is brought into `Word` (00_scope R6). -/
theorem fit_ne_none_of_wrap {c : Config} (hc : c.overflow = .wrap) (r : Int) : fit c r ≠ none := by
  rw [Ne, fit_eq_none_iff]
  rintro ⟨-, hf⟩
  exact absurd (hc.symm.trans hf) (by decide)

/-- With `wrap` and without STRICT a sound state faults by no step (60_exceptions R111). -/
theorem State.Sound.step_ne_fault (hs : s.Sound) (hwrap : s.cfg.overflow = .wrap) (hstrict : s.cfg.strict = false)
    (g : Fault) : Machine.step s ≠ .fault g := by
  intro h
  cases step_faultCase h with
  | fetch i hp hr hf => exact fit_ne_none_of_wrap hwrap _ hf
  | noInstruction hp hi => exact hs.fetch.step_ne_noInstruction h
  | execute i hp hi hexec =>
    obtain ⟨r, hs, -⟩ | ⟨x, y, r, -, hf, -⟩ := exec_fault hexec
    · exact absurd (hstrict.symm.trans hs) (by decide)
    · exact fit_ne_none_of_wrap hwrap r hf

/-- Settles O52: each way a step can stop needs an ill-formed record, a missing one, `fault` or STRICT. -/
theorem soundMachineFailsSoft : Obligations.SoundMachineFailsSoft := by
  refine fun s hs => ⟨hs.step_ne_refused, fun hwrap hstrict => ?_⟩
  cases h : step s with
  | next t => exact ⟨t, h⟩
  | fault g => exact absurd h (hs.step_ne_fault hwrap hstrict g)
  | refused r => exact absurd h (hs.step_ne_refused r)

end Sys2Proof.Machine
end

section
/-! The requirements, `fit` and the frame of EXECUTE in the spec's words (40_cycle R84, R87; 42_arithmetic R97), and the calls
that only look (10_state R39). -/

namespace Sys2Proof.Machine

variable {s t : State} {i : Instr}

/-- Settles O24: the check is a search through the required fields for one that is not met. -/
theorem failedRequirementIsTheFirstUnmet : Obligations.FailedRequirementIsTheFirstUnmet := by
  refine fun c i => ⟨?_, fun r => failedRequirement_eq_some_iff⟩
  rw [malformed, Option.isSome_eq_false_iff, Option.isNone_iff_eq_none, failedRequirement_eq_none_iff]
  simp only [unmet_eq_false_iff]

/-- Settles O27: wrapping gives the one value of `Word` congruent to the result. -/
theorem fitBringsResultsIntoWord : Obligations.FitBringsResultsIntoWord :=
  fun _ _ hb => ⟨fit_eq_none_iff, fun _ => fit_eq_some_iff hb⟩

/-- Settles O26: every EXECUTE is the shared frame, which checks the record first. -/
theorem illFormedRecordsAreRefused : Obligations.IllFormedRecordsAreRefused := by
  intro i s check h
  obtain ⟨b, hb, -⟩ := exec_eq_executePhase i s
  exact hb.trans (executePhase_refused h b)

/-- When EXECUTE is next, the step is `exec` of the record in `ir` (40_cycle R85). -/
theorem step_of_decode (hp : s.phase = .decode) (hi : s.ir = some i) : step s = exec i s := by
  simp [step, hp, executeCurrent, hi]

/-- Settles O17: the step is `exec` by its equation, and FETCH of the record at the cursor puts it in `ir`. -/
theorem stepRunsTheFetchedInstruction : Obligations.StepRunsTheFetchedInstruction := by
  refine ⟨fun s i => step_of_decode, fun s t i hp hr h => ?_⟩
  rw [step_of_record hp hr, fetchPhase] at h
  split at h
  · exact absurd h (by simp)
  · injection h with h
    exact h ▸ rfl

/-- Settles O14: by induction on the calls, each of which answers with the machine itself. -/
theorem observingChangesNothing : Obligations.ObservingChangesNothing := by
  intro cs m h
  induction cs with
  | nil => rfl
  | cons c cs ih =>
    obtain ⟨hc, hcs⟩ := List.forall_mem_cons.1 h
    obtain ⟨o, rfl⟩ | ⟨i, rfl⟩ := hc
    · exact ih hcs
    · exact ih hcs

/-! ### The step record -/

/-- Where a malformed instruction answers a next state, it is the skip (40_cycle R87). -/
theorem exec_of_malformed (h : exec i s = .next t) (hm : (failedRequirement s.cfg i).isSome) :
    t = finishExecute (Config.execBus s.view i) (skip s) := by
  obtain ⟨r, hr⟩ := Option.isSome_iff_exists.1 hm
  obtain ⟨b, hb, herr⟩ := exec_eq_executePhase i s
  obtain ⟨-, e, ht, hbody | ⟨-, -, rfl⟩⟩ := executePhase_next (hb.symm.trans h)
  · exact absurd ((herr r hr).symm.trans hbody) (by simp)
  · exact ht

/-- The record that a performed phase appends (40_cycle R84). -/
theorem StepCase.record (h : StepCase s t) (hr : stepReturns s = true) :
    ∃ r m, t.history = s.history ++ [⟨t.cycle, t.phase, t.ir, r, m⟩] ∧ (t.phase ≠ .execute → r = [] ∧ m = []) := by
  cases h with
  | idle hp hnone => exact absurd (hr.symm.trans (stepReturns_of_no_record hp hnone)) (by decide)
  | execute i e hp hi hw he =>
    have hx := he.executed
    exact ⟨_, _, by rw [hx.history, hx.cycle, hx.ir, hx.phase], fun hne => absurd rfl hne⟩
  | _ => exact ⟨[], [], rfl, fun _ => ⟨rfl, rfl⟩⟩

/-- The EXECUTE of a malformed record appends one without deltas (40_cycle R84, R87). -/
theorem history_of_malformed (h : step s = .next t) (ht : t.phase = .execute) (hr : stepReturns s = true)
    (hi : s.ir = some i) (hm : (failedRequirement s.cfg i).isSome) :
    t.history = s.history ++ [⟨t.cycle, t.phase, t.ir, [], []⟩] := by
  obtain ⟨-, hphases⟩ := (step_cases h).performs hr
  have hp : s.phase = .decode := by simpa [ht] using hphases
  rw [exec_of_malformed ((step_of_decode hp hi).symm.trans h) hm]
  rfl

/-- Settles O21: each case of a step appends its record, and a malformed EXECUTE is the skip. -/
theorem everyPhaseAppendsItsRecord : Obligations.EveryPhaseAppendsItsRecord := by
  intro s t h hr
  obtain ⟨r, m, hhist, hempty⟩ := (step_cases h).record hr
  refine ⟨r, m, hhist, hempty, fun i ht hi hm => ?_⟩
  simpa using hhist.symm.trans (history_of_malformed h ht hr hi hm)

end Sys2Proof.Machine
end

section
/-! What a step can change of the memory and of the registers, and what LOAD reads (10_state R19, R22, R31; 20_memory R41,
R55). -/

namespace Sys2Proof.Machine

variable {s t : State} {i : Instr} {e : Effect} {a : Nat} {r : String}

theorem BodyEffect.used (h : BodyEffect i s e) (hm : s.mem.wf) (hu : (s.mem.cell a).used = true) :
    (e.state.mem.cell a).used = true := by
  cases h with
  | skip => exact hu
  | dest => exact hu
  | load o1 o2 d b x hi hd hlt =>
    rw [loadFromCell_mem, Memory.cell_markUsed hm]
    split_ifs
    · rfl
    · exact hu
  | store o o2 d b x hi hlt hv =>
    rw [storeToCell_mem, Memory.cell_stored hm]
    split_ifs
    · rfl
    · exact hu

/-- A used flag stays set (10_state R31). -/
theorem StepCase.used (h : StepCase s t) (hm : s.mem.wf) (hu : (s.mem.cell a).used = true) :
    (t.mem.cell a).used = true := by
  cases h with
  | execute i e hp hi hw he => exact he.used hm hu
  | store hp => rwa [storePhase_mem, Memory.cell_clearActive hm]
  | _ => exact hu

/-- Settles O54: a step that is no STORE to the address keeps its value, and no operation clears a used flag. -/
theorem onlyStoreWritesMemory : Obligations.OnlyStoreWritesMemory :=
  fun _ _ _ hm h => ⟨not_imp_comm.1 ((step_cases h).read_of_not_storesTo hm), (step_cases h).used hm⟩

/-- A register that a bank write does not name keeps its value (40_cycle R88). -/
theorem gpr_of_gprs_put {d : String} {x : Reg} (ht : t.gprs = s.gprs.put d x) (hr : r ≠ d) : t.gpr r = s.gpr r := by
  rw [State.gpr, ht, Bank.get_put_other _ hr, State.gpr]

/-- An EXECUTE changes a general register's value only as its destination, with a writing opcode (10_state R19). -/
theorem BodyEffect.destination_of_gpr_ne (h : BodyEffect i s e) (hne : e.state.gpr r ≠ s.gpr r) :
    i.record.destination = some r ∧ WritesDestination i.opcode := by
  cases h with
  | skip => exact absurd rfl hne
  | dest d v hd hi ho hv =>
    obtain rfl : r = d := not_imp_comm.1 (gpr_of_gprs_put (writeDest_gprs s d v)) hne
    exact ⟨hi, ho⟩
  | load o1 o2 d b x hi hd hlt =>
    obtain rfl : r = d := not_imp_comm.1 (gpr_of_gprs_put (loadFromCell_gprs s d b)) hne
    subst hi
    exact ⟨rfl, show WritesDestination .load by decide⟩
  | store => exact absurd rfl hne

/-- A step changes a general register's value only by an EXECUTE with it as destination (10_state R19). -/
theorem StepCase.destination_of_gpr_ne (h : StepCase s t) (hne : t.gpr r ≠ s.gpr r) :
    s.phase = .decode ∧ ∃ i, s.ir = some i ∧ i.record.destination = some r ∧ WritesDestination i.opcode := by
  cases h with
  | execute i e hp hi hw he => exact ⟨hp, i, hi, he.destination_of_gpr_ne hne⟩
  | store hp =>
    refine absurd ?_ hne
    simp only [State.gpr, storePhase_gprs, Bank.get_clearActive]
  | _ => exact absurd rfl hne

/-- Only FETCH changes PC (10_state R22). -/
theorem StepCase.fetch_of_pc_ne (h : StepCase s t) (hne : t.pc.value ≠ s.pc.value) : t.phase = .fetch := by
  cases h with
  | fetch => rfl
  | execute i e hp hi hw he => exact absurd (congrArg Reg.value he.executed.pc) hne
  | _ => exact absurd rfl hne

/-- Settles O55: the cases of a step and the effects of an EXECUTE, by what each writes. -/
theorem onlyDestinationsAndPcChange : Obligations.OnlyDestinationsAndPcChange :=
  fun _ _ _ h => ⟨(step_cases h).destination_of_gpr_ne, (step_cases h).fetch_of_pc_ne⟩

/-- Settles O56: in a coherent cache the read path answers the cell's value, and LOAD marks the cell used only. -/
theorem loadGivesTheMemoryValue : Obligations.LoadGivesTheMemoryValue :=
  fun _ _ _ _ a _ hc hb hw hd =>
    ⟨_, exec_loadAddress_of_met hw hd, gpr_loadFromCell hc.coherent hb hd _, Memory.read_markUsed hc.memory a a⟩

end Sys2Proof.Machine
end

section
/-! The four phases of one instruction (40_cycle R79, 70_reset R132). -/

namespace Sys2Proof.Machine

variable {s t d : State} {i : Instr} {e : Effect} {p : Int}

/-- A run goes on from where its first part ends. -/
theorem run_add_of_reaches {m : Nat} (h : Reaches m s d) (n : Nat) :
    Host.Core.run core (m + n) s = Host.Core.run core n d := by
  induction m generalizing s with
  | zero => rw [reaches_zero.1 h, Nat.zero_add]
  | succ m ih =>
    obtain ⟨u, hu, h⟩ := reaches_succ.1 h
    have hu : core.step s = .next u := hu
    rw [Nat.add_right_comm]
    simp only [Host.Core.run, hu]
    exact ih h

/-- A run whose next step faults ends in that fault (60_exceptions R112). -/
theorem run_of_step_fault {f : Fault} (h : step d = .fault f) (n : Nat) : Host.Core.run core (n + 1) d = .fault f := by
  have h : core.step d = .fault f := h
  simp only [Host.Core.run, h]

/-- FETCH and DECODE of the record at the cursor (40_cycle R81, R82). -/
theorem reaches_decode (hp : s.phase = .idle ∨ s.phase = .store) (hr : s.program[s.cursor]? = some i)
    (hf : fit s.cfg (s.pc.value + 1) = some p) : Reaches 2 s (decodePhase (fetched i p s)) := by
  have hfetch : step s = .next (fetched i p s) := by rw [step_of_record hp hr, fetchPhase, hf]
  exact reaches_succ.2 ⟨_, hfetch, reaches_succ.2 ⟨_, step_of_fetch rfl, reaches_zero.2 rfl⟩⟩

/-- EXECUTE and STORE of the record in `ir` (40_cycle R83, R85). -/
theorem reaches_store (hp : d.phase = .decode) (hi : d.ir = some i) (h : exec i d = .next t) (ht : t.phase = .execute) :
    Reaches 2 d (storePhase t) :=
  reaches_succ.2 ⟨t, (step_of_decode hp hi).trans h, reaches_succ.2 ⟨_, step_of_execute ht, reaches_zero.2 rfl⟩⟩

/-- Every EXECUTE keeps the memory's canonical form. -/
theorem BodyEffect.mem_wf (h : BodyEffect i s e) (hm : s.mem.wf) : e.state.mem.wf := by
  cases h with
  | skip => exact hm
  | dest => exact hm
  | load o1 o2 d a x hi hd ha => exact Memory.wf_markUsed hm a
  | store o o2 d a x hi ha hv => exact Memory.wf_markActive (Memory.wf_markUsed (Memory.wf_write hm a _) a) a

/-- Settles O22: FETCH and DECODE touch no register but PC and IR, no cell and no line, and the STORE phase keeps what EXECUTE
left. -/
theorem instructionTakesFourSteps : Obligations.InstructionTakesFourSteps := by
  intro s i p hb hm hp hr hfit
  have hdecode := reaches_decode hp hr ((fit_eq_some_iff hb).2 hfit)
  refine ⟨decodePhase (fetched i p s), hdecode, rfl, rfl, rfl, rfl, rfl, rfl, rfl, rfl, ⟨rfl, rfl, rfl⟩, fun t h => ?_,
    fun f h => ?_⟩
  · obtain ⟨-, e, he, rfl⟩ := exec_effect h
    have hx := he.executed
    exact ⟨_, reaches_add.2 ⟨_, hdecode, reaches_store rfl rfl h hx.phase⟩, rfl, hx.ir, hx.cursor, hx.cycle, hx.pc,
      storePhase_valuesKept (he.mem_wf hm)⟩
  · exact (run_add_of_reaches hdecode 2).trans (run_of_step_fault ((step_of_decode rfl rfl).trans h) 1)

end Sys2Proof.Machine
end

section
/-! What raises the fault of an overflow (60_exceptions R113): the PC increment of FETCH, and the exact result of an arithmetic
instruction. -/

namespace Sys2Proof.Machine

variable {s : State} {i : Instr} {info : OverflowInfo} {x y : Operand} {v1 v2 q r : Int} {f : Int → Int → Int}

/-! ### The exact result of an arithmetic opcode -/

/-- The exact integer result that an arithmetic opcode gives two operand values; no other opcode has one
(42_arithmetic R99 to R102). -/
def exactResult : Opcode → Option (Int → Int → Int)
  | .add => some (· + ·)
  | .sub => some (· - ·)
  | .mul => some (· * ·)
  | .div => some floorDiv
  | _ => none

/-- There is one quotient rounded toward minus infinity (42_arithmetic R102). -/
theorem IsFloorQuotient.eq_floorDiv (hq : IsFloorQuotient v1 v2 q) : q = floorDiv v1 v2 := by
  obtain ⟨rfl, rfl⟩ | ⟨hpos, hle, hlt⟩ | ⟨hneg, hle, hlt⟩ := hq
  · rw [floorDiv, if_pos rfl]
  · obtain ⟨hdiv, -⟩ := (Int.fdiv_fmod_unique (a := v1) (r := v1 - q * v2) (q := q) hpos).2
      ⟨by ring, by linarith, by linarith⟩
    rw [floorDiv, if_neg hpos.ne', hdiv]
  · obtain ⟨hdiv, -⟩ := (Int.fdiv_fmod_unique' (a := v1) (r := v1 - q * v2) (q := q) hneg).2
      ⟨by ring, by linarith, by linarith⟩
    rw [floorDiv, if_neg hneg.ne, hdiv]

theorem isFloorQuotient_iff : IsFloorQuotient v1 v2 q ↔ q = floorDiv v1 v2 :=
  ⟨IsFloorQuotient.eq_floorDiv, fun h => h ▸ isFloorQuotient_floorDiv v1 v2⟩

/-- The spec's four results, opcode by opcode, are `exactResult`'s. -/
theorem exactResult_iff {op : Opcode} :
    ((op = .add ∧ r = v1 + v2) ∨ (op = .sub ∧ r = v1 - v2) ∨ (op = .mul ∧ r = v1 * v2) ∨
      (op = .div ∧ IsFloorQuotient v1 v2 r)) ↔ ∃ f, exactResult op = some f ∧ r = f v1 v2 := by
  rw [isFloorQuotient_iff]
  cases op <;> simp [exactResult]

/-- The EXECUTE of an arithmetic opcode is the frame over the shared body, which requires three fields
(30_encoding R67, 42_arithmetic R97). -/
theorem exec_of_exactResult (h : exactResult i.opcode = some f) (s : State) :
    exec i s = executePhase i s (arithBody s i.opcode i.record.operand1 i.record.operand2 i.record.destination f) ∧
    requiredFields i = [.destination, .operand1, .operand2] := by
  cases i with
  | add | sub | mul | div => exact ⟨by rw [← Option.some.inj h]; rfl, rfl⟩
  | _ => exact absurd h (by simp [Instr.opcode, Instr.record, exactResult])

theorem ArithResult.exact (h : ArithResult s i x y r) :
    i.record.operand1 = some x ∧ i.record.operand2 = some y ∧
    ∃ f, exactResult i.opcode = some f ∧ r = f (resolve s x) (resolve s y) := by
  cases h <;> exact ⟨rfl, rfl, _, rfl, rfl⟩

/-! ### The two causes -/

/-- EXECUTE faults at well-formed records only (log 9). -/
theorem wf_of_exec_fault {g : Fault} (h : exec i s = .fault g) : i.Wf s.cfg := by
  obtain ⟨b, hb, -⟩ := exec_eq_executePhase i s
  cases hc : i.failedCheck s.cfg with
  | none => exact hc
  | some c => exact absurd ((hb.symm.trans h).symm.trans (executePhase_refused hc b)) (by simp)

/-- An overflow is raised past the requirements (40_cycle R87). -/
theorem meets_of_exec_overflow (h : exec i s = .fault (.arithOverflow info)) :
    ∀ r ∈ requiredFields i, Meets s.cfg i.record r := by
  obtain ⟨b, hb, herr⟩ := exec_eq_executePhase i s
  have hnone : failedRequirement s.cfg i = none := by
    by_contra hsome
    obtain ⟨r, hr⟩ := Option.ne_none_iff_exists'.1 hsome
    obtain hbody | ⟨q, -, -, hg⟩ := executePhase_eq_fault (hb.symm.trans h)
    · exact absurd ((herr r hr).symm.trans hbody) (by simp)
    · exact absurd hg (by simp)
  exact fun r hr => unmet_eq_false_iff.1 (failedRequirement_eq_none_iff.1 hnone r hr)

/-- EXECUTE of an arithmetic instruction whose requirements are met and whose exact result overflows (60_exceptions R113). -/
theorem exec_of_overflows (hw : i.Wf s.cfg) (hmet : ∀ r ∈ requiredFields i, Meets s.cfg i.record r)
    (hx : i.record.operand1 = some x) (hy : i.record.operand2 = some y) (hf : exactResult i.opcode = some f)
    (ho : Overflows s.cfg (f (resolve s x) (resolve s y))) :
    exec i s = .fault (.arithOverflow (.execute i.opcode (resolve s x) (resolve s y) (f (resolve s x) (resolve s y))
      (s.cursor - 1))) := by
  obtain ⟨hexec, hreq⟩ := exec_of_exactResult hf s
  rw [hreq] at hmet
  obtain ⟨d, hd, hmem⟩ : ∃ d, i.record.destination = some d ∧ d ∈ s.cfg.gprNames := hmet .destination (by simp)
  have h1 : OperandMet s.cfg (some x) := hx ▸ hmet .operand1 (by simp)
  have h2 : OperandMet s.cfg (some y) := hy ▸ hmet .operand2 (by simp)
  rw [hexec, hx, hy, hd, arithBody_of_met hmem h1 h2, writeFit_of_overflows ho, executePhase_fault hw]

/-- FETCH faults where the PC increment overflows (40_cycle R81, 60_exceptions R113). -/
theorem step_of_pc_overflows (hp : s.phase = .idle ∨ s.phase = .store) (hr : s.program[s.cursor]? = some i)
    (ho : Overflows s.cfg (s.pc.value + 1)) : step s = .fault (.arithOverflow (.fetch s.pc.value s.cursor)) := by
  rw [step_of_record hp hr, fetchPhase, fit_eq_none_iff.2 ho]

/-- Settles O28: the faults of a step that carry an overflow are FETCH's and those of the shared arithmetic body. -/
theorem overflowFaultHasItsCauses : Obligations.OverflowFaultHasItsCauses := by
  intro s info
  simp only [exactResult_iff]
  constructor
  · intro h
    generalize hg : Fault.arithOverflow info = g at h
    cases step_faultCase h with
    | fetch i hp hr hf =>
      obtain ⟨hout, hover⟩ := fit_eq_none_iff.1 hf
      obtain ⟨hlt, -⟩ := List.getElem?_eq_some_iff.1 hr
      exact ⟨hover, .inl ⟨hp, hlt, hout, Fault.arithOverflow.inj hg⟩⟩
    | noInstruction => exact absurd hg (by simp)
    | execute i hp hi hexec =>
      subst hg
      obtain ⟨r, -, hr⟩ | ⟨x, y, r, harith, hf, hinfo⟩ := exec_fault hexec
      · exact absurd hr (by simp)
      · obtain ⟨hx, hy, hexact⟩ := harith.exact
        obtain ⟨hout, hover⟩ := fit_eq_none_iff.1 hf
        exact ⟨hover, .inr ⟨hp, i, x, y, r, hi, wf_of_exec_fault hexec, meets_of_exec_overflow hexec, hx, hy, hexact, hout,
          Fault.arithOverflow.inj hinfo⟩⟩
  · rintro ⟨hover, ⟨hp, hlt, hout, rfl⟩ | ⟨hp, i, x, y, r, hi, hw, hmet, hx, hy, ⟨f, hf, rfl⟩, hout, rfl⟩⟩
    · exact step_of_pc_overflows hp (List.getElem?_eq_getElem hlt) ⟨hout, hover⟩
    · exact (step_of_decode hp hi).trans (exec_of_overflows hw hmet hx hy hf ⟨hout, hover⟩)

end Sys2Proof.Machine
end

section
/-! The LRU property (20_memory R57): four reads of an empty L1 of three lines. -/

namespace Sys2Proof.Machine

variable {c : Cache} {m : Memory} {now a : Nat}

/-- A cache with these lines in L1 and nothing in the outer levels. -/
structure Cache.HasL1 (c : Cache) (ls : List Line) (hits misses : Nat) : Prop where
  lines : c.l1.lines = ls
  hits : c.l1.hits = hits
  misses : c.l1.misses = misses
  outer : c.OuterEmpty

/-- A read of an address that no valid line has is a miss that fills the victim (20_memory R50). -/
theorem Cache.HasL1.check {ls : List Line} {h n : Nat} (hc : c.HasL1 ls h n)
    (hmiss : ∀ l ∈ ls, l.valid = true → l.address ≠ a) :
    (c.check m now a).cache.HasL1 (ls.set (victim ls) ⟨a, m.read a, true, false, now⟩) h (n + 1) := by
  obtain ⟨rfl, rfl, rfl, houter⟩ := hc
  have hscan : c.hitScan a = none := by
    rw [Cache.hitScan_of_outerEmpty houter, CacheLevel.find_eq_none_iff.2 hmiss, Option.map_none]
  obtain ⟨hl1, -⟩ := Cache.access_level_of_miss hscan now id ⟨a, m.read a, true, false, now⟩
  rw [← Cache.check_cache, Cache.level] at hl1
  exact ⟨by rw [hl1], by rw [hl1], by rw [hl1], (Cache.check_l1Access houter m now a).outerEmpty houter⟩

/-- A valid line before an invalid one is no victim (20_memory R49). -/
theorem victim_cons_of_valid {l : Line} {ls : List Line} (hl : l.valid = true) (h : ∃ k ∈ ls, k.valid = false) :
    victim (l :: ls) = victim ls + 1 := by
  cases hf : ls.findIdx? (fun l => !l.valid) with
  | none =>
    obtain ⟨k, hk, hv⟩ := h
    simpa [hv] using List.findIdx?_eq_none_iff.1 hf k hk
  | some j => simp [victim, List.findIdx?_cons, hl, hf]

theorem victim_cons_of_invalid {l : Line} (ls : List Line) (hl : l.valid = false) : victim (l :: ls) = 0 := by
  simp [victim, List.findIdx?_cons, hl]

/-- Where all lines are valid and the first has the smallest stamp, it is the victim (20_memory R49). -/
theorem victim_cons_of_oldest {l : Line} {ls : List Line} (h : ∀ k ∈ l :: ls, k.valid = true)
    (hmin : ∀ k ∈ ls, l.stamp < k.stamp) : victim (l :: ls) = 0 := by
  obtain ⟨k, hk, hle, -⟩ := victim_of_valid (List.cons_ne_nil l ls) h
  cases hv : victim (l :: ls) with
  | zero => rfl
  | succ n =>
    have hmem : k ∈ ls := List.mem_of_getElem? (by simpa [hv] using hk)
    exact absurd (hle l List.mem_cons_self) (not_le.2 (hmin k hmem))

/-- Settles O42: each of the four reads misses; three fill the invalid lines in order, and the fourth finds the first one
oldest. -/
theorem fourthReadEvictsTheFirst : Obligations.FourthReadEvictsTheFirst := by
  intro c m now a b e f hd hlen hinv ho c1 c2 c3 c4
  obtain ⟨x, y, z, hxyz⟩ := List.length_eq_three.1 hlen
  obtain ⟨hx, hy, hz⟩ : x.valid = false ∧ y.valid = false ∧ z.valid = false := by simpa [hxyz] using hinv
  obtain ⟨⟨hab, hae, haf⟩, ⟨hbe, hbf⟩, hef⟩ : (a ≠ b ∧ a ≠ e ∧ a ≠ f) ∧ (b ≠ e ∧ b ≠ f) ∧ e ≠ f := by simpa using hd
  have h0 : c.HasL1 [x, y, z] c.l1.hits c.l1.misses := ⟨hxyz, rfl, rfl, ho⟩
  have h1 : c1.HasL1 [⟨a, m.read a, true, false, now⟩, y, z] c.l1.hits (c.l1.misses + 1) := by
    have h := h0.check (m := m) (now := now) (a := a) (by simp [hx, hy, hz])
    rwa [victim_cons_of_invalid _ hx] at h
  have h2 : c2.HasL1 [⟨a, m.read a, true, false, now⟩, ⟨b, m.read b, true, false, now + 1⟩, z] c.l1.hits
      (c.l1.misses + 2) := by
    have h := h1.check (m := m) (now := now + 1) (a := b) (by simp [hy, hz, hab])
    rwa [victim_cons_of_valid rfl (by simp [hy]), victim_cons_of_invalid _ hy] at h
  have h3 : c3.HasL1 [⟨a, m.read a, true, false, now⟩, ⟨b, m.read b, true, false, now + 1⟩,
      ⟨e, m.read e, true, false, now + 2⟩] c.l1.hits (c.l1.misses + 3) := by
    have h := h2.check (m := m) (now := now + 2) (a := e) (by simp [hz, hae, hbe])
    rwa [victim_cons_of_valid rfl (by simp [hz]), victim_cons_of_valid rfl (by simp [hz]),
      victim_cons_of_invalid _ hz] at h
  have h4 := h3.check (m := m) (now := now + 3) (a := f) (by simp [haf, hbf, hef])
  rw [victim_cons_of_oldest (by simp) (by simp)] at h4
  exact ⟨h3.lines, h4.lines, h4.misses, h4.hits⟩

end Sys2Proof.Machine
end

section
/-! No draw reaches what the core reads (40_cycle R92): states with equal views have steps with equal views, and so have the host's
other calls. -/

namespace Sys2Proof.Machine

variable {s t : State} {i : Instr}

/-! ### Operations on states with equal views -/

/-- The caches of a view, their status cleared as every access clears it (20_memory R47). -/
def CoreView.cache (v : CoreView) : Cache where
  l1 := ⟨v.lines.1, v.counters.getD 0 0, v.counters.getD 1 0, LevelStatus.cleared⟩
  l2 := ⟨v.lines.2.1, v.counters.getD 2 0, v.counters.getD 3 0, LevelStatus.cleared⟩
  l3 := ⟨v.lines.2.2, v.counters.getD 4 0, v.counters.getD 5 0, LevelStatus.cleared⟩

theorem State.cache_view (s : State) : s.view.cache = s.cache.clearStatus := rfl

theorem gpr_of_view_eq (h : s.view = t.view) (r : String) : s.gpr r = t.gpr r :=
  congrArg (fun v : CoreView => (v.gprs.get r).value) h

theorem endPhase_view (h : s.view = t.view) (p : Phase) (r : List RegDelta) (m : List MemDelta) :
    (s.endPhase p r m).view = (t.endPhase p r m).view :=
  congrArg (fun v : CoreView => { v with phase := p, history := v.history ++ [StepRecord.mk v.cycle p v.ir r m] }) h

theorem appendBus_view (h : s.view = t.view) (ts : List BusTransfer) : (s.appendBus ts).view = (t.appendBus ts).view := by
  have hbus : (s.appendBus ts).view.bus = (t.appendBus ts).view.bus := by
    rw [State.appendBus_view_bus, State.appendBus_view_bus, h]
  exact congrArg₂ (fun (v : CoreView) b => { v with bus := b }) h hbus

theorem fetched_view (h : s.view = t.view) (i : Instr) (p : Int) : (fetched i p s).view = (fetched i p t).view := by
  refine endPhase_view (appendBus_view ?_ _) _ _ _
  exact congrArg (fun v : CoreView =>
    { v with cycle := v.cycle + 1, ir := some i, cursor := v.cursor + 1, pc := ⟨p, true⟩ }) h

theorem decodePhase_view (h : s.view = t.view) : (decodePhase s).view = (decodePhase t).view :=
  endPhase_view (congrArg (fun v : CoreView => { v with irActive := true }) h) _ _ _

theorem storePhase_view (h : s.view = t.view) : (storePhase s).view = (storePhase t).view :=
  endPhase_view
    (congrArg (fun v : CoreView => { v with gprs := v.gprs.clearActive, mem := v.mem.clearActive }) h) _ _ _

theorem installProgram_view (h : s.view = t.view) (p : List Instr) :
    (installProgram p s).view = (installProgram p t).view :=
  congrArg (fun v : CoreView => { v with program := p, cursor := 0, phase := .idle, ir := none }) h

theorem resetCall_view (h : s.view = t.view) : s.resetCall.view = t.resetCall.view :=
  congrArg (fun v : CoreView => { (State.construct v.cfg).view with program := v.program }) h

/-! ### Bodies -/

/-- What of an effect is no draw. -/
def Effect.view (e : Effect) : CoreView × List RegDelta × List MemDelta := (e.state.view, e.regDeltas, e.memDeltas)

theorem finishExecute_view {e e' : Effect} (h : e.view = e'.view) (ts : List BusTransfer) :
    (finishExecute ts e).view = (finishExecute ts e').view := by
  obtain ⟨hs, hr, hm⟩ : e.state.view = e'.state.view ∧ e.regDeltas = e'.regDeltas ∧ e.memDeltas = e'.memDeltas := by
    simpa [Effect.view] using h
  unfold finishExecute
  rw [hr, hm]
  exact endPhase_view (appendBus_view hs ts) _ _ _

theorem skip_view (h : s.view = t.view) : (skip s).view = (skip t).view :=
  congrArg (·, [], []) h

theorem writeDest_view (h : s.view = t.view) (d : String) (x : Int) : (writeDest s d x).view = (writeDest t d x).view :=
  congrArg (fun v : CoreView => ({ v with gprs := v.gprs.put d ⟨x, true⟩ }, [RegDelta.mk d (v.gprs.get d).value x], [])) h

/-- What of a cache is no draw, put in the place of a view's. -/
def CoreView.withCache (v : CoreView) (c : Cache) : CoreView :=
  { v with
    lines := (c.l1.lines, c.l2.lines, c.l3.lines)
    counters := [c.l1.hits, c.l1.misses, c.l2.hits, c.l2.misses, c.l3.hits, c.l3.misses] }

theorem State.view_withCache (s : State) (c : Cache) : ({ s with cache := c } : State).view = s.view.withCache c := rfl

theorem loadFromCell_view (h : s.view = t.view) (d : String) (a : Nat) :
    (loadFromCell s d a).view = (loadFromCell t d a).view :=
  congrArg (fun v : CoreView =>
    let answer := v.cache.check v.mem v.cycle a
    ({ v.withCache answer.cache with gprs := v.gprs.put d ⟨answer.value, true⟩, mem := v.mem.markUsed a },
      [RegDelta.mk d (v.gprs.get d).value answer.value], [])) h

theorem storeToCell_view (h : s.view = t.view) (a : Nat) (x : Int) : (storeToCell s a x).view = (storeToCell t a x).view :=
  congrArg (fun v : CoreView =>
    ({ v.withCache (v.cache.update v.cycle a x) with mem := ((v.mem.write a x).markUsed a).markActive a }, [],
      [MemDelta.mk a (v.mem.read a) x])) h

/-- Two bodies agree: in the failed requirement, in the fault, or in what of the effect is no draw. -/
inductive BodyAgrees : Except Requirement (Except Fault Effect) → Except Requirement (Except Fault Effect) → Prop where
  | requirement (r : Requirement) : BodyAgrees (.error r) (.error r)
  | fault (f : Fault) : BodyAgrees (.ok (.error f)) (.ok (.error f))
  | effect {e e' : Effect} (h : e.view = e'.view) : BodyAgrees (.ok (.ok e)) (.ok (.ok e'))

/-- After the same requirement, what follows decides. -/
theorem BodyAgrees.bind {α : Type} {x y : Except Requirement α} {f g : α → Except Requirement (Except Fault Effect)}
    (hxy : x = y) (h : ∀ a, BodyAgrees (f a) (g a)) : BodyAgrees (do f (← x)) (do g (← y)) := by
  subst hxy
  cases x with
  | error r => exact .requirement r
  | ok a => exact h a

theorem requireDestination_of_view_eq (h : s.view = t.view) (d : Option String) :
    requireDestination s d = requireDestination t d := by
  have hcfg : s.cfg = t.cfg := congrArg CoreView.cfg h
  rw [requireDestination_eq, requireDestination_eq, hcfg]

theorem resolve_of_view_eq (h : s.view = t.view) (o : Operand) : resolve s o = resolve t o := by
  cases o with
  | literal n => rfl
  | registerRef r => exact gpr_of_view_eq h r

theorem requireOperand_of_view_eq (h : s.view = t.view) (w : Requirement) (o : Option Operand) :
    requireOperand s w o = requireOperand t w o := by
  have hcfg : s.cfg = t.cfg := congrArg CoreView.cfg h
  rw [requireOperand_eq, requireOperand_eq, hcfg, resolve_of_view_eq h]

theorem writeFit_agrees (h : s.view = t.view) (op : Opcode) (d : String) (v1 v2 r : Int) :
    BodyAgrees (.ok (writeFit s op d v1 v2 r)) (.ok (writeFit t op d v1 v2 r)) := by
  have hcfg : s.cfg = t.cfg := congrArg CoreView.cfg h
  have hcursor : s.cursor = t.cursor := congrArg CoreView.cursor h
  simp only [writeFit, hcfg, hcursor]
  cases fit t.cfg r with
  | none => exact .fault _
  | some v => exact .effect (writeDest_view h d v)

theorem arithBody_agrees (h : s.view = t.view) (op : Opcode) (o1 o2 : Option Operand) (d : Option String)
    (f : Int → Int → Int) : BodyAgrees (arithBody s op o1 o2 d f) (arithBody t op o1 o2 d f) :=
  .bind (requireDestination_of_view_eq h d) fun r =>
    .bind (requireOperand_of_view_eq h .operand1 o1) fun v1 =>
      .bind (requireOperand_of_view_eq h .operand2 o2) fun v2 => writeFit_agrees h op r v1 v2 (f v1 v2)

/-! ### EXECUTE and the step -/

/-- Two outcomes agree: in the fault, in the refusal, or in what of the next state is no draw. -/
inductive OutcomeAgrees : Host.Outcome State Fault Refusal → Host.Outcome State Fault Refusal → Prop where
  | next {u v : State} (h : u.view = v.view) : OutcomeAgrees (.next u) (.next v)
  | fault (f : Fault) : OutcomeAgrees (.fault f) (.fault f)
  | refused (r : Refusal) : OutcomeAgrees (.refused r) (.refused r)

theorem executePhase_agrees (h : s.view = t.view) {b b' : Except Requirement (Except Fault Effect)} (hb : BodyAgrees b b') :
    OutcomeAgrees (executePhase i s b) (executePhase i t b') := by
  have hcfg : s.cfg = t.cfg := congrArg CoreView.cfg h
  have hcursor : s.cursor = t.cursor := congrArg CoreView.cursor h
  simp only [executePhase, hcfg, hcursor, h]
  cases i.failedCheck t.cfg with
  | some check => exact .refused _
  | none =>
    cases hb with
    | requirement r =>
      cases t.cfg.strict with
      | true => exact .fault _
      | false => exact .next (finishExecute_view (skip_view h) _)
    | fault f => exact .fault f
    | effect he => exact .next (finishExecute_view he _)

/-- EXECUTE reads no draw (40_cycle R92). -/
theorem exec_agrees (h : s.view = t.view) (i : Instr) : OutcomeAgrees (exec i s) (exec i t) := by
  cases i with
  | loadAddress o1 o2 d a x =>
    exact executePhase_agrees h (.bind (requireDestination_of_view_eq h d) fun r => .effect (loadFromCell_view h r a))
  | loadImmediate o1 o2 d x | mov o1 o2 d a x =>
    exact executePhase_agrees h (.bind (requireDestination_of_view_eq h d) fun r =>
      .bind (requireOperand_of_view_eq h .operand1 o1) fun v => .effect (writeDest_view h r v))
  | store o1 o2 d a x =>
    exact executePhase_agrees h (.bind (requireOperand_of_view_eq h .operand1 o1) fun v =>
      .bind rfl fun k => .effect (storeToCell_view h k v))
  | add o1 o2 d a x | sub o1 o2 d a x | mul o1 o2 d a x | div o1 o2 d a x =>
    exact executePhase_agrees h (arithBody_agrees h _ o1 o2 d _)
  | jmp o1 o2 d a x | jz o1 o2 d a x | jnz o1 o2 d a x | halt o1 o2 d a x =>
    exact executePhase_agrees h (.effect (skip_view h))

theorem fetchPhase_agrees (h : s.view = t.view) (i : Instr) : OutcomeAgrees (fetchPhase i s) (fetchPhase i t) := by
  have hcfg : s.cfg = t.cfg := congrArg CoreView.cfg h
  have hpc : s.pc = t.pc := congrArg CoreView.pc h
  have hcursor : s.cursor = t.cursor := congrArg CoreView.cursor h
  simp only [fetchPhase, hcfg, hpc, hcursor]
  cases fit t.cfg (t.pc.value + 1) with
  | none => exact .fault _
  | some p => exact .next (fetched_view h i p)

theorem fetchOrIdle_agrees (h : s.view = t.view) : OutcomeAgrees (fetchOrIdle s) (fetchOrIdle t) := by
  have hrecord : s.program[s.cursor]? = t.program[t.cursor]? := congrArg (fun v : CoreView => v.program[v.cursor]?) h
  unfold fetchOrIdle
  rw [hrecord]
  cases t.program[t.cursor]? with
  | some i => exact fetchPhase_agrees h i
  | none => exact .next (congrArg (fun v : CoreView => { v with phase := .idle }) h)

theorem executeCurrent_agrees (h : s.view = t.view) : OutcomeAgrees (executeCurrent s) (executeCurrent t) := by
  have hir : s.ir = t.ir := congrArg CoreView.ir h
  unfold executeCurrent
  rw [hir]
  cases t.ir with
  | some i => exact exec_agrees h i
  | none => exact .fault _

/-- A step reads no draw (40_cycle R92). -/
theorem step_agrees (h : s.view = t.view) : OutcomeAgrees (step s) (step t) := by
  have hphase : s.phase = t.phase := congrArg CoreView.phase h
  unfold step
  rw [hphase]
  cases t.phase with
  | idle | store => exact fetchOrIdle_agrees h
  | fetch => exact .next (decodePhase_view h)
  | decode => exact executeCurrent_agrees h
  | execute => exact .next (storePhase_view h)

/-! ### The host's calls -/

variable {m n : CoreMachine}

theorem CoreMachine.view_eq_iff :
    m.view = n.view ↔ m.state.view = n.state.view ∧ m.faulted = n.faulted ∧ m.refusals = n.refusals := by
  simp [CoreMachine.view]

theorem CoreMachine.callLoadProgram_view (h : m.view = n.view) (p : List Instr) :
    (m.callLoadProgram p).1.view = (n.callLoadProgram p).1.view := by
  obtain ⟨hs, hf, hr⟩ := CoreMachine.view_eq_iff.1 h
  have hcfg : m.state.cfg = n.state.cfg := congrArg CoreView.cfg hs
  refine CoreMachine.view_eq_iff.2 ?_
  cases hp : programFailure n.state.cfg p with
  | none =>
    rw [CoreMachine.callLoadProgram_of_wf hp, CoreMachine.callLoadProgram_of_wf (hcfg ▸ hp)]
    exact ⟨installProgram_view hs p, hf, hr⟩
  | some x =>
    rw [CoreMachine.callLoadProgram_of_failure hp, CoreMachine.callLoadProgram_of_failure (hcfg ▸ hp)]
    exact ⟨hs, hf, congrArg (· ++ _) hr⟩

theorem CoreMachine.callStep_view (h : m.view = n.view) : m.callStep.1.view = n.callStep.1.view := by
  obtain ⟨hs, hf, hr⟩ := CoreMachine.view_eq_iff.1 h
  cases hn : n.faulted with
  | some f => rwa [CoreMachine.callStep_of_faulted hn, CoreMachine.callStep_of_faulted (hf.trans hn)]
  | none =>
    have hm := hf.trans hn
    have hstep := step_agrees hs
    refine CoreMachine.view_eq_iff.2 ?_
    generalize hms : step m.state = x, hns : step n.state = y at hstep
    cases hstep with
    | next h =>
      rw [CoreMachine.callStep_of_next hm hms, CoreMachine.callStep_of_next hn hns]
      exact ⟨h, hf, hr⟩
    | fault f =>
      rw [CoreMachine.callStep_of_fault hm hms, CoreMachine.callStep_of_fault hn hns]
      exact ⟨hs, rfl, hr⟩
    | refused r =>
      rw [CoreMachine.callStep_of_refused hm hms, CoreMachine.callStep_of_refused hn hns]
      exact ⟨hs, hf, congrArg (· ++ [r]) hr⟩

/-- A host call reads no draw. -/
theorem CoreMachine.call_view (h : m.view = n.view) (c : HostCall) : (m.call c).1.view = (n.call c).1.view := by
  cases c with
  | reset =>
    obtain ⟨hs, -⟩ := CoreMachine.view_eq_iff.1 h
    exact CoreMachine.view_eq_iff.2 ⟨resetCall_view hs, rfl, rfl⟩
  | loadProgram p => exact CoreMachine.callLoadProgram_view h p
  | step => exact CoreMachine.callStep_view h
  | getState obs => exact h
  | encode i => exact h

/-- Settles O58: by induction on the calls, each of which leaves machines of equal views with equal views. -/
theorem hostCallsIgnoreDraws : Obligations.HostCallsIgnoreDraws := by
  intro cs
  induction cs with
  | nil => exact fun m n h => h
  | cons c cs ih => exact fun m n h => ih _ _ (CoreMachine.call_view h c)

end Sys2Proof.Machine
end
